-- ==== Sys2Proof/Word.lean ====
section
/-! DEFINITION. The words of QMOD: bytes, command words, 64-bit words and binary64 words. -/

namespace Sys2Proof

/-- An 8-bit field: FA, FB, RSV, OPC (rule R63) and the response field L (rule R33). -/
abbrev Byte := BitVec 8

/-- The command word W (rule R62). -/
abbrev Word32 := BitVec 32

/-- An operand word A or B (rule R62), and the response fields X and Y (rule R33). -/
abbrev Word64 := BitVec 64

/-- A binary64 datum. "A 64-bit word and the binary64 value it encodes are the same datum" (rule R11),
so `f64(w)` and `bits64(x)` of the spec are both the identity here. -/
abbrev F64 := BitVec 64

end Sys2Proof
end

