-- ==== Sys2Proof/Config.lean ====
section
/-! DEFINITION. What is fixed for a QMOD block: the sizes of rule R6 and the four named functions of rules R7 and R14. -/

namespace Sys2Proof.Config

/-- N_MAX, the longest bit string one operation takes (rule R6). -/
def maxBits : Nat := 64

/-- M_MAX, the largest alphabet (rule R6). -/
def maxPoints : Nat := 64

/-- K_MAX, the largest bits-per-symbol (rule R6). -/
def maxBitsPerSymbol : Nat := 6

/-- The four binary64 functions that the SNR converter and the sampler evaluate (rules R7, R14).
The shared operations take them as an argument, as rule R7 asks.
The machine runs with their reference definitions, `Sys2Proof.Machine.referenceMath`. -/
structure MathLib where
  exp10 : F64 → F64
  ln : F64 → F64
  cos : F64 → F64
  sin : F64 → F64

end Sys2Proof.Config
end

