-- ==== Sys2Proof/Syntax.lean ====
section
/-! DEFINITION. The command transaction and the eleven commands of the opcode map (rules R62, R65, R70). -/

namespace Sys2Proof

/-- One transaction of the command channel: the command word W and the operand words A and B,
"taken together on one transfer" (rule R62). -/
structure Command where
  w : Word32
  a : Word64
  b : Word64
deriving DecidableEq, Repr

/-- The seven readable registers of rule R23, in the order of their read-back numbers. -/
inductive RegName where
  | scheme
  | bps
  | ebn0
  | esn0
  | nvar
  | nsd
  | errf
deriving DecidableEq, Repr

/-- The commands, one constructor for each row of the opcode map (rule R70), with the operands that rule R65
says the row uses.
An operand word that rule R65 marks "ignored" is no field: no result depends on it (rule R69). -/
inductive Instr where
  /-- R79. -/
  | nop
  /-- R80: FB is the scheme code, 0..255. -/
  | setsch (c : Byte)
  /-- R81: A is Eb/N0 in dB. -/
  | setsnr (x : F64)
  /-- R83: FA is the register number. -/
  | rdreg (r : RegName)
  /-- R84: FB is the scheme code, 0..255. -/
  | bpsq (c : Byte)
  /-- R85: FA is the index, FB the scheme code, each 0..255. -/
  | romrd (i c : Byte)
  /-- R86: FB is the scheme code, 0..255. -/
  | genc (c : Byte)
  /-- R87: FA is the length n, A the bit string. -/
  | mod (n : Byte) (a : Word64)
  /-- R89: A is the sample's I, B its Q. -/
  | det (i q : F64)
  /-- R91: FA and FB are the lengths, A and B the bit strings. -/
  | ham (na nb : Byte) (a b : Word64)
  /-- R96: A is the sample's I, B its Q. -/
  | awgn (i q : F64)
deriving DecidableEq, Repr

end Sys2Proof
end

