-- ==== Sys2Proof/WellFormed.lean ====
section
/-! DEFINITION. The field ranges a command must meet to be encodable (rule R65): the lengths of MOD and HAM. -/

namespace Sys2Proof

/-- A length field is in range: "length n, 0..64" (rule R65). -/
def lengthOk (n : Byte) : Bool := decide (n.toNat ≤ Config.maxBits)

/-- The ranges of rule R65 that the type of `Instr` does not already impose.
A register number is a `RegName`, so it is in range by its type.
Scheme codes and indices are 0..255, whole bytes. -/
def Instr.wf : Instr → Bool
  | .nop => true
  | .setsch _ => true
  | .setsnr _ => true
  | .rdreg _ => true
  | .bpsq _ => true
  | .romrd _ _ => true
  | .genc _ => true
  | .mod n _ => lengthOk n
  | .det _ _ => true
  | .ham na nb _ _ => lengthOk na && lengthOk nb
  | .awgn _ _ => true

end Sys2Proof
end

