-- ==== Sys2Proof/Decode.lean ====
section
/-! DEFINITION. The decoder of rule R72, total on all transactions, and the encoder written from the same opcode map. -/

namespace Sys2Proof

/-- Why a command word is illegal, in the order of rule R102, checks 1 to 4.
Every cause gives the status ILLEGAL (rule R99). -/
inductive IllegalCause where
  /-- RSV = W[7:0] is not 0 (rule R64). -/
  | rsvNonzero
  /-- OPC is not in the opcode map (rule R71). -/
  | opcUndefined
  /-- A must-be-zero field FA or FB is not 0 (rules R64, R65). -/
  | mustBeZero
  /-- RDREG FA > 6, MOD FA > 64, HAM FA > 64 or FB > 64 (rule R72). -/
  | fieldRange
deriving DecidableEq, Repr

/-- The rows of the opcode map, by mnemonic (rule R70). -/
inductive Opcode where
  | nop
  | setsch
  | setsnr
  | rdreg
  | bpsq
  | romrd
  | genc
  | mod
  | det
  | ham
  | awgn
deriving DecidableEq, Repr

/-- A row of the opcode map: "A word W selects a row when (W & Mask) = Match" (rule R70). -/
structure Row where
  op : Opcode
  pattern : Word32
  mask : Word32
deriving DecidableEq, Repr

/-- The opcode map, transcribed from rule R70. -/
def opcodeMap : List Row :=
  [ ⟨.nop, 0x00000000#32, 0xFFFFFFFF#32⟩,
    ⟨.setsch, 0x01000000#32, 0xFFFF00FF#32⟩,
    ⟨.setsnr, 0x02000000#32, 0xFFFFFFFF#32⟩,
    ⟨.rdreg, 0x03000000#32, 0xFF00FFFF#32⟩,
    ⟨.bpsq, 0x08000000#32, 0xFFFF00FF#32⟩,
    ⟨.romrd, 0x09000000#32, 0xFF0000FF#32⟩,
    ⟨.genc, 0x0A000000#32, 0xFFFF00FF#32⟩,
    ⟨.mod, 0x10000000#32, 0xFF00FFFF#32⟩,
    ⟨.det, 0x11000000#32, 0xFFFFFFFF#32⟩,
    ⟨.ham, 0x12000000#32, 0xFF0000FF#32⟩,
    ⟨.awgn, 0x18000000#32, 0xFFFFFFFF#32⟩ ]

/-- Field OPC, W[31:24] (rule R63). -/
def opcField (w : Word32) : Byte := w.extractLsb' 24 8

/-- Field FA, W[23:16] (rule R63). -/
def faField (w : Word32) : Byte := w.extractLsb' 16 8

/-- Field FB, W[15:8] (rule R63). -/
def fbField (w : Word32) : Byte := w.extractLsb' 8 8

/-- Field RSV, W[7:0] (rule R63). -/
def rsvField (w : Word32) : Byte := w.extractLsb' 0 8

/-- A row is selected by a word (rule R70). -/
def Row.selects (r : Row) (w : Word32) : Bool := (w &&& r.mask) == r.pattern

/-- The register a read-back number names (rule R23); none above 6. -/
def RegName.ofNumber (n : Byte) : Option RegName :=
  match n.toNat with
  | 0 => some .scheme
  | 1 => some .bps
  | 2 => some .ebn0
  | 3 => some .esn0
  | 4 => some .nvar
  | 5 => some .nsd
  | 6 => some .errf
  | _ => none

/-- The operands of a selected row, with the range checks of rule R72. -/
def rowOperands (op : Opcode) (fa fb : Byte) (a b : Word64) : Except IllegalCause Instr :=
  match op with
  | .nop => .ok .nop
  | .setsch => .ok (.setsch fb)
  | .setsnr => .ok (.setsnr a)
  | .rdreg =>
    match RegName.ofNumber fa with
    | some r => .ok (.rdreg r)
    | none => .error .fieldRange
  | .bpsq => .ok (.bpsq fb)
  | .romrd => .ok (.romrd fa fb)
  | .genc => .ok (.genc fb)
  | .mod => if lengthOk fa then .ok (.mod fa a) else .error .fieldRange
  | .det => .ok (.det a b)
  | .ham => if lengthOk fa && lengthOk fb then .ok (.ham fa fb a b) else .error .fieldRange
  | .awgn => .ok (.awgn a b)

/-- The decoder of rule R72. Where no row is selected, the cause is an undefined OPC or a must-be-zero field,
as rule R102 orders them; the status is ILLEGAL either way. -/
def decode (c : Command) : Except IllegalCause Instr :=
  if rsvField c.w ≠ 0#8 then .error .rsvNonzero
  else
    match opcodeMap.find? (·.selects c.w) with
    | some r => rowOperands r.op (faField c.w) (fbField c.w) c.a c.b
    | none =>
      if opcodeMap.any (fun r => opcField r.pattern == opcField c.w) then .error .mustBeZero
      else .error .opcUndefined

/-- A command word from its fields, with RSV = 0 (rule R63). -/
def wordOf (opc fa fb : Byte) : Word32 := opc ++ fa ++ fb ++ 0x00#8

/-- The read-back number of a register (rule R23). -/
def RegName.number : RegName → Byte
  | .scheme => 0x00#8
  | .bps => 0x01#8
  | .ebn0 => 0x02#8
  | .esn0 => 0x03#8
  | .nvar => 0x04#8
  | .nsd => 0x05#8
  | .errf => 0x06#8

/-- The transaction of a command (rules R63, R65, R70): "Unused fields and ignored operand words assemble
to 0" (rule R75). -/
def encode : Instr → Command
  | .nop => ⟨wordOf 0x00#8 0#8 0#8, 0#64, 0#64⟩
  | .setsch c => ⟨wordOf 0x01#8 0#8 c, 0#64, 0#64⟩
  | .setsnr x => ⟨wordOf 0x02#8 0#8 0#8, x, 0#64⟩
  | .rdreg r => ⟨wordOf 0x03#8 r.number 0#8, 0#64, 0#64⟩
  | .bpsq c => ⟨wordOf 0x08#8 0#8 c, 0#64, 0#64⟩
  | .romrd i c => ⟨wordOf 0x09#8 i c, 0#64, 0#64⟩
  | .genc c => ⟨wordOf 0x0A#8 0#8 c, 0#64, 0#64⟩
  | .mod n a => ⟨wordOf 0x10#8 n 0#8, a, 0#64⟩
  | .det i q => ⟨wordOf 0x11#8 0#8 0#8, i, q⟩
  | .ham na nb a b => ⟨wordOf 0x12#8 na nb, a, b⟩
  | .awgn i q => ⟨wordOf 0x18#8 0#8 0#8, i, q⟩

/-- The transaction whose bits are the low `nbits` of `w`, numbered as the opcode table numbers them: the 32 bits
of W first, then those of A, then those of B; every bit above is 0.
The ports are word-wide, so no byte order enters (rule R51). -/
def tableCommand (nbits w : Nat) : Command :=
  let v := w % 2 ^ nbits
  ⟨BitVec.ofNat 32 v, BitVec.ofNat 64 (v / 2 ^ 32), BitVec.ofNat 64 (v / 2 ^ 96)⟩

/-- The command the decoder reads from a table word; none where the word is illegal. -/
def decodeTableWord (nbits w : Nat) : Option Instr :=
  match decode (tableCommand nbits w) with
  | .ok i => some i
  | .error _ => none

end Sys2Proof
end

