-- ==== Sys2Proof/Machine/Float.lean ====
section
/-! DEFINITION. Binary64 arithmetic (rules R11 to R13): every operation is the exact result in integers, rounded once.
A finite value is a whole number of units of 2^-1074, so exact results are integers or quotients of integers. -/

namespace Sys2Proof.F64

/-- The magnitude bits of an infinity, 0x7FF0000000000000 (rule R11). -/
def infBits : Nat := 0x7FF0000000000000

/-- The number of units of 2^-1074 in 1.0. -/
def oneUnits : Nat := 2 ^ 1074

/-- +∞. -/
def posInf : F64 := 0x7FF0000000000000#64

/-- The NaN that an invalid operation gives: the word rule R75 writes for `nan`.
No NaN is ever computed from operands a command accepts, so no rule shows it (assumption log 4). -/
def qNaN : F64 := 0x7FF8000000000000#64

/-- 1.0 = 0x3FF0000000000000 (rule R11). -/
def one : F64 := 0x3FF0000000000000#64

/-- 2.0. -/
def two : F64 := 0x4000000000000000#64

/-- -2.0. -/
def negTwo : F64 := 0xC000000000000000#64

/-- 10.0. -/
def ten : F64 := 0x4024000000000000#64

/-- The sign bit, bit 63 (rule R11). -/
def sign (x : F64) : Bool := x.getLsbD 63

/-- The bits below the sign: biased exponent and fraction (rule R11). -/
def mag (x : F64) : Nat := x.toNat % 2 ^ 63

/-- A word from its sign and its magnitude bits. -/
def ofSignMag (s : Bool) (m : Nat) : F64 := BitVec.ofNat 64 (if s then 2 ^ 63 + m else m)

/-- x is a NaN. -/
def isNaN (x : F64) : Bool := decide (infBits < mag x)

/-- x is +∞ or −∞. -/
def isInf (x : F64) : Bool := decide (mag x = infBits)

/-- "isFinite(x) is true when x is neither an infinity nor a NaN" (rule R12). -/
def isFinite (x : F64) : Bool := decide (mag x < infBits)

/-- x is +0 or −0. -/
def isZero (x : F64) : Bool := decide (mag x = 0)

/-- The magnitude of a finite value in units of 2^-1074: a subnormal is its fraction, a normal value carries the
hidden bit and is scaled by its exponent (rule R11). -/
def units (x : F64) : Nat :=
  let e := mag x / 2 ^ 52
  let f := mag x % 2 ^ 52
  if e = 0 then f else (2 ^ 52 + f) * 2 ^ (e - 1)

/-- A finite value in units of 2^-1074, with its sign. -/
def value (x : F64) : Int := if sign x then -(units x : Int) else (units x : Int)

/-- The magnitude bits of n/d units of 2^-1074, rounded to nearest, ties to even; infinite past the largest finite
value (rules R12, R13).
With the quotient kept to 53 bits (fewer when it is subnormal), adding it to its exponent times 2^52 gives the bits:
the hidden bit and a carry out of the fraction both land in the exponent field. -/
def roundUnits (n d : Nat) : Nat :=
  let e := (n / d).log2 - 52
  let step := d * 2 ^ e
  let q := n / step
  let r := n % step
  let q' := if step < 2 * r ∨ (2 * r = step ∧ q % 2 = 1) then q + 1 else q
  min (e * 2 ^ 52 + q') infBits

/-- RNE of the exact rational num/den, den > 0 (rule R13). RNE of exact 0 is +0, as rules R40 and R44 have it. -/
def rne (num : Int) (den : Nat) : F64 :=
  ofSignMag (decide (num < 0)) (roundUnits (num.natAbs * oneUnits) den)

/-- A natural number as a binary64 value, `f64(k)` of rule R26; exact up to 2^53. -/
def ofNat (k : Nat) : F64 := rne k 1

/-- The value with the other sign. -/
def neg (x : F64) : F64 := ofSignMag (!sign x) (mag x)

/-- a ⊕ b (rule R12). An exact zero sum is +0, unless both operands are zeros of negative sign. -/
def add (a b : F64) : F64 :=
  if isNaN a || isNaN b then qNaN
  else if isInf a then (if isInf b && (sign a != sign b) then qNaN else a)
  else if isInf b then b
  else
    let t := value a + value b
    if t = 0 then ofSignMag (sign a && sign b) 0
    else ofSignMag (decide (t < 0)) (roundUnits t.natAbs 1)

/-- a ⊖ b (rule R12). -/
def sub (a b : F64) : F64 := if isNaN b then qNaN else add a (neg b)

/-- a ⊗ b (rule R12). -/
def mul (a b : F64) : F64 :=
  let s := sign a != sign b
  if isNaN a || isNaN b then qNaN
  else if isInf a || isInf b then (if isZero a || isZero b then qNaN else ofSignMag s infBits)
  else ofSignMag s (roundUnits (units a * units b) oneUnits)

/-- a ⊘ b (rule R12): a finite non-zero value over a zero is an infinity. -/
def div (a b : F64) : F64 :=
  let s := sign a != sign b
  if isNaN a || isNaN b then qNaN
  else if isInf a then (if isInf b then qNaN else ofSignMag s infBits)
  else if isInf b then ofSignMag s 0
  else if isZero b then (if isZero a then qNaN else ofSignMag s infBits)
  else ofSignMag s (roundUnits (units a * oneUnits) (units b))

/-- The floor of the square root of m, one bit at a time from bit i - 1 down, above the bits r already found. -/
def isqrtFrom : Nat → Nat → Nat → Nat
  | 0, _, r => r
  | i + 1, m, r =>
    if (r + 2 ^ i) * (r + 2 ^ i) ≤ m then isqrtFrom i m (r + 2 ^ i) else isqrtFrom i m r

/-- The floor of the square root of m. -/
def isqrt (m : Nat) : Nat := isqrtFrom (m.log2 / 2 + 1) m 0

/-- The magnitude bits of the square root of m, in units of 2^-1074, rounded to nearest, ties to even (rule R12):
the root is compared with the halfway point exactly, by squares. -/
def roundRoot (m : Nat) : Nat :=
  let k := isqrt m
  let e := k.log2 - 52
  let q := k / 2 ^ e
  let half := (2 * q + 1) * 2 ^ e
  let q' := if half * half < 4 * m ∨ (half * half = 4 * m ∧ q % 2 = 1) then q + 1 else q
  e * 2 ^ 52 + q'

/-- SQRT(a) (rule R12): of ±0 it is a itself, of a negative value it is invalid. -/
def sqrt (a : F64) : F64 :=
  if isNaN a then qNaN
  else if isZero a then a
  else if sign a then qNaN
  else if isInf a then a
  else ofSignMag false (roundRoot (units a * oneUnits))

/-- An integer that orders the values that are not NaN: the magnitude bits with the sign. -/
def key (x : F64) : Int := if sign x then -(mag x : Int) else (mag x : Int)

/-- "The comparison a < b is the IEEE ordered less-than: false when either operand is NaN" (rule R12). -/
def lt (a b : F64) : Bool := !isNaN a && !isNaN b && decide (key a < key b)

/-- IEEE equality: false when either operand is NaN, and −0 equals +0. -/
def eq (a b : F64) : Bool := !isNaN a && !isNaN b && decide (key a = key b)

/-- a ≤ b, the IEEE ordered comparison. -/
def le (a b : F64) : Bool := lt a b || eq a b

end Sys2Proof.F64
end

