-- ==== Sys2Proof/Machine/Elementary.lean ====
section
/-! DEFINITION. The reference definitions of EXP10, LN, COS and SIN (rule R14): RNE of the exact real function.
Each is computed from an interval of integers that encloses the exact value at a working precision of p bits.
Where both ends of the interval round to one word, that word is RNE of the exact value; otherwise p is raised.
No rule gives these algorithms; only the value they enclose is the spec's (assumption log 3). -/

namespace Sys2Proof.Machine

/-- A non-negative real v enclosed at p bits: lo ≤ v · 2^p ≤ hi. -/
structure Ivl where
  lo : Nat
  hi : Nat
deriving DecidableEq, Repr

/-- A real v enclosed by two rationals: lo / den ≤ v ≤ hi / den. -/
structure Enclosure where
  lo : Int
  hi : Int
  den : Nat
deriving DecidableEq, Repr

/-- The terms of a power series summed by the residue of their position modulo 4. -/
structure Quad where
  s0 : Ivl
  s1 : Ivl
  s2 : Ivl
  s3 : Ivl
deriving DecidableEq, Repr

/-- Exactly 1. -/
def ivlOne (p : Nat) : Ivl := ⟨2 ^ p, 2 ^ p⟩

/-- The rational n / d. -/
def ivlRat (p n d : Nat) : Ivl := ⟨n * 2 ^ p / d, n * 2 ^ p / d + 1⟩

/-- The sum. -/
def ivlAdd (a b : Ivl) : Ivl := ⟨a.lo + b.lo, a.hi + b.hi⟩

/-- The difference of a value and a smaller one. -/
def ivlSub (a b : Ivl) : Ivl := ⟨a.lo - b.hi, a.hi - b.lo⟩

/-- The product, rounded outwards. -/
def ivlMul (p : Nat) (a b : Ivl) : Ivl := ⟨a.lo * b.lo / 2 ^ p, a.hi * b.hi / 2 ^ p + 1⟩

/-- A whole multiple. -/
def ivlScale (k : Nat) (a : Ivl) : Ivl := ⟨k * a.lo, k * a.hi⟩

/-- The quotient by a whole number, rounded outwards. -/
def ivlDivNat (a : Ivl) (k : Nat) : Ivl := ⟨a.lo / k, a.hi / k + 1⟩

/-- A bound on what follows a term q of a series whose next terms at least halve: between 0 and 2q. -/
def ivlTail (q : Ivl) : Ivl := ⟨0, 2 * q.hi⟩

/-- n terms q, q·t/k, q·t²/(k(k+1)), ... of the exponential series in t and a bound on the rest. -/
def expSeries (p : Nat) (t : Ivl) : Nat → Nat → Ivl → Quad
  | 0, _, q => ⟨ivlTail q, ivlTail q, ivlTail q, ivlTail q⟩
  | n + 1, k, q =>
    let r := expSeries p t n (k + 1) (ivlDivNat (ivlMul p q t) k)
    ⟨ivlAdd q r.s3, r.s0, r.s1, r.s2⟩

/-- The exponential series in t; enough terms for t < 8. -/
def expQuad (p : Nat) (t : Ivl) : Quad := expSeries p t (p / 2) 1 (ivlOne p)

/-- n terms q/k, q·t²/(k+2), q·t⁴/(k+4), ... summed by the parity of their position (s0 and s1), and a bound on the
rest; t2 encloses t². -/
def oddSeries (p : Nat) (t2 : Ivl) : Nat → Nat → Ivl → Quad
  | 0, _, q => ⟨ivlTail q, ivlTail q, ivlTail q, ivlTail q⟩
  | n + 1, k, q =>
    let r := oddSeries p t2 n (k + 2) (ivlMul p q t2)
    ⟨ivlAdd (ivlDivNat q k) r.s1, r.s0, r.s3, r.s2⟩

/-- The series t + t³/3 + t⁵/5 + ... of t = n / d, split by parity; enough terms for t ≤ 1/3. -/
def oddQuad (p n d : Nat) : Quad :=
  let t := ivlRat p n d
  oddSeries p (ivlMul p t t) (p / 3 + 8) 1 t

/-- artanh(n / d). -/
def artanhIvl (p n d : Nat) : Ivl :=
  let r := oddQuad p n d
  ivlAdd r.s0 r.s1

/-- arctan(n / d). -/
def arctanIvl (p n d : Nat) : Ivl :=
  let r := oddQuad p n d
  ivlSub r.s0 r.s1

/-- ln 2 = 2 artanh(1/3). -/
def ln2Ivl (p : Nat) : Ivl := ivlScale 2 (artanhIvl p 1 3)

/-- ln 10 = 3 ln 2 + ln(5/4) = 6 artanh(1/3) + 2 artanh(1/9). -/
def ln10Ivl (p : Nat) : Ivl := ivlAdd (ivlScale 6 (artanhIvl p 1 3)) (ivlScale 2 (artanhIvl p 1 9))

/-- 2π = 32 arctan(1/5) − 8 arctan(1/239). -/
def twoPiIvl (p : Nat) : Ivl := ivlSub (ivlScale 32 (arctanIvl p 1 5)) (ivlScale 8 (arctanIvl p 1 239))

/-- 10^f for the fraction f = frac · 2^-1074 < 1. -/
def pow10FracIvl (p frac : Nat) : Ivl :=
  if frac = 0 then ivlOne p
  else
    let l := ln10Ivl p
    let r := expQuad p ⟨l.lo * frac / F64.oneUnits, l.hi * frac / F64.oneUnits + 1⟩
    ivlAdd (ivlAdd r.s0 r.s1) (ivlAdd r.s2 r.s3)

/-- 10^x for x = v · 2^-1074: the whole part of x gives an exact power of ten. -/
def exp10Enclosure (v : Int) (p : Nat) : Enclosure :=
  let n := v / (F64.oneUnits : Int)
  let e := pow10FracIvl p (v % (F64.oneUnits : Int)).toNat
  if 0 ≤ n then ⟨(e.lo * 10 ^ n.toNat : Nat), (e.hi * 10 ^ n.toNat : Nat), 2 ^ p⟩
  else ⟨e.lo, e.hi, 2 ^ p * 10 ^ (-n).toNat⟩

/-- ln x for x = u · 2^-1074 in (0, 1): x = m · 2^-j with m in [1, 2), and ln m = 2 artanh((m − 1)/(m + 1)).
The lower end is never below −745, as rule R14 bounds the exact value. -/
def lnEnclosure (u p : Nat) : Enclosure :=
  let j := 1074 - u.log2
  let w := u * 2 ^ j
  let m := ivlScale 2 (artanhIvl p (w - F64.oneUnits) (w + F64.oneUnits))
  let r := ivlSub (ivlScale j (ln2Ivl p)) m
  ⟨-((min r.hi (745 * 2 ^ p) : Nat) : Int), -((min r.lo (745 * 2 ^ p) : Nat) : Int), 2 ^ p⟩

/-- An angle in [0, 8) that differs from x = u · 2^-1074 by a whole number of turns. -/
def angleIvl (u p : Nat) : Ivl :=
  if u < 8 * F64.oneUnits then ivlRat p u F64.oneUnits
  else
    let g := u.log2 - 1066
    let x := u * 2 ^ (p + g) / F64.oneUnits
    let turn := twoPiIvl (p + g)
    let q := x / turn.hi
    ⟨(x - q * turn.hi) / 2 ^ g, (x + 1 - q * turn.lo) / 2 ^ g + 1⟩

/-- A difference that lies in [−1, 1]: "the result lies in [−1, 1]" (rule R14). -/
def unitEnclosure (p : Nat) (a b : Ivl) : Enclosure :=
  let clamp (z : Int) : Int := max (-(2 ^ p : Int)) (min (2 ^ p : Int) z)
  ⟨clamp ((a.lo : Int) - b.hi), clamp ((a.hi : Int) - b.lo), 2 ^ p⟩

/-- All that is known of a cosine or a sine beforehand: it lies in [−1, 1]. -/
def anyUnitEnclosure (p : Nat) : Enclosure := ⟨-(2 ^ p : Int), (2 ^ p : Int), 2 ^ p⟩

/-- cos x for x = u · 2^-1074. -/
def cosEnclosure (u p : Nat) : Enclosure :=
  let t := angleIvl u p
  let r := expQuad p t
  if t.hi ≤ 8 * 2 ^ p then unitEnclosure p r.s0 r.s2 else anyUnitEnclosure p

/-- sin x for x = u · 2^-1074. -/
def sinEnclosure (u p : Nat) : Enclosure :=
  let t := angleIvl u p
  let r := expQuad p t
  if t.hi ≤ 8 * 2 ^ p then unitEnclosure p r.s1 r.s3 else anyUnitEnclosure p

/-- The word both ends of the enclosure round to, if they agree. -/
def Enclosure.settled (e : Enclosure) : Option F64 :=
  let x := F64.rne e.lo e.den
  if F64.rne e.hi e.den = x then some x else none

/-- The first settled word, raising the precision from p through the list.
Where none settles, the lower end at the last precision (assumption log 3). -/
def settle (f : Nat → Enclosure) (p : Nat) : List Nat → F64
  | [] => F64.rne (f p).lo (f p).den
  | p' :: ps =>
    match (f p).settled with
    | some x => x
    | none => settle f p' ps

/-- The working precisions, in bits. -/
def correctlyRounded (f : Nat → Enclosure) : F64 := settle f 192 [384, 768, 1536]

/-- EXP10(x) = RNE(10^x), with EXP10(+∞) = +∞ and EXP10(−∞) = +0 (rule R14).
From |x| ≥ 400 on, 10^x is far past the largest finite value or below half the least positive one. -/
def exp10 (x : F64) : F64 :=
  if F64.isNaN x then F64.qNaN
  else if F64.isInf x then (if F64.sign x then 0#64 else F64.posInf)
  else
    let v := F64.value x
    if 400 * (F64.oneUnits : Int) ≤ v then F64.posInf
    else if v ≤ -(400 * (F64.oneUnits : Int)) then 0#64
    else correctlyRounded (exp10Enclosure v)

/-- LN(x) = RNE(ln x), "defined on every binary64 x with 0 < x < 1" (rule R14).
Outside that interval no operation asks for it, and it answers a NaN (assumption log 4). -/
def ln (x : F64) : F64 :=
  if F64.sign x || F64.isZero x || !F64.lt x F64.one then F64.qNaN
  else correctlyRounded (lnEnclosure (F64.units x))

/-- COS(x) = RNE(cos x), "defined on every finite x" (rule R14). -/
def cos (x : F64) : F64 :=
  if !F64.isFinite x then F64.qNaN
  else if F64.isZero x then F64.one
  else correctlyRounded (cosEnclosure (F64.units x))

/-- SIN(x) = RNE(sin x), "defined on every finite x" (rule R14); of either zero it is +0 (assumption log 5). -/
def sin (x : F64) : F64 :=
  if !F64.isFinite x then F64.qNaN
  else if F64.isZero x then 0#64
  else
    let y := correctlyRounded (sinEnclosure (F64.units x))
    if F64.sign x then F64.neg y else y

/-- The reference functions of rule R14, which the machine runs with. -/
def referenceMath : Config.MathLib := ⟨exp10, ln, cos, sin⟩

end Sys2Proof.Machine
end

