-- ==== Sys2Proof/Machine/State.lean ====
section
/-! DEFINITION. The state of QMOD as plain data, its state after reset, and the reasons a step can stop. -/

namespace Sys2Proof.Machine

/-- The five modulation schemes. "No other scheme exists in QMOD" (rule R3), and "SCHEME never holds 5, 6 or 7"
(rule R24), so the register is one of five names; its 3-bit code is `schemeCode`. -/
inductive Scheme where
  | bpsk
  | qpsk
  | psk8
  | qam16
  | qam64
deriving DecidableEq, Repr

/-- The status of a command (rule R98). "Codes 0x4 to 0xF are never produced." -/
inductive Status where
  | ok
  | illegal
  | invalidArgument
  | invalidState
deriving DecidableEq, Repr

/-- One beat of the response channel: rsp_hdr, rsp_x, rsp_y and rsp_l (rule R33). -/
structure Beat where
  hdr : Bool
  x : Word64
  y : Word64
  l : Byte
deriving DecidableEq, Repr

/-- One draw of the noise source: drw_u1 and drw_u2 (rule R34). -/
structure Draw where
  u1 : F64
  u2 : F64
deriving DecidableEq, Repr

/-- The phase (rule R29), with what each phase holds. -/
inductive Phase where
  /-- Ready for a command. -/
  | idle
  /-- Performing the accepted command c. -/
  | exec (c : Command)
  /-- An AWGN command that passed its checks waits for a draw; it holds its sample (rules R92, R96). -/
  | waitDraw (i q : F64)
  /-- Delivering a response: the beat offered, and the beats still to be offered after it (rule R33). -/
  | resp (offered : Beat) (rest : List Beat)
deriving DecidableEq, Repr

/-- The state of QMOD.
The first eight fields are the spec's registers and phase (rules R23, R29).
The others are the model's: what the agents outside the block do to its ports (rule R18), oldest first, and the
platform's parameter `U1_FLOOR` (rule R7). -/
structure State where
  /-- SCHEME, register 0x00. -/
  scheme : Scheme
  /-- BPS, register 0x01, 3 bits. -/
  bps : BitVec 3
  /-- EBN0, register 0x02. -/
  ebn0 : F64
  /-- ESN0, register 0x03. -/
  esn0 : F64
  /-- NVAR, register 0x04. -/
  nvar : F64
  /-- NSD, register 0x05. -/
  nsd : F64
  /-- ERRF, register 0x06, 3 bits: ILL, ARG, STATE (rule R28). -/
  errf : BitVec 3
  /-- The phase. -/
  phase : Phase
  /-- How many of the next rising edges sample `rst` as 1 (rule R31). -/
  rstEdges : Nat
  /-- The commands the host offers on the command channel (rule R32). -/
  cmdIn : List Command
  /-- How many more beats the host takes; at 0 it holds `rsp_ready` at 0 (rule R35). -/
  rspTakes : Nat
  /-- The draws NOISE_SRC delivers (rules R34, R92). -/
  drawIn : List Draw
  /-- `U1_FLOOR`, with 0 < U1_FLOOR < 1 (rule R7). -/
  u1Floor : F64
deriving DecidableEq, Repr

/-- The reasons the machine stops with a fault. -/
inductive Fault where
  /-- AWGN took a draw outside the contract of rule R92: "A model must treat such a draw as a fault" (rule R93).
  Safe: the block goes on with an unspecified result, and the model claims nothing of it. -/
  | drawOutOfContract
deriving DecidableEq, Repr

/-- The reasons a step has no meaning. -/
inductive Refusal where
  /-- An instruction of the opcode table without a meaning yet, by its mnemonic.
  Safe: nothing is claimed of it. No arm of `exec` raises it now. -/
  | notModelled (mnemonic : String)
deriving DecidableEq, Repr

/-- The state right after reset: the registers of rule R23, phase IDLE (rule R36), `rst` released.
No agent has offered anything yet, and `U1_FLOOR` is the 2^-53 of rule R94 (assumption logs 1 and 2). -/
def State.reset : State where
  scheme := .bpsk
  bps := 1#3
  ebn0 := 0x7FF0000000000000#64
  esn0 := 0x7FF0000000000000#64
  nvar := 0x0000000000000000#64
  nsd := 0x0000000000000000#64
  errf := 0#3
  phase := .idle
  rstEdges := 0
  cmdIn := []
  rspTakes := 0
  drawIn := []
  u1Floor := 0x3CA0000000000000#64

end Sys2Proof.Machine
end

