-- ==== Sys2Proof/Machine/Flags.lean ====
section
/-! DEFINITION. The status codes of rule R98 and the sticky error flags of rule R28. -/

namespace Sys2Proof.Machine

/-- The status code, 4 bits (rule R98). -/
def statusCode : Status → BitVec 4
  | .ok => 0x0#4
  | .illegal => 0x1#4
  | .invalidArgument => 0x2#4
  | .invalidState => 0x3#4

/-- The ERRF bit of a status, "none" for OK: bit 0 ILL, bit 1 ARG, bit 2 STATE (rules R28, R98). -/
def errfBit : Status → BitVec 3
  | .ok => 0b000#3
  | .illegal => 0b001#3
  | .invalidArgument => 0b010#3
  | .invalidState => 0b100#3

/-- ERRF after a command that ends with status st: it "sets the one flag of that status and leaves the others as they
were" (rule R28). -/
def setErrf (st : Status) (errf : BitVec 3) : BitVec 3 := errf ||| errfBit st

end Sys2Proof.Machine
end

