-- ==== Sys2Proof/Machine/Rom.lean ====
section
/-! DEFINITION. The three read-only address spaces of rule R37: the constellation ROM, the bit-width table and the
ESOFF table, with the lookup table of rule R50. They are constants: "No command, reset or draw changes them"
(rule R30). -/

namespace Sys2Proof.Machine

/-- An entry of the constellation ROM: the two coordinates, and the label as an integer (rules R10, R37). -/
structure RomEntry where
  i : F64
  q : F64
  label : Nat
deriving DecidableEq, Repr

/-- A position of a QAM axis: its coordinate and its axis Gray code. -/
structure AxisLevel where
  coord : F64
  code : Nat
deriving DecidableEq, Repr

/-- The code of a scheme (rule R24). -/
def schemeCode : Scheme → BitVec 3
  | .bpsk => 0#3
  | .qpsk => 1#3
  | .psk8 => 2#3
  | .qam16 => 3#3
  | .qam64 => 4#3

/-- The scheme a code names, "0..4 valid, else INVALID_ARGUMENT" (rules R24, R65). -/
def schemeOfCode (c : Byte) : Option Scheme :=
  match c.toNat with
  | 0 => some .bpsk
  | 1 => some .qpsk
  | 2 => some .psk8
  | 3 => some .qam16
  | 4 => some .qam64
  | _ => none

/-- BpsRead(s), the bit-width table (rules R24, R39). -/
def bpsRead : Scheme → BitVec 3
  | .bpsk => 1#3
  | .qpsk => 2#3
  | .psk8 => 3#3
  | .qam16 => 4#3
  | .qam64 => 6#3

/-- M(s) = 2^k (rule R24). -/
def alphabetSize (s : Scheme) : Nat := 2 ^ (bpsRead s).toNat

/-- ESOFF(k), the Es/N0 offset table "addressed by k in {1, 2, 3, 4, 6}" (rules R37, R40). -/
def esOff : Scheme → F64
  | .bpsk => 0x0000000000000000#64
  | .qpsk => 0x4008151824C7587F#64
  | .psk8 => 0x401315B8BDF1E5BE#64
  | .qam16 => 0x4018151824C7587F#64
  | .qam64 => 0x401F2044D05591FD#64

/-- RNE(1/√2) (rule R46). -/
def invSqrt2 : F64 := 0x3FE6A09E667F3BCD#64

/-- −RNE(1/√2) (rule R46). -/
def negInvSqrt2 : F64 := 0xBFE6A09E667F3BCD#64

/-- The levels of a 16-QAM axis, LV16[p] / √10 with axis code G2[p] (rules R41, R48). -/
def axis16 : List AxisLevel :=
  [ ⟨0xBFEE5B9D136C6D96#64, 0⟩, ⟨0xBFD43D136248490F#64, 1⟩,
    ⟨0x3FD43D136248490F#64, 3⟩, ⟨0x3FEE5B9D136C6D96#64, 2⟩ ]

/-- The levels of a 64-QAM axis, LV64[p] / √42 with axis code G3[p] (rules R41, R49). -/
def axis64 : List AxisLevel :=
  [ ⟨0xBFF1482F86C40C43#64, 0⟩, ⟨0xBFE8B043E5181184#64, 1⟩,
    ⟨0xBFDDA05179501504#64, 3⟩, ⟨0xBFC3C03650E00E03#64, 2⟩,
    ⟨0x3FC3C03650E00E03#64, 6⟩, ⟨0x3FDDA05179501504#64, 7⟩,
    ⟨0x3FE8B043E5181184#64, 5⟩, ⟨0x3FF1482F86C40C43#64, 4⟩ ]

/-- A QAM table from its axis: I position major, Q position minor; the label is the I code followed by the Q code of
w bits (rules R48, R49). -/
def qamTable (axis : List AxisLevel) (w : Nat) : List RomEntry :=
  axis.flatMap fun a => axis.map fun b => ⟨a.coord, b.coord, a.code * 2 ^ w + b.code⟩

/-- The table of each scheme in generation order (rules R43 to R49). -/
def romTable : Scheme → List RomEntry
  | .bpsk => [⟨0x3FF0000000000000#64, 0#64, 0⟩, ⟨0xBFF0000000000000#64, 0#64, 1⟩]
  | .qpsk =>
    [⟨invSqrt2, invSqrt2, 0⟩, ⟨negInvSqrt2, invSqrt2, 1⟩,
     ⟨negInvSqrt2, negInvSqrt2, 3⟩, ⟨invSqrt2, negInvSqrt2, 2⟩]
  | .psk8 =>
    [⟨0x3FF0000000000000#64, 0#64, 0⟩, ⟨invSqrt2, invSqrt2, 1⟩,
     ⟨0#64, 0x3FF0000000000000#64, 3⟩, ⟨negInvSqrt2, invSqrt2, 2⟩,
     ⟨0xBFF0000000000000#64, 0#64, 6⟩, ⟨negInvSqrt2, negInvSqrt2, 7⟩,
     ⟨0#64, 0xBFF0000000000000#64, 5⟩, ⟨invSqrt2, negInvSqrt2, 4⟩]
  | .qam16 => qamTable axis16 2
  | .qam64 => qamTable axis64 3

/-- RomRead(s, i), "defined only for s in 0..4 and i < M(s)" (rule R38). -/
def romRead (s : Scheme) (i : Nat) : Option RomEntry := (romTable s)[i]?

/-- BASE(s) of the flat layout, [0, 2, 6, 14, 30] (rule R54). -/
def romBase : Scheme → Nat
  | .bpsk => 0
  | .qpsk => 2
  | .psk8 => 6
  | .qam16 => 14
  | .qam64 => 30

/-- The flat layout of the constellation ROM, "given for an implementer"; no command names a flat address (rule R54). -/
def flatRom : List RomEntry :=
  romTable .bpsk ++ romTable .qpsk ++ romTable .psk8 ++ romTable .qam16 ++ romTable .qam64

/-- LutIndex(s, v), "the i with RomRead(s, i).label = v" (rule R50). -/
def lutIndex (s : Scheme) (v : Nat) : Option Nat := (romTable s).findIdx? (fun e => e.label == v)

end Sys2Proof.Machine
end

