-- ==== Sys2Proof/Machine/Operands.lean ====
section
/-! DEFINITION. The operand forms: bit strings, scheme codes and complex samples (rules R9, R16, R66 to R68). -/

namespace Sys2Proof.Machine

/-- A complex sample, "a pair (I, Q) of binary64 values" (rule R16). -/
structure Sample where
  i : F64
  q : F64
deriving DecidableEq, Repr

/-- A bit-string operand of length n has a 1 in w[63:n]; "for n = 64 there are no such bits" (rule R67). -/
def strayBits (n : Nat) (w : Word64) : Bool := decide (n < 64) && (w >>> n != 0#64)

/-- Group j of k bits of the string of length n in w: "(A >> (n - (j+1)·k)) & (2^k - 1)" (rules R9, R87). -/
def bitGroup (n k : Nat) (w : Word64) (j : Nat) : Nat := (w.toNat >>> (n - (j + 1) * k)) % 2 ^ k

/-- The whole groups of k bits of the string, in string order; the trailing bits that fill no group are dropped
(rule R87). -/
def bitGroups (n k : Nat) (w : Word64) : List Nat := (List.range (n / k)).map (bitGroup n k w)

/-- The number of 1 bits among the low n bits of w. -/
def popcountBelow (w : Word64) : Nat → Nat
  | 0 => 0
  | n + 1 => popcountBelow w n + (w.getLsbD n).toNat

/-- popcount(w) (rule R15). -/
def popcount (w : Word64) : Nat := popcountBelow w 64

/-- Both coordinates are finite, I checked before Q (rules R89, R96, R102). -/
def Sample.isFinite (r : Sample) : Bool := F64.isFinite r.i && F64.isFinite r.q

/-- D2(r, p), the squared Euclidean distance, evaluated in the order of rule R16. -/
def dist2 (r : Sample) (p : RomEntry) : F64 :=
  F64.add (F64.mul (F64.sub r.i p.i) (F64.sub r.i p.i)) (F64.mul (F64.sub r.q p.q) (F64.sub r.q p.q))

/-- The sum of complex samples (rule R16). -/
def Sample.add (a b : Sample) : Sample := ⟨F64.add a.i b.i, F64.add a.q b.q⟩

/-- A draw meets the contract: "0 ≤ u < 1 (not NaN, not negative, not 1 or more)" for u1 and u2 (rule R92). -/
def uniformOk (u : F64) : Bool := F64.le 0#64 u && F64.lt u F64.one

/-- Both uniforms of a draw meet the contract of rule R92. -/
def Draw.ok (d : Draw) : Bool := uniformOk d.u1 && uniformOk d.u2

end Sys2Proof.Machine
end

