-- ==== Sys2Proof/Machine/Ops.lean ====
section
/-! DEFINITION. The shared operations: reading and writing registers, ending a command with a response or an error
status, the ports, accepting a command, delivering a beat, and reset. -/

namespace Sys2Proof.Machine

/-! ### The derived registers -/

/-- The four derived registers (rule R26). -/
structure Derived where
  bps : BitVec 3
  esn0 : F64
  nvar : F64
  nsd : F64
deriving DecidableEq, Repr

/-- dbToLinear(x) = EXP10(x ⊘ 10) (rule R17). -/
def dbToLinear (m : Config.MathLib) (x : F64) : F64 := m.exp10 (F64.div x F64.ten)

/-- Derive(e, s) (rule R26). -/
def derive (m : Config.MathLib) (e : F64) (s : Scheme) : Derived :=
  let k := bpsRead s
  let lin := dbToLinear m e
  let es := F64.mul lin (F64.ofNat k.toNat)
  let nvar := F64.div F64.one es
  { bps := k
    esn0 := F64.add e (esOff s)
    nvar := nvar
    nsd := F64.sqrt (F64.div nvar F64.two) }

/-- Writing SCHEME and EBN0 recomputes the four derived registers "in the same command" (rule R26). -/
def State.configure (s : State) (scheme : Scheme) (ebn0 : F64) : State :=
  let d := derive referenceMath ebn0 scheme
  { s with scheme := scheme, bps := d.bps, ebn0 := ebn0, esn0 := d.esn0, nvar := d.nvar, nsd := d.nsd }

/-- The value RDREG gives for a register: zero-extended, or the binary64 word (rule R83). -/
def State.readReg (s : State) : RegName → Word64
  | .scheme => (schemeCode s.scheme).setWidth 64
  | .bps => s.bps.setWidth 64
  | .ebn0 => s.ebn0
  | .esn0 => s.esn0
  | .nvar => s.nvar
  | .nsd => s.nsd
  | .errf => s.errf.setWidth 64

/-! ### Ending a command -/

/-- The header beat: the beat count in rsp_x and the status code in rsp_l (rules R33, R73). -/
def headerBeat (st : Status) (count : Nat) : Beat :=
  ⟨true, BitVec.ofNat 64 count, 0#64, (statusCode st).setWidth 8⟩

/-- A data beat (X, Y, L) (rules R33, R73). -/
def dataBeat (x y : Word64) (l : Byte) : Beat := ⟨false, x, y, l⟩

/-- The beat of a ROM entry: its coordinates and its label (rule R74). -/
def entryBeat (e : RomEntry) : Beat := dataBeat e.i e.q (BitVec.ofNat 8 e.label)

/-- respond(OK, beats): the response is the header beat and the data beats in order (rule R73). -/
def State.respond (s : State) (beats : List Beat) : State :=
  { s with phase := .resp (headerBeat .ok beats.length) beats }

/-- raise st: QMOD's only form of exception. "writes no register other than ERRF, in which it sets the one bit of its
status; takes no draw; produces a response of one header beat with its status and a beat count of 0" (rule R101).
There is no handler to enter and nothing to return from (rule R104). -/
def State.raise (s : State) (st : Status) : State :=
  { s with errf := setErrf st s.errf, phase := .resp (headerBeat st 0) [] }

/-! ### The ports -/

/-- `cmd_ready` "is 1 exactly in phase IDLE and not in reset" (rule R32). -/
def State.cmdReady (s : State) : Bool := decide (s.rstEdges = 0 ∧ s.phase = .idle)

/-- `drw_ready`: "QMOD is in phase WAIT_DRAW and takes one" (rules R34, R114). -/
def State.drwReady (s : State) : Bool :=
  match s.phase with
  | .waitDraw _ _ => decide (s.rstEdges = 0)
  | _ => false

/-- The beat offered on the response channel: `rsp_valid` is 1 exactly where there is one (rules R33, R114). -/
def State.rspBeat (s : State) : Option Beat :=
  match s.phase with
  | .resp b _ => if s.rstEdges = 0 then some b else none
  | _ => none

/-! ### Transfers and reset -/

/-- The host's oldest offered command is accepted (rule R32). -/
def State.accept (s : State) (c : Command) (rest : List Command) : State :=
  { s with phase := .exec c, cmdIn := rest }

/-- The phase once the offered beat is transferred: the next beat is offered, or the block is ready again (rule R33). -/
def afterBeat : List Beat → Phase
  | [] => .idle
  | b :: rest => .resp b rest

/-- The response channel in phase RESP: the host takes the offered beat, or the block waits with it (rules R33, R35). -/
def State.deliver (s : State) (rest : List Beat) : State :=
  match s.rspTakes with
  | 0 => s
  | n + 1 => { s with phase := afterBeat rest, rspTakes := n }

/-- A rising edge with `rst` at 1: every register takes its reset value and the command in progress is abandoned
(rule R114). The agents outside are not reset, the noise source among them (rule R118). -/
def State.resetEdge (s : State) : State :=
  { State.reset with
    rstEdges := s.rstEdges - 1
    cmdIn := s.cmdIn
    rspTakes := s.rspTakes
    drawIn := s.drawIn
    u1Floor := s.u1Floor }

end Sys2Proof.Machine
end

