-- ==== Sys2Proof/Machine/Channel.lean ====
section
/-! DEFINITION. The Gaussian sampler and the channel command AWGN (rules R92 to R97). -/

namespace Sys2Proof.Machine

/-- TWO_PI = RNE(2π) = 0x401921FB54442D18 (rule R94). -/
def twoPi : F64 := 0x401921FB54442D18#64

/-- v1: "if u1 < U1_FLOOR then U1_FLOOR else u1" (rule R94). -/
def flooredU1 (u1Floor u1 : F64) : F64 := if F64.lt u1 u1Floor then u1Floor else u1

/-- rad = SQRT((−2.0) ⊗ LN(v1)) (rule R94). -/
def radius (m : Config.MathLib) (v1 : F64) : F64 := F64.sqrt (F64.mul F64.negTwo (m.ln v1))

/-- BoxMuller(u1, u2): the cosine term on I, the sine term on Q (rule R94). -/
def boxMuller (m : Config.MathLib) (u1Floor : F64) (d : Draw) : Sample :=
  let rad := radius m (flooredU1 u1Floor d.u1)
  let th := F64.mul twoPi d.u2
  ⟨F64.mul rad (m.cos th), F64.mul rad (m.sin th)⟩

/-- The output sample: the input itself, bit for bit, when NSD = 0; else the input plus NSD times the two normal
values (rule R96). -/
def noisySample (m : Config.MathLib) (u1Floor nsd : F64) (d : Draw) (r : Sample) : Sample :=
  let z := boxMuller m u1Floor d
  if F64.isZero nsd then r else r.add ⟨F64.mul nsd z.i, F64.mul nsd z.q⟩

/-- AWGN (rule R96).
Where the noise source has a draw, the command takes that one draw; a draw outside the contract is a fault (rule R93).
Where it has none, the command waits in WAIT_DRAW and nothing else changes (rules R92, R113). -/
def execAwgn (i q : F64) (s : State) : Host.Outcome State Fault Refusal :=
  let r : Sample := ⟨i, q⟩
  if r.isFinite then
    match s.drawIn with
    | [] => .next { s with phase := .waitDraw i q }
    | d :: ds =>
      if d.ok then
        let out := noisySample referenceMath s.u1Floor s.nsd d r
        .next ({ s with drawIn := ds }.respond [dataBeat out.i out.q 0#8])
      else .fault .drawOutOfContract
  else .next (s.raise .invalidArgument)

end Sys2Proof.Machine
end

