-- ==== Sys2Proof/Machine/Constellation.lean ====
section
/-! DEFINITION. The constellation generator commands BPSQ, ROMRD and GENC (rules R84 to R86). -/

namespace Sys2Proof.Machine

/-- BPSQ (rule R84): one beat (k, 2^k, 0). -/
def execBpsq (c : Byte) (s : State) : Host.Outcome State Fault Refusal :=
  .next (match schemeOfCode c with
    | none => s.raise .invalidArgument
    | some sch =>
      s.respond [dataBeat ((bpsRead sch).setWidth 64) (BitVec.ofNat 64 (alphabetSize sch)) 0#8])

/-- ROMRD (rule R85): the scheme check comes before the index check; a read below M(c) is always defined (rule R38). -/
def execRomrd (i c : Byte) (s : State) : Host.Outcome State Fault Refusal :=
  .next (match schemeOfCode c with
    | none => s.raise .invalidArgument
    | some sch =>
      match romRead sch i.toNat with
      | none => s.raise .invalidArgument
      | some e => s.respond [entryBeat e])

/-- GENC (rule R86): the whole alphabet in generation order. -/
def execGenc (c : Byte) (s : State) : Host.Outcome State Fault Refusal :=
  .next (match schemeOfCode c with
    | none => s.raise .invalidArgument
    | some sch => s.respond ((romTable sch).map entryBeat))

end Sys2Proof.Machine
end

