-- ==== Sys2Proof/Machine/Control.lean ====
section
/-! DEFINITION. The control commands NOP, SETSCH, SETSNR and RDREG (rules R79 to R83). -/

namespace Sys2Proof.Machine

/-- NOP (rule R79). -/
def execNop (s : State) : Host.Outcome State Fault Refusal := .next (s.respond [])

/-- SETSCH (rule R80). -/
def execSetsch (c : Byte) (s : State) : Host.Outcome State Fault Refusal :=
  .next (match schemeOfCode c with
    | none => s.raise .invalidArgument
    | some sch => (s.configure sch s.ebn0).respond [])

/-- The Eb/N0 values SETSNR accepts: not NaN, and with a finite BPSK variance `1 ⊘ EXP10(x ⊘ 10)` (rule R81). -/
def snrAccepted (m : Config.MathLib) (x : F64) : Bool :=
  !F64.isNaN x && F64.isFinite (F64.div F64.one (dbToLinear m x))

/-- SETSNR (rule R81). -/
def execSetsnr (x : F64) (s : State) : Host.Outcome State Fault Refusal :=
  .next (if snrAccepted referenceMath x then (s.configure s.scheme x).respond []
    else s.raise .invalidArgument)

/-- RDREG (rule R83). -/
def execRdreg (r : RegName) (s : State) : Host.Outcome State Fault Refusal :=
  .next (s.respond [dataBeat (s.readReg r) 0#64 0#8])

end Sys2Proof.Machine
end

