-- ==== Sys2Proof/Machine/Modem.lean ====
section
/-! DEFINITION. The modulator and demodulator commands MOD, DET and HAM (rules R87 to R91). -/

namespace Sys2Proof.Machine

/-- The entry a label is looked up to, RomRead(s, LutIndex(s, v)) (rule R87). -/
def lutEntry (sch : Scheme) (v : Nat) : Option RomEntry :=
  match lutIndex sch v with
  | none => none
  | some i => romRead sch i

/-- MOD (rule R87): every group is looked up before any beat is emitted; a group without an entry is INVALID_STATE. -/
def execMod (n : Byte) (a : Word64) (s : State) : Host.Outcome State Fault Refusal :=
  let groups := bitGroups n.toNat s.bps.toNat a
  .next (
    if strayBits n.toNat a then s.raise .invalidArgument
    else if groups.all (fun v => (lutEntry s.scheme v).isSome) then
      s.respond ((groups.filterMap (lutEntry s.scheme)).map entryBeat)
    else s.raise .invalidState)

/-- The running minimum of the detector: "strict: an equal distance keeps the earlier point" (rule R89). -/
def nearestFrom (r : Sample) (best : RomEntry) (dbest : F64) : List RomEntry → RomEntry
  | [] => best
  | p :: ps =>
    if F64.lt (dist2 r p) dbest then nearestFrom r p (dist2 r p) ps else nearestFrom r best dbest ps

/-- The nearest of the points 0 .. M−1 to the sample; the lowest index among equal distances (rule R89). -/
def nearest (r : Sample) : List RomEntry → Option RomEntry
  | [] => none
  | p :: ps => some (nearestFrom r p (dist2 r p) ps)

/-- DET (rule R89): the points are those of index below M = 2^BPS in the table of SCHEME.
No table is empty, so there is always a nearest point; were there none, the table would be faulty, and the command
"must fail loudly" as rule R100 has it. -/
def execDet (i q : F64) (s : State) : Host.Outcome State Fault Refusal :=
  let r : Sample := ⟨i, q⟩
  .next (
    if r.isFinite then
      match nearest r ((romTable s.scheme).take (2 ^ s.bps.toNat)) with
      | some e => s.respond [entryBeat e]
      | none => s.raise .invalidState
    else s.raise .invalidArgument)

/-- HAM (rule R91): the lengths before the stray bits. -/
def execHam (na nb : Byte) (a b : Word64) (s : State) : Host.Outcome State Fault Refusal :=
  .next (
    if na ≠ nb then s.raise .invalidArgument
    else if strayBits na.toNat a || strayBits na.toNat b then s.raise .invalidArgument
    else s.respond [dataBeat (BitVec.ofNat 64 (popcount (a ^^^ b))) 0#64 0#8])

end Sys2Proof.Machine
end

