-- ==== Sys2Proof/Machine/Dispatch.lean ====
section
/-! DEFINITION. One arm per command of the opcode map (rule R70). -/

namespace Sys2Proof.Machine

def exec (i : Instr) (s : State) : Host.Outcome State Fault Refusal :=
  match i with
  | .nop => Sys2Proof.Machine.execNop s
  | .setsch c => Sys2Proof.Machine.execSetsch c s
  | .setsnr x => Sys2Proof.Machine.execSetsnr x s
  | .rdreg r => Sys2Proof.Machine.execRdreg r s
  | .bpsq c => Sys2Proof.Machine.execBpsq c s
  | .romrd j c => Sys2Proof.Machine.execRomrd j c s
  | .genc c => Sys2Proof.Machine.execGenc c s
  | .mod n a => Sys2Proof.Machine.execMod n a s
  | .det x y => Sys2Proof.Machine.execDet x y s
  | .ham na nb a b => Sys2Proof.Machine.execHam na nb a b s
  | .awgn x y => Sys2Proof.Machine.execAwgn x y s

end Sys2Proof.Machine
end

