-- ==== Sys2Proof/Machine/Step.lean ====
section
/-! DEFINITION. One step of QMOD: a reset edge, a command performed whole, a wait, or one response beat. -/

namespace Sys2Proof.Machine

/-- An accepted transaction is decoded and performed; an illegal word ends with status ILLEGAL (rule R72). -/
def performCommand (c : Command) (s : State) : Host.Outcome State Fault Refusal :=
  match decode c with
  | .ok i => exec i s
  | .error _ => .next (s.raise .illegal)

/-- One step.
A rising edge with `rst` at 1 comes before everything (rule R114).
In IDLE the block accepts the oldest command the host offers and performs it whole, as rule R29 allows, or stays
where it is while none is offered (rule R35).
In WAIT_DRAW the waiting AWGN takes its draw, or the block stays where it is (rule R113).
In RESP the host takes the beat offered, or the block stays where it is (rule R113). -/
def step (s : State) : Host.Outcome State Fault Refusal :=
  if s.rstEdges ≠ 0 then .next s.resetEdge
  else
    match s.phase with
    | .idle =>
      match s.cmdIn with
      | [] => .next s
      | c :: rest => performCommand c (s.accept c rest)
    | .exec c => performCommand c s
    | .waitDraw i q => exec (.awgn i q) s
    | .resp _ rest => .next (s.deliver rest)

/-- The state in which the host offers the table word's transaction next, with `rst` released and the block ready for
it: QMOD fetches nothing (rule R21), so this stands for the host's command port. -/
def State.withFetchWord (s : State) (nbits w : Nat) : State :=
  { s with phase := .idle, rstEdges := 0, cmdIn := tableCommand nbits w :: s.cmdIn }

end Sys2Proof.Machine
end

