-- ==== Sys2Proof/Machine/Assembler.lean ====
section
/-! DEFINITION. The assembler of rules R75 to R77: source lines as data, the transaction each one writes, and the reading
of a line of text. It is no part of the machine's step. -/

namespace Sys2Proof.Machine

/-- A `<real>`: "a decimal literal ..., or inf, -inf, nan ..., or 0x followed by 16 hexadecimal digits giving the raw
word" (rule R75). A decimal literal is (−1)^neg · num / den. -/
inductive AsmReal where
  | decimal (neg : Bool) (num den : Nat)
  | inf
  | negInf
  | nan
  | word (w : F64)
deriving DecidableEq, Repr

/-- A source line (rules R75, R76). Scheme and register operands are the field values that their names map to. -/
inductive AsmLine where
  | nop
  | setsch (c : Byte)
  | setsnr (x : AsmReal)
  | rdreg (r : Byte)
  | bpsq (c : Byte)
  | romrd (c i : Byte)
  | genc (c : Byte)
  | mod (n : Byte) (v : Word64)
  | modString (b : List Bool)
  | det (i q : AsmReal)
  | ham (na : Byte) (a : Word64) (nb : Byte) (b : Word64)
  | hamStrings (a b : List Bool)
  | awgn (i q : AsmReal)
  | cmd (w : Word32) (a b : Word64)
  | map (k : Byte) (v : Word64)
  | noise
  | noiseless
  | rderr
  | sym2bits (i q : AsmReal)
deriving DecidableEq, Repr

/-- The word of a `<real>`; a decimal literal is "rounded to binary64 by RNE" (rule R75). -/
def AsmReal.bits : AsmReal → F64
  | .decimal neg num den => F64.ofSignMag neg (F64.roundUnits (num * F64.oneUnits) den)
  | .inf => 0x7FF0000000000000#64
  | .negInf => 0xFFF0000000000000#64
  | .nan => 0x7FF8000000000000#64
  | .word w => w

/-- The number a bit string reads as, first bit most significant (rule R9). -/
def bitsValue (b : List Bool) : Nat := b.foldl (fun v x => 2 * v + x.toNat) 0

/-- The length field of a bit string. -/
def bitsLength (b : List Bool) : Byte := BitVec.ofNat 8 b.length

/-- The transaction of a line: "Unused fields and ignored operand words assemble to 0" (rule R75), with the expansions
of rule R76. -/
def AsmLine.assemble : AsmLine → Command
  | .nop => ⟨wordOf 0x00#8 0#8 0#8, 0#64, 0#64⟩
  | .setsch c => ⟨wordOf 0x01#8 0#8 c, 0#64, 0#64⟩
  | .setsnr x => ⟨wordOf 0x02#8 0#8 0#8, x.bits, 0#64⟩
  | .rdreg r => ⟨wordOf 0x03#8 r 0#8, 0#64, 0#64⟩
  | .bpsq c => ⟨wordOf 0x08#8 0#8 c, 0#64, 0#64⟩
  | .romrd c i => ⟨wordOf 0x09#8 i c, 0#64, 0#64⟩
  | .genc c => ⟨wordOf 0x0A#8 0#8 c, 0#64, 0#64⟩
  | .mod n v => ⟨wordOf 0x10#8 n 0#8, v, 0#64⟩
  | .modString b => ⟨wordOf 0x10#8 (bitsLength b) 0#8, BitVec.ofNat 64 (bitsValue b), 0#64⟩
  | .det i q => ⟨wordOf 0x11#8 0#8 0#8, i.bits, q.bits⟩
  | .ham na a nb b => ⟨wordOf 0x12#8 na nb, a, b⟩
  | .hamStrings a b =>
    ⟨wordOf 0x12#8 (bitsLength a) (bitsLength b), BitVec.ofNat 64 (bitsValue a), BitVec.ofNat 64 (bitsValue b)⟩
  | .awgn i q => ⟨wordOf 0x18#8 0#8 0#8, i.bits, q.bits⟩
  | .cmd w a b => ⟨w, a, b⟩
  | .map k v => ⟨wordOf 0x10#8 k 0#8, v, 0#64⟩
  | .noise => ⟨wordOf 0x18#8 0#8 0#8, 0#64, 0#64⟩
  | .noiseless => ⟨wordOf 0x02#8 0#8 0#8, 0x7FF0000000000000#64, 0#64⟩
  | .rderr => ⟨wordOf 0x03#8 0x06#8 0#8, 0#64, 0#64⟩
  | .sym2bits i q => ⟨wordOf 0x11#8 0#8 0#8, i.bits, q.bits⟩

/-! ### Reading a line of text

Rule R75 gives the operands of each line.
It does not say how spaces stand, nor which letters may be capitals: assumption log 9. -/

/-- The value of a digit in a base up to 16. -/
def digitValue (base : Nat) (c : Char) : Option Nat :=
  let v :=
    if '0' ≤ c ∧ c ≤ '9' then c.toNat - '0'.toNat
    else if 'a' ≤ c ∧ c ≤ 'f' then c.toNat - 'a'.toNat + 10
    else if 'A' ≤ c ∧ c ≤ 'F' then c.toNat - 'A'.toNat + 10
    else 16
  if v < base then some v else none

/-- The digits of a numeral that continues v. -/
def numeralFrom (base : Nat) : Nat → List Char → Option Nat
  | v, [] => some v
  | v, c :: cs =>
    match digitValue base c with
    | some d => numeralFrom base (base * v + d) cs
    | none => none

/-- A numeral of at least one digit. -/
def numeral (base : Nat) (cs : List Char) : Option Nat :=
  match cs with
  | [] => none
  | _ => numeralFrom base 0 cs

/-- A numeral below a bound. -/
def boundedNumeral (base bound : Nat) (cs : List Char) : Option Nat :=
  match numeral base cs with
  | some v => if v < bound then some v else none
  | none => none

/-- The text split at every occurrence of a character. -/
def splitAtChar (sep : Char) : List Char → List (List Char)
  | [] => [[]]
  | c :: cs =>
    if c = sep then [] :: splitAtChar sep cs
    else
      match splitAtChar sep cs with
      | [] => [[c]]
      | p :: ps => (c :: p) :: ps

/-- The text without blanks at its two ends. -/
def trimBlanks (cs : List Char) : List Char :=
  ((cs.dropWhile (· = ' ')).reverse.dropWhile (· = ' ')).reverse

/-- `<scheme>`: a name, or `#n` for a raw field value (rule R75). -/
def readScheme : List Char → Option Byte
  | ['b', 'p', 's', 'k'] => some 0#8
  | ['q', 'p', 's', 'k'] => some 1#8
  | ['8', 'p', 's', 'k'] => some 2#8
  | ['1', '6', 'q', 'a', 'm'] => some 3#8
  | ['6', '4', 'q', 'a', 'm'] => some 4#8
  | '#' :: cs => (boundedNumeral 10 256 cs).map (BitVec.ofNat 8)
  | _ => none

/-- `<reg>`: a name, or `#n` for a raw field value (rule R75). -/
def readRegister : List Char → Option Byte
  | ['s', 'c', 'h', 'e', 'm', 'e'] => some 0#8
  | ['b', 'p', 's'] => some 1#8
  | ['e', 'b', 'n', '0'] => some 2#8
  | ['e', 's', 'n', '0'] => some 3#8
  | ['n', 'v', 'a', 'r'] => some 4#8
  | ['n', 's', 'd'] => some 5#8
  | ['e', 'r', 'r', 'f'] => some 6#8
  | '#' :: cs => (boundedNumeral 10 256 cs).map (BitVec.ofNat 8)
  | _ => none

/-- An index, 0..255 (rule R75). -/
def readIndex (cs : List Char) : Option Byte := (boundedNumeral 10 256 cs).map (BitVec.ofNat 8)

/-- A length, 0..64 (rule R75). -/
def readLength (cs : List Char) : Option Byte := (boundedNumeral 10 65 cs).map (BitVec.ofNat 8)

/-- `<bits>`: "0b binary or 0x hexadecimal, placed in the low n bits"; 0 alone is also written (rule R75). -/
def readBits : List Char → Option Word64
  | '0' :: 'b' :: cs => (boundedNumeral 2 (2 ^ 64) cs).map (BitVec.ofNat 64)
  | '0' :: 'x' :: cs => (boundedNumeral 16 (2 ^ 64) cs).map (BitVec.ofNat 64)
  | ['0'] => some 0#64
  | _ => none

/-- A string of bits up to the closing quotation mark, first bit first (rule R75). -/
def readBitsUntilQuote : List Char → Option (List Bool)
  | ['"'] => some []
  | '0' :: cs => (readBitsUntilQuote cs).map (false :: ·)
  | '1' :: cs => (readBitsUntilQuote cs).map (true :: ·)
  | _ => none

/-- `"<bit string>"` of at most 64 bits (rules R6, R75). -/
def readBitString : List Char → Option (List Bool)
  | '"' :: cs =>
    match readBitsUntilQuote cs with
    | some b => if b.length ≤ 64 then some b else none
    | none => none
  | _ => none

/-- A decimal mantissa: digits, with a fraction after at most one point; as a numerator and a power of ten. -/
def readMantissa (cs : List Char) : Option (Nat × Nat) :=
  match splitAtChar '.' cs with
  | [w] => (numeral 10 w).map (·, 0)
  | [w, f] => (numeral 10 (w ++ f)).map (·, f.length)
  | _ => none

/-- num · 10^(exp − frac), with the exponent's sign given. -/
def scaledDecimal (neg : Bool) (num frac : Nat) (expNeg : Bool) (exp : Nat) : AsmReal :=
  if expNeg then .decimal neg num (10 ^ (frac + exp)) else .decimal neg (num * 10 ^ exp) (10 ^ frac)

/-- A decimal literal without its sign. -/
def readUnsignedDecimal (neg : Bool) (cs : List Char) : Option AsmReal :=
  match splitAtChar 'e' cs with
  | [m] =>
    match readMantissa m with
    | some (v, f) => some (scaledDecimal neg v f false 0)
    | none => none
  | [m, '-' :: e] =>
    match readMantissa m, numeral 10 e with
    | some (v, f), some x => some (scaledDecimal neg v f true x)
    | _, _ => none
  | [m, e] =>
    match readMantissa m, numeral 10 e with
    | some (v, f), some x => some (scaledDecimal neg v f false x)
    | _, _ => none
  | _ => none

/-- `<real>` (rule R75). -/
def readReal : List Char → Option AsmReal
  | ['i', 'n', 'f'] => some .inf
  | ['-', 'i', 'n', 'f'] => some .negInf
  | ['n', 'a', 'n'] => some .nan
  | '0' :: 'x' :: cs =>
    if cs.length = 16 then (numeral 16 cs).map (fun v => .word (BitVec.ofNat 64 v)) else none
  | '-' :: cs => readUnsignedDecimal true cs
  | cs => readUnsignedDecimal false cs

/-- A hexadecimal word below a bound, as `.cmd` takes it (rule R75); `0x` may stand before it. -/
def readHexWord (bound : Nat) : List Char → Option Nat
  | '0' :: 'x' :: cs => boundedNumeral 16 bound cs
  | cs => boundedNumeral 16 bound cs

/-- Two operands, each read by a function of its own. -/
def readTwo {α β : Type} (f : List Char → Option α) (g : List Char → Option β) (x y : List Char) : Option (α × β) :=
  match f x, g y with
  | some a, some b => some (a, b)
  | _, _ => none

/-- The line of a mnemonic and its operands (rules R75, R76). -/
def readOperands (mnemonic : List Char) (ops : List (List Char)) : Option AsmLine :=
  match mnemonic, ops with
  | ['N', 'O', 'P'], [] => some .nop
  | ['S', 'E', 'T', 'S', 'C', 'H'], [c] => (readScheme c).map .setsch
  | ['S', 'E', 'T', 'S', 'N', 'R'], [x] => (readReal x).map .setsnr
  | ['R', 'D', 'R', 'E', 'G'], [r] => (readRegister r).map .rdreg
  | ['B', 'P', 'S', 'Q'], [c] => (readScheme c).map .bpsq
  | ['R', 'O', 'M', 'R', 'D'], [c, i] => (readTwo readScheme readIndex c i).map fun x => .romrd x.1 x.2
  | ['G', 'E', 'N', 'C'], [c] => (readScheme c).map .genc
  | ['M', 'O', 'D'], [n, v] => (readTwo readLength readBits n v).map fun x => .mod x.1 x.2
  | ['M', 'O', 'D'], [b] => (readBitString b).map .modString
  | ['D', 'E', 'T'], [i, q] => (readTwo readReal readReal i q).map fun x => .det x.1 x.2
  | ['H', 'A', 'M'], [na, a, nb, b] =>
    match readTwo readLength readBits na a, readTwo readLength readBits nb b with
    | some x, some y => some (.ham x.1 x.2 y.1 y.2)
    | _, _ => none
  | ['H', 'A', 'M'], [a, b] => (readTwo readBitString readBitString a b).map fun x => .hamStrings x.1 x.2
  | ['A', 'W', 'G', 'N'], [i, q] => (readTwo readReal readReal i q).map fun x => .awgn x.1 x.2
  | ['.', 'c', 'm', 'd'], [w, a, b] =>
    match readHexWord (2 ^ 32) w, readTwo (readHexWord (2 ^ 64)) (readHexWord (2 ^ 64)) a b with
    | some x, some y => some (.cmd (BitVec.ofNat 32 x) (BitVec.ofNat 64 y.1) (BitVec.ofNat 64 y.2))
    | _, _ => none
  | ['M', 'A', 'P'], [k, v] => (readTwo readLength readBits k v).map fun x => .map x.1 x.2
  | ['N', 'O', 'I', 'S', 'E'], [] => some .noise
  | ['N', 'O', 'I', 'S', 'E', 'L', 'E', 'S', 'S'], [] => some .noiseless
  | ['R', 'D', 'E', 'R', 'R'], [] => some .rderr
  | ['S', 'Y', 'M', '2', 'B', 'I', 'T', 'S'], [i, q] =>
    (readTwo readReal readReal i q).map fun x => .sym2bits x.1 x.2
  | _, _ => none

/-- A line of text: "mnemonic first, operands separated by commas, ; starting a comment" (rule R75). -/
def readLine (text : List Char) : Option AsmLine :=
  let line := trimBlanks (text.takeWhile (· ≠ ';'))
  let mnemonic := line.takeWhile (· ≠ ' ')
  let rest := trimBlanks (line.dropWhile (· ≠ ' '))
  readOperands mnemonic (if rest = [] then [] else (splitAtChar ',' rest).map trimBlanks)

end Sys2Proof.Machine
end

