-- ==== Sys2Proof/Safety.lean ====
section
/-! DEFINITION. The words the statements are written in: what a response says, the exact value of a binary64 word, and
what holds of every state a run reaches. -/

namespace Sys2Proof.Safety

open Sys2Proof.Machine

/-! ### Responses -/

/-- The response of one header beat with status code `code` and `beats` after it (rule R73). -/
def response (code : Byte) (beats : List Beat) : Phase :=
  .resp ⟨true, BitVec.ofNat 64 beats.length, 0#64, code⟩ beats

/-- A data beat (X, Y, L) (rule R73). -/
def beat (x y : Word64) (l : Byte) : Beat := ⟨false, x, y, l⟩

/-- What a command that ends with INVALID_ARGUMENT leaves: one flag and one header beat (rules R28, R101). -/
def argumentRefused (s : State) : State := { s with errf := s.errf ||| 0b010#3, phase := response 2#8 [] }

/-- What a command that ends with ILLEGAL leaves (rules R28, R101). -/
def illegalRefused (s : State) : State := { s with errf := s.errf ||| 0b001#3, phase := response 1#8 [] }

/-- A response channel that offers `b` and then `rest` is framed as rules R33, R73 and R101 have it: a header states
the number of the data beats after it, at most 64 of them; no error status has any; INVALID_STATE is never there
(rule R100). -/
def Framed (b : Beat) (rest : List Beat) : Prop :=
  (∀ d ∈ rest, d.hdr = false) ∧
    if b.hdr then
      b.y = 0#64 ∧ b.x = BitVec.ofNat 64 rest.length ∧ rest.length ≤ 64 ∧
        (b.l = 0#8 ∨ ((b.l = 1#8 ∨ b.l = 2#8) ∧ rest = []))
    else rest.length < 64

/-! ### Exact values -/

/-- The word x is a finite binary64 value nearest the real v: no finite value is nearer (rule R13).
Distances are in units of 2^-1074, in which every finite value is a whole number. -/
def NearestTo (v : ℝ) (x : F64) : Prop :=
  F64.isFinite x = true ∧
    ∀ y, F64.isFinite y = true → |(F64.value x : ℝ) - v * 2 ^ 1074| ≤ |(F64.value y : ℝ) - v * 2 ^ 1074|

/-- The magnitude halfway between the largest finite value and the next power of two, in units of 2^-1074: "MAX + 2^970"
(rule R96), from which on a result rounds to an infinity (rule R12). -/
def overflowUnits : ℕ := (2 ^ 54 - 1) * 2 ^ 2044

/-- The word x is the exact real v rounded once, to nearest, ties to even (rules R12, R13).
Of v = 0 nothing is said but that x is one of the two zeros. -/
structure RoundsTo (v : ℝ) (x : F64) : Prop where
  /-- A real has no NaN for its value. -/
  notNaN : F64.isNaN x = false
  /-- The result is finite exactly below the halfway point past the largest finite value. -/
  finite : F64.isFinite x = true ↔ |v| * 2 ^ 1074 < overflowUnits
  /-- From there on it is the infinity of the exact sign. -/
  overflow : overflowUnits ≤ |v| * 2 ^ 1074 → x = if v < 0 then 0xFFF0000000000000#64 else 0x7FF0000000000000#64
  /-- A finite result is nearest. -/
  nearest : F64.isFinite x = true → NearestTo v x
  /-- A tie goes to the word with an even last bit. -/
  even : F64.isFinite x = true → ∀ y, F64.isFinite y = true → F64.value y ≠ F64.value x →
    |(F64.value x : ℝ) - v * 2 ^ 1074| = |(F64.value y : ℝ) - v * 2 ^ 1074| → x.getLsbD 0 = false
  /-- The sign of a result that is not exactly 0 is the exact sign, also where the result rounds to a zero. -/
  negative : v < 0 → F64.sign x = true
  positive : 0 < v → F64.sign x = false

/-- One of the working precisions of the reference functions settles: the presumption of assumption log 3 at one
argument. -/
def Settles (f : Nat → Enclosure) : Prop := ∃ p ∈ [192, 384, 768, 1536], (f p).settled.isSome = true

/-- The enclosure e holds the real v. -/
def Encloses (e : Enclosure) (v : ℝ) : Prop :=
  (0 : ℝ) < e.den ∧ (e.lo : ℝ) ≤ v * e.den ∧ v * e.den ≤ (e.hi : ℝ)

/-! ### The named properties of rule R14 that other rules rest on -/

/-- EXP10 of a value that is not NaN is not NaN and not negative: from "EXP10(−∞) = +0", "monotone non-decreasing" and
"never NaN for a non-NaN x" (rule R14). -/
def Exp10NonNegative (m : Config.MathLib) : Prop :=
  ∀ x, F64.isNaN x = false → F64.isNaN (m.exp10 x) = false ∧ F64.le 0#64 (m.exp10 x) = true

/-- "defined on every binary64 x with 0 < x < 1; there LN(x) ≤ 0 and LN(x) ≥ −745" (rule R14). -/
def LnBounded (m : Config.MathLib) : Prop :=
  ∀ x, F64.lt 0#64 x = true → F64.lt x F64.one = true →
    F64.le (m.ln x) 0#64 = true ∧ F64.le 0xC087480000000000#64 (m.ln x) = true

/-- "defined on every finite x; the result lies in [−1, 1]; COS(0) = 1; SIN(0) = 0" (rule R14). -/
def TrigBounded (m : Config.MathLib) : Prop :=
  (∀ x, F64.isFinite x = true →
    F64.le 0xBFF0000000000000#64 (m.cos x) = true ∧ F64.le (m.cos x) F64.one = true ∧
      F64.le 0xBFF0000000000000#64 (m.sin x) = true ∧ F64.le (m.sin x) F64.one = true) ∧
    m.cos 0#64 = F64.one ∧ m.sin 0#64 = 0#64

/-! ### What every step keeps -/

/-- BPS, ESN0, NVAR and NSD equal Derive of SCHEME and EBN0, the formulas of rule R26 written out. -/
def DerivedAgree (s : State) : Prop :=
  s.bps = bpsRead s.scheme ∧
    s.esn0 = F64.add s.ebn0 (esOff s.scheme) ∧
    s.nvar = F64.div F64.one (F64.mul (exp10 (F64.div s.ebn0 F64.ten)) (F64.ofNat (bpsRead s.scheme).toNat)) ∧
    s.nsd = F64.sqrt (F64.div s.nvar F64.two)

/-- EBN0 is not NaN, not −∞, and its BPSK variance is finite (rule R25). -/
def Ebn0Accepted (s : State) : Prop :=
  F64.isNaN s.ebn0 = false ∧ s.ebn0 ≠ 0xFFF0000000000000#64 ∧
    F64.isFinite (F64.div F64.one (exp10 (F64.div s.ebn0 F64.ten))) = true

/-- 0 < `U1_FLOOR` < 1 (rule R7). -/
def FloorLegal (s : State) : Prop := F64.lt 0#64 s.u1Floor = true ∧ F64.lt s.u1Floor F64.one = true

/-- A phase is as the rules leave it: a waiting AWGN holds a finite sample (rule R96), and a response is framed. -/
def PhaseLegal : Phase → Prop
  | .idle => True
  | .exec _ => True
  | .waitDraw i q => F64.isFinite i = true ∧ F64.isFinite q = true
  | .resp b rest => Framed b rest

/-- The invariant of every run: rules R25, R26, R33, R100 and R7 together. -/
structure Inv (s : State) : Prop where
  derived : DerivedAgree s
  ebn0 : Ebn0Accepted s
  stateFlag : s.errf.getLsbD 2 = false
  phase : PhaseLegal s.phase
  floor : FloorLegal s

/-! ### Operand words -/

/-- The command uses operand word A (rule R65). -/
def usesA : Instr → Bool
  | .setsnr _ => true
  | .mod _ _ => true
  | .det _ _ => true
  | .ham _ _ _ _ => true
  | .awgn _ _ => true
  | .nop => false
  | .setsch _ => false
  | .rdreg _ => false
  | .bpsq _ => false
  | .romrd _ _ => false
  | .genc _ => false

/-- The command uses operand word B (rule R65). -/
def usesB : Instr → Bool
  | .det _ _ => true
  | .ham _ _ _ _ => true
  | .awgn _ _ => true
  | .nop => false
  | .setsch _ => false
  | .setsnr _ => false
  | .rdreg _ => false
  | .bpsq _ => false
  | .romrd _ _ => false
  | .genc _ => false
  | .mod _ _ => false

/-- The range limits of rule R65 on a selected row's fields FA and FB. -/
def fieldsInRange (op : Opcode) (fa fb : Byte) : Bool :=
  match op with
  | .rdreg => decide (fa.toNat ≤ 6)
  | .mod => decide (fa.toNat ≤ 64)
  | .ham => decide (fa.toNat ≤ 64) && decide (fb.toNat ≤ 64)
  | .nop => true
  | .setsch => true
  | .setsnr => true
  | .bpsq => true
  | .romrd => true
  | .genc => true
  | .det => true
  | .awgn => true

/-- A command word is legal: some row of the opcode map selects it and its fields are in range (rule R71). -/
def LegalWord (w : Word32) : Prop :=
  ∃ r ∈ opcodeMap, r.selects w = true ∧ fieldsInRange r.op (faField w) (fbField w) = true

end Sys2Proof.Safety
end

