-- ==== Sys2Proof/Certificates/Slice0/Obligations.lean ====
section
/-! DEFINITION. The statements about QMOD that the provers settle. Each names the rule it formalises. -/

open Sys2Proof Sys2Proof.Machine Sys2Proof.Safety

/-! ### Encoding -/

/-- Rules R63, R65, R70, R72: no bit of a command is lost by the encoding, and the decoder reads every field where the
encoder put it. -/
def Obligations.DecodeOfEncodeGivesCommandBack : Prop :=
  ∀ i : Instr, i.wf = true → decode (encode i) = .ok i

/-- Rules R65, R69, R70: a decoded transaction is the encoding of its command, but for the operand words the command
does not use. -/
def Obligations.EncodeOfDecodedGivesWordsBack : Prop :=
  ∀ (c : Command) (i : Instr), decode c = .ok i →
    i.wf = true ∧ (encode i).w = c.w ∧
      (encode i).a = (if usesA i then c.a else 0#64) ∧ (encode i).b = (if usesB i then c.b else 0#64)

/-- Rule R77, all eight encodings: the line of text writes the transaction, and the transaction decodes to the
command. -/
def Obligations.ExampleEncodingsDecode : Prop :=
  ((readLine "SETSCH 16qam".toList).map AsmLine.assemble = some ⟨0x01000300#32, 0#64, 0#64⟩ ∧
    decode ⟨0x01000300#32, 0#64, 0#64⟩ = .ok (.setsch 3#8)) ∧
  ((readLine "SETSNR 10.0".toList).map AsmLine.assemble = some ⟨0x02000000#32, 0x4024000000000000#64, 0#64⟩ ∧
    decode ⟨0x02000000#32, 0x4024000000000000#64, 0#64⟩ = .ok (.setsnr 0x4024000000000000#64)) ∧
  ((readLine "RDREG nvar".toList).map AsmLine.assemble = some ⟨0x03040000#32, 0#64, 0#64⟩ ∧
    decode ⟨0x03040000#32, 0#64, 0#64⟩ = .ok (.rdreg .nvar)) ∧
  ((readLine "ROMRD qpsk, 2".toList).map AsmLine.assemble = some ⟨0x09020100#32, 0#64, 0#64⟩ ∧
    decode ⟨0x09020100#32, 0#64, 0#64⟩ = .ok (.romrd 2#8 1#8)) ∧
  ((readLine "MOD \"0110\"".toList).map AsmLine.assemble = some ⟨0x10040000#32, 6#64, 0#64⟩ ∧
    decode ⟨0x10040000#32, 6#64, 0#64⟩ = .ok (.mod 4#8 6#64)) ∧
  ((readLine "DET 0.5, -0.25".toList).map AsmLine.assemble
      = some ⟨0x11000000#32, 0x3FE0000000000000#64, 0xBFD0000000000000#64⟩ ∧
    decode ⟨0x11000000#32, 0x3FE0000000000000#64, 0xBFD0000000000000#64⟩
      = .ok (.det 0x3FE0000000000000#64 0xBFD0000000000000#64)) ∧
  ((readLine "HAM \"101\", \"10\"".toList).map AsmLine.assemble = some ⟨0x12030200#32, 5#64, 2#64⟩ ∧
    decode ⟨0x12030200#32, 5#64, 2#64⟩ = .ok (.ham 3#8 2#8 5#64 2#64)) ∧
  ((readLine "AWGN 1.0, 0.0".toList).map AsmLine.assemble = some ⟨0x18000000#32, 0x3FF0000000000000#64, 0#64⟩ ∧
    decode ⟨0x18000000#32, 0x3FF0000000000000#64, 0#64⟩ = .ok (.awgn 0x3FF0000000000000#64 0#64))

/-- Rule R76: the five expansions. -/
def Obligations.PseudoCommandsExpand : Prop :=
  (∀ k v, (AsmLine.map k v).assemble = (AsmLine.mod k v).assemble) ∧
  AsmLine.noise.assemble = (AsmLine.awgn (.decimal false 0 1) (.decimal false 0 1)).assemble ∧
  AsmLine.noiseless.assemble = (AsmLine.setsnr .inf).assemble ∧
  AsmLine.rderr.assemble = (AsmLine.rdreg RegName.errf.number).assemble ∧
  (∀ i q, (AsmLine.sym2bits i q).assemble = (AsmLine.det i q).assemble)

/-- Rule R71: an opcode the map does not define is illegal; so is a defined one that fails its mask or ranges; every
other word selects exactly one row; an illegal command ends with status ILLEGAL. -/
def Obligations.WordIsLegalExactlyWhenOneRowSelectsIt : Prop :=
  (∀ c : Command, (∃ i, decode c = .ok i) ↔ LegalWord c.w) ∧
  (∀ w : Word32, ∀ r ∈ opcodeMap, ∀ r' ∈ opcodeMap, r.selects w = true → r'.selects w = true → r = r') ∧
  (∀ w : Word32,
    (0x04 ≤ (opcField w).toNat ∧ (opcField w).toNat ≤ 0x07) ∨ (0x0B ≤ (opcField w).toNat ∧ (opcField w).toNat ≤ 0x0F) ∨
      (0x13 ≤ (opcField w).toNat ∧ (opcField w).toNat ≤ 0x17) ∨ 0x19 ≤ (opcField w).toNat → ¬ LegalWord w) ∧
  (∀ (c : Command) (s : State), ¬ LegalWord c.w → performCommand c s = .next (illegalRefused s))

/-- Rule R64: RSV or a field that the opcode names must-be-zero is not 0, and the command ends with ILLEGAL, whatever
the rest of the word. The must-be-zero fields are those of rule R65. -/
def Obligations.NonzeroReservedFieldIsIllegal : Prop :=
  ∀ (s : State) (c : Command) (rest : List Command),
    s.rstEdges = 0 → s.phase = .idle → s.cmdIn = c :: rest →
    (rsvField c.w ≠ 0#8 ∨
      (opcField c.w ∈ [0x00#8, 0x01#8, 0x02#8, 0x08#8, 0x0A#8, 0x11#8, 0x18#8] ∧ faField c.w ≠ 0#8) ∨
      (opcField c.w ∈ [0x00#8, 0x02#8, 0x03#8, 0x10#8, 0x11#8, 0x18#8] ∧ fbField c.w ≠ 0#8)) →
    step s = .next { s with cmdIn := rest, errf := s.errf ||| 0b001#3, phase := response 1#8 [] }

/-- Rule R69 with the "ignored" columns of rule R65: no result depends on an operand word the opcode ignores. -/
def Obligations.IgnoredOperandWordsHaveNoEffect : Prop :=
  ∀ (w : Word32) (a b a' b' : Word64) (s : State),
    (opcField w ∉ [0x02#8, 0x10#8, 0x11#8, 0x12#8, 0x18#8] →
      performCommand ⟨w, a, b⟩ s = performCommand ⟨w, a', b'⟩ s) ∧
    (opcField w ∉ [0x11#8, 0x12#8, 0x18#8] → performCommand ⟨w, a, b⟩ s = performCommand ⟨w, a, b'⟩ s)

/-! ### The step, reset and waiting -/

/-- A step runs the decoded command, in the state in which it was accepted: from the command port, in phase EXEC, in
phase WAIT_DRAW, and from a table word (rules R29, R32, R72). -/
def Obligations.StepPerformsDecodedCommand : Prop :=
  ∀ (s : State) (c : Command) (i : Instr), decode c = .ok i →
    (∀ rest, s.rstEdges = 0 → s.phase = .idle → s.cmdIn = c :: rest →
      step s = exec i { s with phase := .exec c, cmdIn := rest }) ∧
    (s.rstEdges = 0 → s.phase = .exec c → step s = exec i s) ∧
    (∀ x y, s.rstEdges = 0 → s.phase = .waitDraw x y → step s = exec (.awgn x y) s) ∧
    (∀ nbits w, tableCommand nbits w = c →
      step (s.withFetchWord nbits w) = exec i { s with rstEdges := 0, phase := .exec c })

/-- Rule R114, from every state, the power-up states of rule R116 among them: registers, phase and outputs in reset;
the command in progress is abandoned and no draw is taken. -/
def Obligations.ResetEdgeSetsEveryRegister : Prop :=
  ∀ s : State, 0 < s.rstEdges →
    s.cmdReady = false ∧ s.rspBeat = none ∧ s.drwReady = false ∧
    step s = .next
      { scheme := .bpsk, bps := 1#3, ebn0 := 0x7FF0000000000000#64, esn0 := 0x7FF0000000000000#64,
        nvar := 0#64, nsd := 0#64, errf := 0#3, phase := .idle, rstEdges := s.rstEdges - 1,
        cmdIn := s.cmdIn, rspTakes := s.rspTakes, drawIn := s.drawIn, u1Floor := s.u1Floor }

/-- Rule R115: at the first edge with `rst` at 0 the block is ready with the reset values, and stays so until a command
is accepted. -/
def Obligations.BlockIsReadyAfterReset : Prop :=
  ∀ s : State, s.rstEdges = 1 →
    ∃ t, step s = .next t ∧ t.cmdReady = true ∧ t.phase = .idle ∧
      t.scheme = .bpsk ∧ t.bps = 1#3 ∧ t.ebn0 = F64.posInf ∧ t.esn0 = F64.posInf ∧ t.nvar = 0#64 ∧ t.nsd = 0#64 ∧
      t.errf = 0#3 ∧ t.cmdIn = s.cmdIn ∧ (t.cmdIn = [] → step t = .next t)

/-- Rule R36 with the reset column of rule R23: the values after reset, and that they equal Derive(+∞, 0). -/
def Obligations.ResetStateHoldsResetValues : Prop :=
  State.reset.readReg .scheme = 0#64 ∧ State.reset.readReg .bps = 1#64 ∧
  State.reset.readReg .ebn0 = 0x7FF0000000000000#64 ∧ State.reset.readReg .esn0 = 0x7FF0000000000000#64 ∧
  State.reset.readReg .nvar = 0#64 ∧ State.reset.readReg .nsd = 0#64 ∧ State.reset.readReg .errf = 0#64 ∧
  State.reset.phase = .idle ∧
  derive referenceMath F64.posInf .bpsk = ⟨1#3, F64.posInf, 0#64, 0#64⟩

/-- The invariant holds right after reset (rules R25, R26, R36).
`U1_FLOOR` at reset is the model's own value, assumption log 1; of it only 0 < U1_FLOOR < 1 is said. -/
def Obligations.InvariantHoldsAtReset : Prop := Inv State.reset

/-- Rules R25, R26, R33, R100: every step that answers a next state keeps the invariant, from every state that has
it. -/
def Obligations.StepKeepsInvariant : Prop :=
  ∀ s t : State, Inv s → step s = .next t → Inv t

/-- Rule R113: a block that is busy stands still only where an agent outside it gives it nothing: no draw in WAIT_DRAW,
or no beat taken in RESP. -/
def Obligations.BusyBlockWaitsOnlyForOutsideAgents : Prop :=
  ∀ s : State, Inv s → s.rstEdges = 0 → s.phase ≠ .idle →
    (step s = .next s ↔
      (∃ i q, s.phase = .waitDraw i q ∧ s.drawIn = []) ∨ (∃ b rest, s.phase = .resp b rest ∧ s.rspTakes = 0))

/-- Rules R33, R73: a host that takes as many beats as the response has sees them in order, one a step, and then the
block is ready again with every register as it was. -/
def Obligations.HostTakesWholeResponse : Prop :=
  ∀ (s : State) (b : Beat) (rest : List Beat) (n : Nat),
    s.rstEdges = 0 → s.phase = .resp b rest → s.rspTakes = rest.length + 1 + n →
    (∀ j, j ≤ rest.length → ∃ t, core.run j s = .next t ∧ State.rspBeat t = (b :: rest)[j]?) ∧
    core.run (rest.length + 1) s = .next { s with phase := .idle, rspTakes := n }

/-- Rules R55, R126: a step takes a command from the port only when the block is ready, always the oldest one, and
performs it whole; until its response is delivered the block is not ready for another. -/
def Obligations.CommandsArePerformedInOfferedOrder : Prop :=
  ∀ s t : State, step s = .next t →
    (t.cmdIn = s.cmdIn ∨
      ∃ c, s.cmdIn = c :: t.cmdIn ∧ s.cmdReady = true ∧ t.cmdReady = false ∧
        performCommand c { s with phase := .exec c, cmdIn := t.cmdIn } = .next t)

/-- Rule R60: the draws are consumed in order, one by each AWGN that passes its checks, none by any other command. -/
def Obligations.EachNoisyCommandTakesTheNextDraw : Prop :=
  ∀ (i : Instr) (s t : State), exec i s = .next t →
    (∀ x y d ds, i = .awgn x y → F64.isFinite x = true → F64.isFinite y = true → s.drawIn = d :: ds →
      t.drawIn = ds) ∧
    ((∀ x y, i = .awgn x y → F64.isFinite x = false ∨ F64.isFinite y = false) → t.drawIn = s.drawIn)

/-! ### Errors -/

/-- Rule R101: a command that ends with an error status changes one flag of ERRF and offers one header beat; it takes no
draw; and once the host takes the header beat the block is ready. -/
def Obligations.ErrorChangesOneFlagOnly : Prop :=
  ∀ (c : Command) (s t : State) (b : Beat) (rest : List Beat),
    performCommand c s = .next t → t.phase = .resp b rest → b.l ≠ 0#8 →
    (∃ st : Status, st ≠ .ok ∧ b.l = (statusCode st).setWidth 8 ∧
      t = { s with errf := s.errf ||| errfBit st, phase := response b.l [] }) ∧
    (∀ n, t.rstEdges = 0 → t.rspTakes = n + 1 → step t = .next { t with phase := .idle, rspTakes := n })

/-- Rule R28: bit 0 is set by ILLEGAL, bit 1 by INVALID_ARGUMENT, bit 2 by INVALID_STATE, and no other bit changes; no
command clears a flag; reset clears ERRF. -/
def Obligations.ErrorFlagsAreStickyUntilReset : Prop :=
  (∀ (c : Command) (s t : State) (b : Beat) (rest : List Beat),
    performCommand c s = .next t → t.phase = .resp b rest →
    (b.l = 0#8 ∧ t.errf = s.errf) ∨ (b.l = 1#8 ∧ t.errf = s.errf ||| 0b001#3) ∨
      (b.l = 2#8 ∧ t.errf = s.errf ||| 0b010#3) ∨ (b.l = 3#8 ∧ t.errf = s.errf ||| 0b100#3)) ∧
  (∀ s t : State, step s = .next t → s.rstEdges = 0 → s.errf &&& t.errf = s.errf) ∧
  (∀ s t : State, step s = .next t → s.rstEdges ≠ 0 → t.errf = 0#3)

/-- Rule R100: no command ends with INVALID_STATE where BPS is the width of SCHEME, as rule R26 has it; the lookup
table covers every label. -/
def Obligations.InvalidStateIsNeverProduced : Prop :=
  (∀ (i : Instr) (s t : State) (b : Beat) (rest : List Beat),
    s.bps = bpsRead s.scheme → exec i s = .next t → t.phase = .resp b rest → b.l ≠ 3#8) ∧
  (∀ (sch : Scheme) (v : Nat), v < alphabetSize sch → lutIndex sch v ≠ none)

/-! ### Control commands -/

/-- Rule R79: NOP answers OK with no beats and writes nothing else. -/
def Obligations.NopOnlyAnswers : Prop :=
  ∀ s : State, exec .nop s = .next { s with phase := response 0#8 [] }

/-- Rule R80 with rules R24, R26 and R40: SETSCH with a code 0..4 writes SCHEME and the four derived registers, leaves
EBN0 and ERRF, and answers OK. -/
def Obligations.SetschWritesSchemeAndDerived : Prop :=
  ∀ (s : State) (c : Byte), c.toNat ≤ 4 →
    ∃ (sch : Scheme) (k : Nat) (off : F64),
      ((c = 0#8 ∧ sch = .bpsk ∧ k = 1 ∧ off = 0x0000000000000000#64) ∨
        (c = 1#8 ∧ sch = .qpsk ∧ k = 2 ∧ off = 0x4008151824C7587F#64) ∨
        (c = 2#8 ∧ sch = .psk8 ∧ k = 3 ∧ off = 0x401315B8BDF1E5BE#64) ∨
        (c = 3#8 ∧ sch = .qam16 ∧ k = 4 ∧ off = 0x4018151824C7587F#64) ∨
        (c = 4#8 ∧ sch = .qam64 ∧ k = 6 ∧ off = 0x401F2044D05591FD#64)) ∧
      exec (.setsch c) s = .next
        { s with
          scheme := sch
          bps := BitVec.ofNat 3 k
          esn0 := F64.add s.ebn0 off
          nvar := F64.div F64.one (F64.mul (exp10 (F64.div s.ebn0 F64.ten)) (F64.ofNat k))
          nsd := F64.sqrt (F64.div
            (F64.div F64.one (F64.mul (exp10 (F64.div s.ebn0 F64.ten)) (F64.ofNat k))) F64.two)
          phase := response 0#8 [] }

/-- Rules R80, R84, R85, R86: a scheme code above 4 is INVALID_ARGUMENT. -/
def Obligations.UnknownSchemeCodeIsRefused : Prop :=
  ∀ (s : State) (c i : Byte), 4 < c.toNat →
    exec (.setsch c) s = .next (argumentRefused s) ∧ exec (.bpsq c) s = .next (argumentRefused s) ∧
    exec (.romrd i c) s = .next (argumentRefused s) ∧ exec (.genc c) s = .next (argumentRefused s)

/-- Rule R81 with rule R26: an Eb/N0 that is not NaN and whose BPSK variance is finite is written to EBN0, the derived
registers are recomputed for the current scheme, and the answer is OK. -/
def Obligations.SetsnrWritesEbn0AndDerived : Prop :=
  ∀ (s : State) (x : F64), F64.isNaN x = false →
    F64.isFinite (F64.div F64.one (exp10 (F64.div x F64.ten))) = true →
    exec (.setsnr x) s = .next
      { s with
        bps := bpsRead s.scheme
        ebn0 := x
        esn0 := F64.add x (esOff s.scheme)
        nvar := F64.div F64.one (F64.mul (exp10 (F64.div x F64.ten)) (F64.ofNat (bpsRead s.scheme).toNat))
        nsd := F64.sqrt (F64.div
          (F64.div F64.one (F64.mul (exp10 (F64.div x F64.ten)) (F64.ofNat (bpsRead s.scheme).toNat))) F64.two)
        phase := response 0#8 [] }

/-- Rule R81: every NaN, −∞, and every x whose BPSK variance is not finite is INVALID_ARGUMENT, with every register as
before but for ERRF; the two neighbouring values of the rule lie on its two sides. -/
def Obligations.SetsnrRefusesNanAndInfiniteVariance : Prop :=
  (∀ (s : State) (x : F64),
    F64.isNaN x = true ∨ x = 0xFFF0000000000000#64 ∨
      F64.isFinite (F64.div F64.one (exp10 (F64.div x F64.ten))) = false →
    exec (.setsnr x) s = .next (argumentRefused s)) ∧
  snrAccepted referenceMath 0xC0A8151824C7587F#64 = false ∧ snrAccepted referenceMath 0xC0A8151824C7587E#64 = true

/-- Rule R82: NVAR and NSD change only by SETSCH, SETSNR and reset. -/
def Obligations.OnlySetschSetsnrAndResetChangeNoise : Prop :=
  (∀ (i : Instr) (s t : State), (∀ c, i ≠ .setsch c) → (∀ x, i ≠ .setsnr x) → exec i s = .next t →
    t.nvar = s.nvar ∧ t.nsd = s.nsd) ∧
  (∀ s t : State, s.rstEdges = 0 → step s = .next t → (t.nvar ≠ s.nvar ∨ t.nsd ≠ s.nsd) →
    ∃ c i, decode c = .ok i ∧ ((∃ k, i = .setsch k) ∨ ∃ x, i = .setsnr x) ∧
      (s.phase = .exec c ∨ (s.phase = .idle ∧ s.cmdIn = c :: t.cmdIn)))

/-- Rule R83: RDREG answers with each of the seven registers and writes nothing. -/
def Obligations.RdregReturnsTheRegister : Prop :=
  ∀ s : State,
    exec (.rdreg .scheme) s = .next { s with phase := response 0#8 [beat ((schemeCode s.scheme).setWidth 64) 0#64 0#8] } ∧
    exec (.rdreg .bps) s = .next { s with phase := response 0#8 [beat (s.bps.setWidth 64) 0#64 0#8] } ∧
    exec (.rdreg .ebn0) s = .next { s with phase := response 0#8 [beat s.ebn0 0#64 0#8] } ∧
    exec (.rdreg .esn0) s = .next { s with phase := response 0#8 [beat s.esn0 0#64 0#8] } ∧
    exec (.rdreg .nvar) s = .next { s with phase := response 0#8 [beat s.nvar 0#64 0#8] } ∧
    exec (.rdreg .nsd) s = .next { s with phase := response 0#8 [beat s.nsd 0#64 0#8] } ∧
    exec (.rdreg .errf) s = .next { s with phase := response 0#8 [beat (s.errf.setWidth 64) 0#64 0#8] }

/-! ### Constellation commands -/

/-- Rule R84: BPSQ answers (k, 2^k, 0) for each of the five codes, whatever SCHEME holds. -/
def Obligations.BpsqReturnsWidthAndSize : Prop :=
  ∀ s : State,
    exec (.bpsq 0#8) s = .next { s with phase := response 0#8 [beat 1#64 2#64 0#8] } ∧
    exec (.bpsq 1#8) s = .next { s with phase := response 0#8 [beat 2#64 4#64 0#8] } ∧
    exec (.bpsq 2#8) s = .next { s with phase := response 0#8 [beat 3#64 8#64 0#8] } ∧
    exec (.bpsq 3#8) s = .next { s with phase := response 0#8 [beat 4#64 16#64 0#8] } ∧
    exec (.bpsq 4#8) s = .next { s with phase := response 0#8 [beat 6#64 64#64 0#8] }

/-- Rule R85: ROMRD below M answers the entry and writes nothing; from M on it is INVALID_ARGUMENT. -/
def Obligations.RomrdReturnsTheEntry : Prop :=
  ∀ (s : State) (i c : Byte) (sch : Scheme), (schemeCode sch).setWidth 8 = c →
    (i.toNat < alphabetSize sch → ∃ e, romRead sch i.toNat = some e ∧
      exec (.romrd i c) s = .next { s with phase := response 0#8 [beat e.i e.q (BitVec.ofNat 8 e.label)] }) ∧
    (alphabetSize sch ≤ i.toNat → exec (.romrd i c) s = .next (argumentRefused s))

/-- Rule R86: GENC answers the M entries in index order and writes nothing. -/
def Obligations.GencReturnsTheWholeAlphabet : Prop :=
  ∀ (s : State) (c : Byte) (sch : Scheme), (schemeCode sch).setWidth 8 = c →
    ∃ beats, exec (.genc c) s = .next { s with phase := response 0#8 beats } ∧
      beats.length = alphabetSize sch ∧
      ∀ j < alphabetSize sch, ∃ e, romRead sch j = some e ∧ beats[j]? = some (beat e.i e.q (BitVec.ofNat 8 e.label))

/-! ### The tables -/

/-- Rule R42: each table has 2^k entries, its labels are distinct and each k-bit label is present; the mean energy of the
ROM words in binary64 is 1.0, or 1.0000000000000002 for QPSK and 64-QAM. -/
def Obligations.AlphabetsAreCompleteAndNormalised : Prop :=
  (∀ sch : Scheme, (romTable sch).length = alphabetSize sch ∧ ((romTable sch).map RomEntry.label).Nodup ∧
    ∀ v < alphabetSize sch, ∃ e ∈ romTable sch, e.label = v) ∧
  (∀ sch : Scheme,
    F64.div (((romTable sch).map fun e => F64.add (F64.mul e.i e.i) (F64.mul e.q e.q)).foldl F64.add 0#64)
        (F64.ofNat (alphabetSize sch))
      = (match sch with
        | .bpsk => 0x3FF0000000000000#64
        | .qpsk => 0x3FF0000000000001#64
        | .psk8 => 0x3FF0000000000000#64
        | .qam16 => 0x3FF0000000000000#64
        | .qam64 => 0x3FF0000000000001#64))

/-- Rules R48, R49: the entry at index L·pI + pQ has the label G[pI] ++ G[pQ], and each coordinate is a binary64 value
nearest the exact real LV / √10 or LV / √42. -/
def Obligations.QamCoordinatesAreNearestScaledLevels : Prop :=
  (∀ pI < 4, ∀ pQ < 4, ∃ e, romRead .qam16 (4 * pI + pQ) = some e ∧
    e.label = 4 * (pI ^^^ (pI / 2)) + (pQ ^^^ (pQ / 2)) ∧
    NearestTo ((2 * (pI : ℝ) - 3) / Real.sqrt 10) e.i ∧ NearestTo ((2 * (pQ : ℝ) - 3) / Real.sqrt 10) e.q) ∧
  (∀ pI < 8, ∀ pQ < 8, ∃ e, romRead .qam64 (8 * pI + pQ) = some e ∧
    e.label = 8 * (pI ^^^ (pI / 2)) + (pQ ^^^ (pQ / 2)) ∧
    NearestTo ((2 * (pI : ℝ) - 7) / Real.sqrt 42) e.i ∧ NearestTo ((2 * (pQ : ℝ) - 7) / Real.sqrt 42) e.q)

/-- Rules R45, R46, R47: entry j of the BPSK table is the point (cos(j·π), sin(j·π)) with label j; entry j of the QPSK
table is the point of quadrant j + 1 on the unit circle's diagonal, and entry j of the 8-PSK table the point
(cos(j·π/4), sin(j·π/4)), both with the Gray codes as labels in that order; each coordinate is the nearest binary64
value, and an exact 0 is held as +0 (rule R44). -/
def Obligations.PskPointsLieAtTheirAngles : Prop :=
  (∀ j < 2, ∃ e, romRead .bpsk j = some e ∧ e.label = j ∧
    NearestTo (Real.cos (j * Real.pi)) e.i ∧ NearestTo (Real.sin (j * Real.pi)) e.q ∧
    e.i ≠ 0x8000000000000000#64 ∧ e.q ≠ 0x8000000000000000#64) ∧
  (∀ j < 4, ∃ e, romRead .qpsk j = some e ∧ e.label = j ^^^ (j / 2) ∧
    NearestTo (Real.cos (Real.pi / 4 + j * (Real.pi / 2))) e.i ∧
    NearestTo (Real.sin (Real.pi / 4 + j * (Real.pi / 2))) e.q) ∧
  (∀ j < 8, ∃ e, romRead .psk8 j = some e ∧ e.label = j ^^^ (j / 2) ∧
    NearestTo (Real.cos (j * (Real.pi / 4))) e.i ∧ NearestTo (Real.sin (j * (Real.pi / 4))) e.q ∧
    e.i ≠ 0x8000000000000000#64 ∧ e.q ≠ 0x8000000000000000#64)

/-- Rule R40: each entry of the ESOFF table is the binary64 value nearest 10·log10(k), and is the word of the table. -/
def Obligations.EsoffIsTheNearestDecibelValue : Prop :=
  (∀ sch : Scheme, NearestTo (10 * Real.logb 10 ((bpsRead sch).toNat : ℝ)) (esOff sch)) ∧
  esOff .bpsk = 0x0000000000000000#64 ∧ esOff .qpsk = 0x4008151824C7587F#64 ∧ esOff .psk8 = 0x401315B8BDF1E5BE#64 ∧
  esOff .qam16 = 0x4018151824C7587F#64 ∧ esOff .qam64 = 0x401F2044D05591FD#64

/-- Rule R50: LutIndex(s, v) is the one index whose entry carries the label v; for QAM it is the inverse Gray code of
each half of the label. -/
def Obligations.LookupTableInvertsTheLabels : Prop :=
  (∀ sch : Scheme, ∀ v < alphabetSize sch, ∃ i < alphabetSize sch, lutIndex sch v = some i ∧
    ∀ j e, romRead sch j = some e → (e.label = v ↔ j = i)) ∧
  (∀ pI < 4, ∀ pQ < 4, lutIndex .qam16 (4 * (pI ^^^ (pI / 2)) + (pQ ^^^ (pQ / 2))) = some (4 * pI + pQ)) ∧
  (∀ pI < 8, ∀ pQ < 8, lutIndex .qam64 (8 * (pI ^^^ (pI / 2)) + (pQ ^^^ (pQ / 2))) = some (8 * pI + pQ))

/-- Rules R37, R54: the ROM has 94 entries in all; entry (s, i) stands at flat address BASE(s) + i, with BASE =
[0, 2, 6, 14, 30]; a read outside 0..M(s)−1 has no entry, and nor have flat addresses from 94 on. -/
def Obligations.FlatRomHoldsEveryEntryAtItsBase : Prop :=
  (∀ sch i, (i < alphabetSize sch → flatRom[romBase sch + i]? = romRead sch i ∧ (romRead sch i).isSome = true) ∧
    (alphabetSize sch ≤ i → romRead sch i = none)) ∧
  (∀ a, 94 ≤ a → flatRom[a]? = none) ∧
  (romBase .bpsk = 0 ∧ romBase .qpsk = 2 ∧ romBase .psk8 = 6 ∧ romBase .qam16 = 14 ∧ romBase .qam64 = 30)

/-! ### Modulator and demodulator -/

/-- Rule R87: with BPS the width of SCHEME, a string of n ≤ 64 bits without stray bits gives ⌊n/k⌋ beats in string order;
beat j is the ROM point whose label is bits b[jk] .. b[jk+k−1], b[jk] most significant, where b[m] = A[n−1−m];
nothing else is written. -/
def Obligations.ModMapsEachGroupToItsPoint : Prop :=
  ∀ (s : State) (n : Byte) (a : Word64) (k : Nat),
    s.bps = bpsRead s.scheme → k = s.bps.toNat → n.toNat ≤ 64 → a.toNat < 2 ^ n.toNat →
    ∃ beats, exec (.mod n a) s = .next { s with phase := response 0#8 beats } ∧ beats.length = n.toNat / k ∧
      ∀ j < n.toNat / k, ∃ idx e, romRead s.scheme idx = some e ∧
        beats[j]? = some (beat e.i e.q (BitVec.ofNat 8 e.label)) ∧ e.label < 2 ^ k ∧
        ∀ t < k, e.label.testBit (k - 1 - t) = a.getLsbD (n.toNat - 1 - (j * k + t))

/-- Rules R67, R87, R91: a bit-string operand of length n with a 1 in w[63:n] ends with INVALID_ARGUMENT, for n = 64 there
being no such bit; so do unequal lengths of HAM. -/
def Obligations.StrayBitsAndUnequalLengthsAreRefused : Prop :=
  (∀ (s : State) (n : Byte) (a : Word64), n.toNat ≤ 64 → 2 ^ n.toNat ≤ a.toNat →
    n.toNat < 64 ∧ exec (.mod n a) s = .next (argumentRefused s)) ∧
  (∀ (s : State) (na nb : Byte) (a b : Word64), na.toNat ≤ 64 → nb.toNat ≤ 64 →
    (na ≠ nb ∨ 2 ^ na.toNat ≤ a.toNat ∨ 2 ^ na.toNat ≤ b.toNat) →
    exec (.ham na nb a b) s = .next (argumentRefused s))

/-- Rule R88: a string split at a whole number of groups is modulated by two MOD commands; the beats of the whole are
those of the first followed by those of the second. -/
def Obligations.SplitStringsModulateToTheSameBeats : Prop :=
  ∀ (s : State) (n m : Byte) (a b : Word64) (g : Nat),
    s.bps = bpsRead s.scheme → n.toNat = g * s.bps.toNat → n.toNat + m.toNat ≤ 64 →
    a.toNat < 2 ^ n.toNat → b.toNat < 2 ^ m.toNat →
    ∃ first second, exec (.mod n a) s = .next { s with phase := response 0#8 first } ∧
      exec (.mod m b) s = .next { s with phase := response 0#8 second } ∧
      exec (.mod (n + m) (BitVec.ofNat 64 (a.toNat * 2 ^ m.toNat + b.toNat))) s
        = .next { s with phase := response 0#8 (first ++ second) }

/-- Rule R89: for a finite sample DET answers a point of the current alphabet whose binary64 distance D2 no other point
goes below, and of the points at that distance the one of lowest index; nothing else is written. -/
def Obligations.DetReturnsTheFirstNearestPoint : Prop :=
  ∀ (s : State) (x y : F64), s.bps = bpsRead s.scheme → F64.isFinite x = true → F64.isFinite y = true →
    ∃ best e, best < alphabetSize s.scheme ∧ romRead s.scheme best = some e ∧
      exec (.det x y) s = .next { s with phase := response 0#8 [beat e.i e.q (BitVec.ofNat 8 e.label)] } ∧
      ∀ j f, romRead s.scheme j = some f →
        F64.le (dist2 ⟨x, y⟩ e) (dist2 ⟨x, y⟩ f) = true ∧
        (j < best → F64.lt (dist2 ⟨x, y⟩ e) (dist2 ⟨x, y⟩ f) = true)

/-- Rules R89, R96: an infinity or a NaN in I or Q is INVALID_ARGUMENT for DET and AWGN, and AWGN takes no draw. -/
def Obligations.NonFiniteSamplesAreRefused : Prop :=
  ∀ (s : State) (x y : F64), F64.isFinite x = false ∨ F64.isFinite y = false →
    exec (.det x y) s = .next (argumentRefused s) ∧ exec (.awgn x y) s = .next (argumentRefused s)

/-- Rule R89: "An ideal point returns its own label": every entry of the current alphabet is detected as itself. -/
def Obligations.IdealPointsAreDetectedAsThemselves : Prop :=
  ∀ (s : State) (j : Nat) (e : RomEntry), s.bps = bpsRead s.scheme → romRead s.scheme j = some e →
    exec (.det e.i e.q) s = .next { s with phase := response 0#8 [beat e.i e.q (BitVec.ofNat 8 e.label)] }

/-- The round trip at zero noise (rules R87, R89, R96): a label is modulated to a point, the channel with NSD = +0 returns
that point for every draw that meets the contract, and the detector gives the label back. -/
def Obligations.NoiselessRoundTripGivesTheLabelBack : Prop :=
  ∀ (s : State) (v : Word64) (d : Draw) (ds : List Draw),
    s.bps = bpsRead s.scheme → s.nsd = 0#64 → v.toNat < alphabetSize s.scheme → s.drawIn = d :: ds → d.ok = true →
    ∃ x y l, l = v.setWidth 8 ∧
      exec (.mod (s.bps.setWidth 8) v) s = .next { s with phase := response 0#8 [beat x y l] } ∧
      exec (.awgn x y) s = .next { s with drawIn := ds, phase := response 0#8 [beat x y 0#8] } ∧
      exec (.det x y) { s with drawIn := ds }
        = .next { s with drawIn := ds, phase := response 0#8 [beat x y l] }

/-- Rule R91: two strings of one length n ≤ 64 without stray bits give the number of positions at which they differ, and
nothing else is written. -/
def Obligations.HamCountsDifferingPositions : Prop :=
  ∀ (s : State) (n : Byte) (a b : Word64), n.toNat ≤ 64 → a.toNat < 2 ^ n.toNat → b.toNat < 2 ^ n.toNat →
    ∃ count, count = ((Finset.range n.toNat).filter fun j => a.getLsbD j ≠ b.getLsbD j).card ∧
      exec (.ham n n a b) s = .next { s with phase := response 0#8 [beat (BitVec.ofNat 64 count) 0#64 0#8] }

/-- Rule R91: HAM is symmetric, and its result is 0 exactly when the strings are equal. -/
def Obligations.HamIsSymmetricAndZeroOnlyOnEqualStrings : Prop :=
  ∀ (s : State) (na nb : Byte) (a b : Word64),
    exec (.ham na nb a b) s = exec (.ham nb na b a) s ∧
    (na = nb → na.toNat ≤ 64 → a.toNat < 2 ^ na.toNat → b.toNat < 2 ^ na.toNat →
      (exec (.ham na nb a b) s = .next { s with phase := response 0#8 [beat 0#64 0#64 0#8] } ↔ a = b))

/-! ### Channel -/

/-- Rule R96 with rule R94: with NSD not zero and a draw that meets the contract, AWGN takes that draw and answers the
input plus NSD times the two Box-Muller values; nothing else is written. -/
def Obligations.AwgnAddsScaledBoxMullerNoise : Prop :=
  ∀ (s : State) (x y : F64) (d : Draw) (ds : List Draw),
    F64.isFinite x = true → F64.isFinite y = true → s.drawIn = d :: ds → d.ok = true → F64.isZero s.nsd = false →
    ∃ v1 rad th outI outQ,
      v1 = (if F64.lt d.u1 s.u1Floor then s.u1Floor else d.u1) ∧
      rad = F64.sqrt (F64.mul 0xC000000000000000#64 (ln v1)) ∧
      th = F64.mul 0x401921FB54442D18#64 d.u2 ∧
      outI = F64.add x (F64.mul s.nsd (F64.mul rad (cos th))) ∧
      outQ = F64.add y (F64.mul s.nsd (F64.mul rad (sin th))) ∧
      exec (.awgn x y) s = .next { s with drawIn := ds, phase := response 0#8 [beat outI outQ 0#8] }

/-- Rule R96: with NSD zero the output words are the input words bit for bit, and the draw is still taken. -/
def Obligations.AwgnPassesThroughAtZeroNoise : Prop :=
  ∀ (s : State) (x y : F64) (d : Draw) (ds : List Draw),
    F64.isFinite x = true → F64.isFinite y = true → s.drawIn = d :: ds → d.ok = true → F64.isZero s.nsd = true →
    exec (.awgn x y) s = .next { s with drawIn := ds, phase := response 0#8 [beat x y 0#8] }

/-- Rules R92, R113: without a draw AWGN waits in WAIT_DRAW with nothing else changed, for as many steps as none comes;
when a draw comes it ends as if it had been there at once. -/
def Obligations.AwgnWaitsForItsDraw : Prop :=
  ∀ (s : State) (x y : F64), F64.isFinite x = true → F64.isFinite y = true → s.drawIn = [] →
    exec (.awgn x y) s = .next { s with phase := .waitDraw x y } ∧
    (s.rstEdges = 0 → (∀ k, core.run k { s with phase := .waitDraw x y } = .next { s with phase := .waitDraw x y }) ∧
      ∀ ds, step { s with phase := .waitDraw x y, drawIn := ds }
        = exec (.awgn x y) { s with drawIn := ds })

/-- Rule R93: a draw that is NaN, negative, or 1 or more is a fault of the AWGN that took it. -/
def Obligations.DrawOutsideContractIsAFault : Prop :=
  ∀ (s : State) (x y : F64) (d : Draw) (ds : List Draw),
    F64.isFinite x = true → F64.isFinite y = true → s.drawIn = d :: ds →
    (F64.isNaN d.u1 = true ∨ F64.lt d.u1 0#64 = true ∨ F64.le F64.one d.u1 = true ∨
      F64.isNaN d.u2 = true ∨ F64.lt d.u2 0#64 = true ∨ F64.le F64.one d.u2 = true) →
    exec (.awgn x y) s = .fault .drawOutOfContract

/-- Rule R27, for every EXP10 with the named properties of rule R14: NVAR and NSD are finite and not negative for every
accepted Eb/N0 and every scheme, and NVAR is +0 exactly when the linear Es/N0 is +∞. -/
def Obligations.NoiseVarianceIsAlwaysFinite : Prop :=
  ∀ (m : Config.MathLib) (x : F64) (sch : Scheme), Exp10NonNegative m → snrAccepted m x = true →
    F64.isFinite (derive m x sch).nvar = true ∧ F64.sign (derive m x sch).nvar = false ∧
    F64.isFinite (derive m x sch).nsd = true ∧ F64.sign (derive m x sch).nsd = false ∧
    ((derive m x sch).nvar = 0#64 ↔
      F64.mul (m.exp10 (F64.div x F64.ten)) (F64.ofNat (bpsRead sch).toNat) = F64.posInf)

/-- Rule R96, for every LN, COS and SIN with the named properties of rule R14, every legal `U1_FLOOR` and every draw that
meets the contract: with NSD at most SQRT(MAX ⊘ 2) the output of a finite sample is finite.
"NSD is at most SQRT(MAX ⊘ 2)" in every state with the invariant, where NSD comes from the reference EXP10 (assumption
log 3). -/
def Obligations.NoisySampleIsAlwaysFinite : Prop :=
  (∀ (m : Config.MathLib) (u1Floor nsd : F64) (d : Draw) (r : Sample),
    LnBounded m → TrigBounded m → F64.lt 0#64 u1Floor = true → F64.lt u1Floor F64.one = true → d.ok = true →
    F64.le 0#64 nsd = true → F64.le nsd (F64.sqrt (F64.div 0x7FEFFFFFFFFFFFFF#64 F64.two)) = true →
    r.isFinite = true → (noisySample m u1Floor nsd d r).isFinite = true) ∧
  (∀ s : State, Inv s →
    F64.le 0#64 s.nsd = true ∧ F64.le s.nsd (F64.sqrt (F64.div 0x7FEFFFFFFFFFFFFF#64 F64.two)) = true)

/-- Rule R97: AWGN of (+0, +0) gives NSD ⊗ zI and NSD ⊗ zQ, "except that a term equal to −0 gives +0", and (+0, +0) when
NSD = +0; for every finite pair of terms. -/
def Obligations.NoiseAloneIsScaledNormalPair : Prop :=
  ∀ (m : Config.MathLib) (u1Floor nsd tI tQ : F64) (d : Draw),
    tI = F64.mul nsd (boxMuller m u1Floor d).i → tQ = F64.mul nsd (boxMuller m u1Floor d).q →
    F64.isFinite tI = true → F64.isFinite tQ = true →
    (F64.isZero nsd = true → noisySample m u1Floor nsd d ⟨0#64, 0#64⟩ = ⟨0#64, 0#64⟩) ∧
    (F64.isZero nsd = false →
      noisySample m u1Floor nsd d ⟨0#64, 0#64⟩
        = ⟨if F64.isZero tI then 0#64 else tI, if F64.isZero tQ then 0#64 else tQ⟩)

/-! ### Binary64 arithmetic -/

/-- Rules R12, R13: a quotient of integers of units is rounded to a nearest magnitude, and on a tie to the one with an even
last bit; it is infinite exactly from the value halfway past the largest finite one. -/
def Obligations.RoundingIsToNearestTiesToEven : Prop :=
  ∀ n d : Nat, 0 < d →
    (F64.roundUnits n d = F64.infBits ↔ ((2 ^ 54 - 1) * 2 ^ 2044) * d ≤ n) ∧
    (F64.roundUnits n d < F64.infBits →
      ∀ c < F64.infBits,
        |(n : ℚ) / d - F64.units (F64.ofSignMag false (F64.roundUnits n d))|
          ≤ |(n : ℚ) / d - F64.units (F64.ofSignMag false c)| ∧
        (|(n : ℚ) / d - F64.units (F64.ofSignMag false (F64.roundUnits n d))|
            = |(n : ℚ) / d - F64.units (F64.ofSignMag false c)| →
          c ≠ F64.roundUnits n d → F64.roundUnits n d % 2 = 0))

/-- Rule R12, of finite operands: "the exact real result, rounded once", to nearest, ties to even, for ⊕, ⊖, ⊗, ⊘ by a
value that is not zero, and SQRT of a value that is not negative; so the result is no NaN, it is finite exactly when the
exact magnitude is below the halfway point past MAX, and from there on the infinity of the exact sign.
The zeros are those of IEEE 754, as is a non-zero value over a zero. -/
def Obligations.ArithmeticIsTheExactResultRoundedOnce : Prop :=
  ∀ a b : F64, F64.isFinite a = true → F64.isFinite b = true →
    RoundsTo ((F64.value a : ℝ) / 2 ^ 1074 + (F64.value b : ℝ) / 2 ^ 1074) (F64.add a b) ∧
    RoundsTo ((F64.value a : ℝ) / 2 ^ 1074 - (F64.value b : ℝ) / 2 ^ 1074) (F64.sub a b) ∧
    RoundsTo (((F64.value a : ℝ) / 2 ^ 1074) * ((F64.value b : ℝ) / 2 ^ 1074)) (F64.mul a b) ∧
    (F64.isZero b = false → RoundsTo ((F64.value a : ℝ) / (F64.value b : ℝ)) (F64.div a b)) ∧
    (F64.sign a = false → RoundsTo (Real.sqrt ((F64.value a : ℝ) / 2 ^ 1074)) (F64.sqrt a)) ∧
    (F64.value a + F64.value b = 0 → F64.add a b = F64.ofSignMag (F64.sign a && F64.sign b) 0) ∧
    (F64.value a = F64.value b → F64.sub a b = F64.ofSignMag (F64.sign a && !F64.sign b) 0) ∧
    (F64.isZero a = true ∨ F64.isZero b = true → F64.mul a b = F64.ofSignMag (F64.sign a != F64.sign b) 0) ∧
    (F64.isZero a = true → F64.isZero b = false → F64.div a b = F64.ofSignMag (F64.sign a != F64.sign b) 0) ∧
    (F64.isZero a = false → F64.isZero b = true → F64.div a b = F64.ofSignMag (F64.sign a != F64.sign b) F64.infBits) ∧
    (F64.isZero a = true → F64.sqrt a = a)

/-- Rule R12: "a < b is the IEEE ordered less-than: false when either operand is NaN"; of finite operands it is the order
of the exact values; −∞ is below every finite value and below +∞, every finite value is below +∞, nothing is below −∞
and +∞ is below nothing, itself included, so that distances that overflow tie (rule R89); ≤ is the order that goes with
it. -/
def Obligations.LessThanIsTheOrderOfExactValues : Prop :=
  (∀ a b : F64, F64.isFinite a = true → F64.isFinite b = true →
    (F64.lt a b = true ↔ F64.value a < F64.value b) ∧ (F64.le a b = true ↔ F64.value a ≤ F64.value b)) ∧
  (∀ a : F64, F64.isFinite a = true → F64.lt 0xFFF0000000000000#64 a = true ∧ F64.lt a F64.posInf = true) ∧
  F64.lt 0xFFF0000000000000#64 F64.posInf = true ∧
  (∀ a : F64, F64.lt F64.posInf a = false ∧ F64.lt a 0xFFF0000000000000#64 = false) ∧
  (∀ a b : F64, F64.isNaN a = false → F64.isNaN b = false → F64.le a b = !F64.lt b a) ∧
  (∀ a b : F64, F64.isNaN a = true ∨ F64.isNaN b = true → F64.lt a b = false ∧ F64.le a b = false)

/-! ### The reference functions -/

/-- Rule R14, EXP10, with assumption log 3: the enclosure at every working precision from 64 bits on holds the exact
10^x of a finite x. -/
def Obligations.Exp10EnclosureHoldsTheExactPower : Prop :=
  ∀ (x : F64) (p : Nat), F64.isFinite x = true → 64 ≤ p →
    Encloses (exp10Enclosure (F64.value x) p) ((10 : ℝ) ^ ((F64.value x : ℝ) / 2 ^ 1074))

/-- Rule R14, LN, with assumption log 3: the enclosure holds the exact ln x of every x with 0 < x < 1. -/
def Obligations.LnEnclosureHoldsTheExactLogarithm : Prop :=
  ∀ (x : F64) (p : Nat), F64.lt 0#64 x = true → F64.lt x F64.one = true → 64 ≤ p →
    Encloses (lnEnclosure (F64.units x) p) (Real.log ((F64.value x : ℝ) / 2 ^ 1074))

/-- Rule R14, COS and SIN, with assumption log 3: the enclosures hold the exact cosine and sine of the
magnitude of every finite x. -/
def Obligations.TrigEnclosuresHoldTheExactValues : Prop :=
  ∀ (x : F64) (p : Nat), F64.isFinite x = true → 64 ≤ p →
    Encloses (cosEnclosure (F64.units x) p) (Real.cos ((F64.units x : ℝ) / 2 ^ 1074)) ∧
    Encloses (sinEnclosure (F64.units x) p) (Real.sin ((F64.units x : ℝ) / 2 ^ 1074))

/-- Rules R13, R14, with assumption log 3: where both ends of an enclosure round to one word, that word is every real the
enclosure holds, rounded once; so EXP10, LN, COS and SIN answer the exact value rounded once wherever one of the working
precisions settles, which is what log 3 presumes.
EXP10 needs no precision where |x| ≥ 400, nor do COS and SIN of a zero. -/
def Obligations.SettledEnclosureGivesANearestValue : Prop :=
  (∀ (e : Enclosure) (v : ℝ) (w : F64), Encloses e v → e.settled = some w → RoundsTo v w) ∧
  (∀ x : F64, F64.isFinite x = true →
    400 * (F64.oneUnits : Int) ≤ |F64.value x| ∨ Settles (exp10Enclosure (F64.value x)) →
    RoundsTo ((10 : ℝ) ^ ((F64.value x : ℝ) / 2 ^ 1074)) (exp10 x)) ∧
  (∀ x : F64, F64.lt 0#64 x = true → F64.lt x F64.one = true → Settles (lnEnclosure (F64.units x)) →
    RoundsTo (Real.log ((F64.value x : ℝ) / 2 ^ 1074)) (ln x)) ∧
  (∀ x : F64, F64.isFinite x = true → F64.isZero x = true ∨ Settles (cosEnclosure (F64.units x)) →
    RoundsTo (Real.cos ((F64.value x : ℝ) / 2 ^ 1074)) (cos x)) ∧
  (∀ x : F64, F64.isFinite x = true → F64.isZero x = true ∨ Settles (sinEnclosure (F64.units x)) →
    RoundsTo (Real.sin ((F64.value x : ℝ) / 2 ^ 1074)) (sin x))

/-- Rule R14, the named properties that the other rules rest on, of the reference functions (assumption log 3);
the values at the whole exponents and at the infinities among them. Monotonicity of EXP10 is not stated here. -/
def Obligations.ReferenceFunctionsHaveTheNamedProperties : Prop :=
  Exp10NonNegative referenceMath ∧ LnBounded referenceMath ∧ TrigBounded referenceMath ∧
  (∀ n ≤ 22, exp10 (F64.ofNat n) = F64.ofNat (10 ^ n)) ∧
  exp10 F64.posInf = F64.posInf ∧ exp10 0xFFF0000000000000#64 = 0#64
end

