-- ==== Sys2Proof/Laws/Decode.lean ====
section
/-! SUPPORT. The fields of a command word, and the opcode map read field by field. -/

namespace Sys2Proof

/-! ### A word built from its fields -/

theorem wordOf_toNat (o a b : Byte) :
    (wordOf o a b).toNat = o.toNat * 2 ^ 24 + a.toNat * 2 ^ 16 + b.toNat * 2 ^ 8 := by
  have ha := a.isLt
  have hb := b.isLt
  simp only [wordOf, BitVec.toNat_append, BitVec.toNat_ofNat]
  rw [← Nat.shiftLeft_add_eq_or_of_lt ha, ← Nat.shiftLeft_add_eq_or_of_lt hb,
    ← Nat.shiftLeft_add_eq_or_of_lt (by decide : 0 % 2 ^ 8 < 2 ^ 8)]
  simp only [Nat.shiftLeft_eq]
  omega

theorem opcField_toNat (w : Word32) : (opcField w).toNat = w.toNat / 2 ^ 24 % 256 := by
  simp [opcField, BitVec.extractLsb'_toNat, Nat.shiftRight_eq_div_pow]

theorem faField_toNat (w : Word32) : (faField w).toNat = w.toNat / 2 ^ 16 % 256 := by
  simp [faField, BitVec.extractLsb'_toNat, Nat.shiftRight_eq_div_pow]

theorem fbField_toNat (w : Word32) : (fbField w).toNat = w.toNat / 2 ^ 8 % 256 := by
  simp [fbField, BitVec.extractLsb'_toNat, Nat.shiftRight_eq_div_pow]

theorem rsvField_toNat (w : Word32) : (rsvField w).toNat = w.toNat % 256 := by
  simp [rsvField]

@[simp] theorem opcField_wordOf (o a b : Byte) : opcField (wordOf o a b) = o := by
  have := o.isLt; have := a.isLt; have := b.isLt
  apply BitVec.eq_of_toNat_eq
  rw [opcField_toNat, wordOf_toNat]; omega

@[simp] theorem faField_wordOf (o a b : Byte) : faField (wordOf o a b) = a := by
  have := o.isLt; have := a.isLt; have := b.isLt
  apply BitVec.eq_of_toNat_eq
  rw [faField_toNat, wordOf_toNat]; omega

@[simp] theorem fbField_wordOf (o a b : Byte) : fbField (wordOf o a b) = b := by
  have := o.isLt; have := a.isLt; have := b.isLt
  apply BitVec.eq_of_toNat_eq
  rw [fbField_toNat, wordOf_toNat]; omega

@[simp] theorem rsvField_wordOf (o a b : Byte) : rsvField (wordOf o a b) = 0#8 := by
  apply BitVec.eq_of_toNat_eq
  rw [rsvField_toNat, wordOf_toNat]; simp; omega

/-- A word with RSV = 0 is the word of its fields. -/
theorem wordOf_fields (w : Word32) (h : rsvField w = 0#8) : wordOf (opcField w) (faField w) (fbField w) = w := by
  have hw := w.isLt
  have h0 : w.toNat % 256 = 0 := by rw [← rsvField_toNat, h]; rfl
  apply BitVec.eq_of_toNat_eq
  rw [wordOf_toNat, opcField_toNat, faField_toNat, fbField_toNat]; omega

/-! ### The opcode map, field by field -/

/-- The three kinds of mask of rule R70 with RSV = 0: FA and FB both fixed, FB free, FA free, or both free. -/
theorem wordOf_and_full (o a b : Byte) : wordOf o a b &&& 0xFFFFFFFF#32 = wordOf o a b :=
  BitVec.and_allOnes

/-- The mask of four bytes acts byte by byte. -/
theorem append_and_bytes (a b c d a' b' c' d' : Byte) :
    ((a ++ b ++ c ++ d : BitVec (8 + 8 + 8 + 8)) &&& (a' ++ b' ++ c' ++ d'))
      = (a &&& a') ++ (b &&& b') ++ (c &&& c') ++ (d &&& d') := by
  rw [BitVec.and_append, BitVec.and_append, BitVec.and_append]

theorem byte_and_ones (a : Byte) : a &&& 0xFF#8 = a := BitVec.and_allOnes

theorem wordOf_and_fbFree (o a b : Byte) : wordOf o a b &&& 0xFFFF00FF#32 = wordOf o a 0#8 := by
  refine (append_and_bytes o a b 0#8 0xFF#8 0xFF#8 0x00#8 0xFF#8).trans ?_
  simp only [byte_and_ones, BitVec.and_zero]; rfl

theorem wordOf_and_faFree (o a b : Byte) : wordOf o a b &&& 0xFF00FFFF#32 = wordOf o 0#8 b := by
  refine (append_and_bytes o a b 0#8 0xFF#8 0x00#8 0xFF#8 0xFF#8).trans ?_
  simp only [byte_and_ones, BitVec.and_zero]; rfl

theorem wordOf_and_bothFree (o a b : Byte) : wordOf o a b &&& 0xFF0000FF#32 = wordOf o 0#8 0#8 := by
  refine (append_and_bytes o a b 0#8 0xFF#8 0x00#8 0x00#8 0xFF#8).trans ?_
  simp only [byte_and_ones, BitVec.and_zero]; rfl

theorem wordOf_inj {o a b o' a' b' : Byte} : wordOf o a b = wordOf o' a' b' ↔ o = o' ∧ a = a' ∧ b = b' := by
  constructor
  · intro h
    refine ⟨?_, ?_, ?_⟩
    · simpa using congrArg opcField h
    · simpa using congrArg faField h
    · simpa using congrArg fbField h
  · rintro ⟨rfl, rfl, rfl⟩; rfl

/-- No two rows overlap (rule R70). -/
theorem opcodeMap_disjoint :
    opcodeMap.Pairwise (fun r r' => opcField r.pattern ≠ opcField r'.pattern) := by decide

/-! ### Read-back numbers and lengths -/

@[simp] theorem RegName.ofNumber_number (r : RegName) : RegName.ofNumber r.number = some r := by
  cases r <;> rfl

theorem RegName.ofNumber_eq_some {n : Byte} {r : RegName} (h : RegName.ofNumber n = some r) : r.number = n := by
  revert h; revert r; revert n; decide

@[simp] theorem lengthOk_iff (n : Byte) : lengthOk n = true ↔ n.toNat ≤ 64 := by
  unfold lengthOk Config.maxBits
  exact decide_eq_true_iff

end Sys2Proof
end

