-- ==== Sys2Proof/Laws/Float.lean ====
section
/-! SUPPORT. The first facts about binary64 words: their parts, and the bounds of the rounding operations. -/

namespace Sys2Proof.F64

theorem infBits_lt : infBits < 2 ^ 63 := by decide

theorem mag_lt (x : F64) : mag x < 2 ^ 63 := Nat.mod_lt _ (by decide)

/-- A word is its sign and its magnitude bits. -/
theorem sign_eq (x : F64) : sign x = decide (2 ^ 63 ≤ x.toNat) := by
  have hx := x.isLt
  simp only [sign, BitVec.getLsbD, Nat.testBit, Nat.shiftRight_eq_div_pow]
  have : x.toNat / 2 ^ 63 = 0 ∨ x.toNat / 2 ^ 63 = 1 := by omega
  rcases this with h | h <;> rw [h]
  · simp; omega
  · simp; omega

@[simp] theorem mag_ofSignMag (s : Bool) (m : Nat) (h : m < 2 ^ 63) : mag (ofSignMag s m) = m := by
  cases s <;> simp only [mag, ofSignMag, BitVec.toNat_ofNat, if_true, Bool.false_eq_true, if_false] <;> omega

@[simp] theorem sign_ofSignMag (s : Bool) (m : Nat) (h : m < 2 ^ 63) : sign (ofSignMag s m) = s := by
  rw [sign_eq]
  cases s <;> simp only [ofSignMag, BitVec.toNat_ofNat, if_true, Bool.false_eq_true, if_false,
    decide_eq_true_eq, decide_eq_false_iff_not] <;> omega

theorem ofSignMag_sign_mag (x : F64) : ofSignMag (sign x) (mag x) = x := by
  have hx := x.isLt
  apply BitVec.eq_of_toNat_eq
  rw [sign_eq]
  by_cases h : 2 ^ 63 ≤ x.toNat
  · simp only [ofSignMag, mag, h, decide_true, if_true, BitVec.toNat_ofNat]; omega
  · simp only [ofSignMag, mag, h, decide_false, Bool.false_eq_true, if_false, BitVec.toNat_ofNat]; omega

/-- Rounding never passes the infinity. -/
theorem roundUnits_le (n d : Nat) : roundUnits n d ≤ infBits := Nat.min_le_right _ _

theorem roundUnits_lt (n d : Nat) : roundUnits n d < 2 ^ 63 := lt_of_le_of_lt (roundUnits_le n d) infBits_lt

/-- A rounded magnitude is never a NaN. -/
theorem isNaN_ofSignMag_roundUnits (s : Bool) (n d : Nat) : isNaN (ofSignMag s (roundUnits n d)) = false := by
  have := roundUnits_le n d
  simp only [isNaN, mag_ofSignMag s _ (roundUnits_lt n d), decide_eq_false_iff_not]
  omega

theorem isNaN_rne (num : Int) (den : Nat) : isNaN (rne num den) = false := isNaN_ofSignMag_roundUnits _ _ _

/-- A finite value is neither a NaN nor an infinity. -/
theorem isFinite_iff (x : F64) : isFinite x = true ↔ isNaN x = false ∧ isInf x = false := by
  simp only [isFinite, isNaN, isInf, decide_eq_true_eq, decide_eq_false_iff_not]
  omega

/-- The bits of the root found so far stay below the root, and the rest of it is below the next bit. -/
theorem isqrtFrom_spec (i m r : Nat) (hl : r * r ≤ m) (hu : m < (r + 2 ^ i) * (r + 2 ^ i)) :
    isqrtFrom i m r * isqrtFrom i m r ≤ m ∧ m < (isqrtFrom i m r + 1) * (isqrtFrom i m r + 1) := by
  induction i generalizing r with
  | zero => exact ⟨hl, by simpa [isqrtFrom] using hu⟩
  | succ i ih =>
    simp only [isqrtFrom]
    split
    · next h =>
      refine ih _ h ?_
      have : r + 2 ^ i + 2 ^ i = r + 2 ^ (i + 1) := by rw [pow_succ]; omega
      rwa [this]
    · next h => exact ih _ hl (by omega)

/-- `isqrt m` is the floor of the square root of m. -/
theorem isqrt_spec (m : Nat) : isqrt m * isqrt m ≤ m ∧ m < (isqrt m + 1) * (isqrt m + 1) := by
  refine isqrtFrom_spec _ m 0 (by simp) ?_
  have h : m < 2 ^ (m.log2 + 1) := Nat.lt_log2_self
  refine lt_of_lt_of_le h ?_
  rw [Nat.zero_add, ← pow_add]
  exact Nat.pow_le_pow_right (by decide) (by omega)

end Sys2Proof.F64
end

