-- ==== Sys2Proof/Laws/State.lean ====
section
/-! SUPPORT. What each shared update of the state does to each field. -/

namespace Sys2Proof.Machine

variable (s : State)

/-! ### Ending a command with OK -/

@[simp] theorem State.respond_scheme (bs : List Beat) : (s.respond bs).scheme = s.scheme := rfl

@[simp] theorem State.respond_bps (bs : List Beat) : (s.respond bs).bps = s.bps := rfl

@[simp] theorem State.respond_ebn0 (bs : List Beat) : (s.respond bs).ebn0 = s.ebn0 := rfl

@[simp] theorem State.respond_esn0 (bs : List Beat) : (s.respond bs).esn0 = s.esn0 := rfl

@[simp] theorem State.respond_nvar (bs : List Beat) : (s.respond bs).nvar = s.nvar := rfl

@[simp] theorem State.respond_nsd (bs : List Beat) : (s.respond bs).nsd = s.nsd := rfl

@[simp] theorem State.respond_errf (bs : List Beat) : (s.respond bs).errf = s.errf := rfl

@[simp] theorem State.respond_phase (bs : List Beat) : (s.respond bs).phase = .resp (headerBeat .ok bs.length) bs := rfl

@[simp] theorem State.respond_rstEdges (bs : List Beat) : (s.respond bs).rstEdges = s.rstEdges := rfl

@[simp] theorem State.respond_cmdIn (bs : List Beat) : (s.respond bs).cmdIn = s.cmdIn := rfl

@[simp] theorem State.respond_rspTakes (bs : List Beat) : (s.respond bs).rspTakes = s.rspTakes := rfl

@[simp] theorem State.respond_drawIn (bs : List Beat) : (s.respond bs).drawIn = s.drawIn := rfl

@[simp] theorem State.respond_u1Floor (bs : List Beat) : (s.respond bs).u1Floor = s.u1Floor := rfl

/-! ### Ending a command with an error -/

@[simp] theorem State.raise_scheme (st : Status) : (s.raise st).scheme = s.scheme := rfl

@[simp] theorem State.raise_bps (st : Status) : (s.raise st).bps = s.bps := rfl

@[simp] theorem State.raise_ebn0 (st : Status) : (s.raise st).ebn0 = s.ebn0 := rfl

@[simp] theorem State.raise_esn0 (st : Status) : (s.raise st).esn0 = s.esn0 := rfl

@[simp] theorem State.raise_nvar (st : Status) : (s.raise st).nvar = s.nvar := rfl

@[simp] theorem State.raise_nsd (st : Status) : (s.raise st).nsd = s.nsd := rfl

@[simp] theorem State.raise_errf (st : Status) : (s.raise st).errf = setErrf st s.errf := rfl

@[simp] theorem State.raise_phase (st : Status) : (s.raise st).phase = .resp (headerBeat st 0) [] := rfl

@[simp] theorem State.raise_rstEdges (st : Status) : (s.raise st).rstEdges = s.rstEdges := rfl

@[simp] theorem State.raise_cmdIn (st : Status) : (s.raise st).cmdIn = s.cmdIn := rfl

@[simp] theorem State.raise_rspTakes (st : Status) : (s.raise st).rspTakes = s.rspTakes := rfl

@[simp] theorem State.raise_drawIn (st : Status) : (s.raise st).drawIn = s.drawIn := rfl

@[simp] theorem State.raise_u1Floor (st : Status) : (s.raise st).u1Floor = s.u1Floor := rfl

/-! ### Writing the configuration -/

@[simp] theorem State.configure_scheme (sch : Scheme) (x : F64) : (s.configure sch x).scheme = sch := rfl

@[simp] theorem State.configure_bps (sch : Scheme) (x : F64) : (s.configure sch x).bps = bpsRead sch := rfl

@[simp] theorem State.configure_ebn0 (sch : Scheme) (x : F64) : (s.configure sch x).ebn0 = x := rfl

@[simp] theorem State.configure_esn0 (sch : Scheme) (x : F64) : (s.configure sch x).esn0 = F64.add x (esOff sch) := by
  simp only [State.configure, derive]

@[simp] theorem State.configure_nvar (sch : Scheme) (x : F64) : (s.configure sch x).nvar = (derive referenceMath x sch).nvar := by
  simp only [State.configure, derive]

@[simp] theorem State.configure_nsd (sch : Scheme) (x : F64) : (s.configure sch x).nsd = (derive referenceMath x sch).nsd := by
  simp only [State.configure, derive]

@[simp] theorem State.configure_errf (sch : Scheme) (x : F64) : (s.configure sch x).errf = s.errf := rfl

@[simp] theorem State.configure_phase (sch : Scheme) (x : F64) : (s.configure sch x).phase = s.phase := rfl

@[simp] theorem State.configure_rstEdges (sch : Scheme) (x : F64) : (s.configure sch x).rstEdges = s.rstEdges := rfl

@[simp] theorem State.configure_cmdIn (sch : Scheme) (x : F64) : (s.configure sch x).cmdIn = s.cmdIn := rfl

@[simp] theorem State.configure_rspTakes (sch : Scheme) (x : F64) : (s.configure sch x).rspTakes = s.rspTakes := rfl

@[simp] theorem State.configure_drawIn (sch : Scheme) (x : F64) : (s.configure sch x).drawIn = s.drawIn := rfl

@[simp] theorem State.configure_u1Floor (sch : Scheme) (x : F64) : (s.configure sch x).u1Floor = s.u1Floor := rfl

/-! ### Accepting a command -/

@[simp] theorem State.accept_scheme (c : Command) (rest : List Command) : (s.accept c rest).scheme = s.scheme := rfl

@[simp] theorem State.accept_bps (c : Command) (rest : List Command) : (s.accept c rest).bps = s.bps := rfl

@[simp] theorem State.accept_ebn0 (c : Command) (rest : List Command) : (s.accept c rest).ebn0 = s.ebn0 := rfl

@[simp] theorem State.accept_esn0 (c : Command) (rest : List Command) : (s.accept c rest).esn0 = s.esn0 := rfl

@[simp] theorem State.accept_nvar (c : Command) (rest : List Command) : (s.accept c rest).nvar = s.nvar := rfl

@[simp] theorem State.accept_nsd (c : Command) (rest : List Command) : (s.accept c rest).nsd = s.nsd := rfl

@[simp] theorem State.accept_errf (c : Command) (rest : List Command) : (s.accept c rest).errf = s.errf := rfl

@[simp] theorem State.accept_phase (c : Command) (rest : List Command) : (s.accept c rest).phase = .exec c := rfl

@[simp] theorem State.accept_rstEdges (c : Command) (rest : List Command) : (s.accept c rest).rstEdges = s.rstEdges := rfl

@[simp] theorem State.accept_cmdIn (c : Command) (rest : List Command) : (s.accept c rest).cmdIn = rest := rfl

@[simp] theorem State.accept_rspTakes (c : Command) (rest : List Command) : (s.accept c rest).rspTakes = s.rspTakes := rfl

@[simp] theorem State.accept_drawIn (c : Command) (rest : List Command) : (s.accept c rest).drawIn = s.drawIn := rfl

@[simp] theorem State.accept_u1Floor (c : Command) (rest : List Command) : (s.accept c rest).u1Floor = s.u1Floor := rfl

/-! ### A reset edge -/

@[simp] theorem State.resetEdge_scheme : (s.resetEdge).scheme = .bpsk := rfl

@[simp] theorem State.resetEdge_bps : (s.resetEdge).bps = 1#3 := rfl

@[simp] theorem State.resetEdge_ebn0 : (s.resetEdge).ebn0 = F64.posInf := rfl

@[simp] theorem State.resetEdge_esn0 : (s.resetEdge).esn0 = F64.posInf := rfl

@[simp] theorem State.resetEdge_nvar : (s.resetEdge).nvar = 0#64 := rfl

@[simp] theorem State.resetEdge_nsd : (s.resetEdge).nsd = 0#64 := rfl

@[simp] theorem State.resetEdge_errf : (s.resetEdge).errf = 0#3 := rfl

@[simp] theorem State.resetEdge_phase : (s.resetEdge).phase = .idle := rfl

@[simp] theorem State.resetEdge_rstEdges : (s.resetEdge).rstEdges = s.rstEdges - 1 := rfl

@[simp] theorem State.resetEdge_cmdIn : (s.resetEdge).cmdIn = s.cmdIn := rfl

@[simp] theorem State.resetEdge_rspTakes : (s.resetEdge).rspTakes = s.rspTakes := rfl

@[simp] theorem State.resetEdge_drawIn : (s.resetEdge).drawIn = s.drawIn := rfl

@[simp] theorem State.resetEdge_u1Floor : (s.resetEdge).u1Floor = s.u1Floor := rfl

/-! ### Offering a table word -/

@[simp] theorem State.withFetchWord_scheme (nbits w : Nat) : (s.withFetchWord nbits w).scheme = s.scheme := rfl

@[simp] theorem State.withFetchWord_bps (nbits w : Nat) : (s.withFetchWord nbits w).bps = s.bps := rfl

@[simp] theorem State.withFetchWord_ebn0 (nbits w : Nat) : (s.withFetchWord nbits w).ebn0 = s.ebn0 := rfl

@[simp] theorem State.withFetchWord_esn0 (nbits w : Nat) : (s.withFetchWord nbits w).esn0 = s.esn0 := rfl

@[simp] theorem State.withFetchWord_nvar (nbits w : Nat) : (s.withFetchWord nbits w).nvar = s.nvar := rfl

@[simp] theorem State.withFetchWord_nsd (nbits w : Nat) : (s.withFetchWord nbits w).nsd = s.nsd := rfl

@[simp] theorem State.withFetchWord_errf (nbits w : Nat) : (s.withFetchWord nbits w).errf = s.errf := rfl

@[simp] theorem State.withFetchWord_phase (nbits w : Nat) : (s.withFetchWord nbits w).phase = .idle := rfl

@[simp] theorem State.withFetchWord_rstEdges (nbits w : Nat) : (s.withFetchWord nbits w).rstEdges = 0 := rfl

@[simp] theorem State.withFetchWord_cmdIn (nbits w : Nat) : (s.withFetchWord nbits w).cmdIn = tableCommand nbits w :: s.cmdIn := rfl

@[simp] theorem State.withFetchWord_rspTakes (nbits w : Nat) : (s.withFetchWord nbits w).rspTakes = s.rspTakes := rfl

@[simp] theorem State.withFetchWord_drawIn (nbits w : Nat) : (s.withFetchWord nbits w).drawIn = s.drawIn := rfl

@[simp] theorem State.withFetchWord_u1Floor (nbits w : Nat) : (s.withFetchWord nbits w).u1Floor = s.u1Floor := rfl

end Sys2Proof.Machine
end

