-- ==== Sys2Proof/Laws/Ops.lean ====
section
/-! SUPPORT. Everything a command, a transaction and a step can do, each said once. -/

namespace Sys2Proof.Machine

/-! ### The status codes and flags -/

@[simp] theorem statusCode_ok : (statusCode .ok).setWidth 8 = 0#8 := rfl

@[simp] theorem statusCode_illegal : (statusCode .illegal).setWidth 8 = 1#8 := rfl

@[simp] theorem statusCode_invalidArgument : (statusCode .invalidArgument).setWidth 8 = 2#8 := rfl

@[simp] theorem statusCode_invalidState : (statusCode .invalidState).setWidth 8 = 3#8 := rfl

theorem statusCode_eq_zero_iff (st : Status) : (statusCode st).setWidth 8 = 0#8 ↔ st = .ok := by
  cases st <;> decide

/-- A flag once set stays set. -/
theorem and_setErrf (st : Status) (e : BitVec 3) : e &&& setErrf st e = e := by
  revert e; cases st <;> decide

/-! ### What one command can do -/

/-- The five ways a command ends with a next state. -/
theorem exec_next_cases {i : Instr} {s t : State} (h : exec i s = .next t) :
    (∃ st, st ≠ .ok ∧ t = s.raise st) ∨
    (∃ beats, t = s.respond beats) ∨
    (∃ c sch, i = .setsch c ∧ schemeOfCode c = some sch ∧ t = (s.configure sch s.ebn0).respond []) ∨
    (∃ x, i = .setsnr x ∧ snrAccepted referenceMath x = true ∧ t = (s.configure s.scheme x).respond []) ∨
    (∃ x y, i = .awgn x y ∧ F64.isFinite x = true ∧ F64.isFinite y = true ∧
      ((s.drawIn = [] ∧ t = { s with phase := .waitDraw x y }) ∨
        ∃ d ds beat, s.drawIn = d :: ds ∧ d.ok = true ∧ t = { s with drawIn := ds }.respond [beat])) := by
  cases i with
  | nop =>
    cases h
    exact .inr (.inl ⟨_, rfl⟩)
  | setsch c =>
    simp only [exec, execSetsch, Host.Outcome.next.injEq] at h
    split at h
    · exact .inl ⟨_, by decide, h.symm⟩
    · next sch hc => exact .inr (.inr (.inl ⟨c, sch, rfl, hc, h.symm⟩))
  | setsnr x =>
    simp only [exec, execSetsnr, Host.Outcome.next.injEq] at h
    split at h
    · next hx => exact .inr (.inr (.inr (.inl ⟨x, rfl, hx, h.symm⟩)))
    · exact .inl ⟨_, by decide, h.symm⟩
  | rdreg r =>
    simp only [exec, execRdreg, Host.Outcome.next.injEq] at h
    exact .inr (.inl ⟨_, h.symm⟩)
  | bpsq c =>
    simp only [exec, execBpsq, Host.Outcome.next.injEq] at h
    split at h
    · exact .inl ⟨_, by decide, h.symm⟩
    · exact .inr (.inl ⟨_, h.symm⟩)
  | romrd j c =>
    simp only [exec, execRomrd, Host.Outcome.next.injEq] at h
    split at h
    · exact .inl ⟨_, by decide, h.symm⟩
    · split at h
      · exact .inl ⟨_, by decide, h.symm⟩
      · exact .inr (.inl ⟨_, h.symm⟩)
  | genc c =>
    simp only [exec, execGenc, Host.Outcome.next.injEq] at h
    split at h
    · exact .inl ⟨_, by decide, h.symm⟩
    · exact .inr (.inl ⟨_, h.symm⟩)
  | mod n a =>
    simp only [exec, execMod, Host.Outcome.next.injEq] at h
    split at h
    · exact .inl ⟨_, by decide, h.symm⟩
    · split at h
      · exact .inr (.inl ⟨_, h.symm⟩)
      · exact .inl ⟨_, by decide, h.symm⟩
  | det x y =>
    simp only [exec, execDet, Host.Outcome.next.injEq] at h
    split at h
    · split at h
      · exact .inr (.inl ⟨_, h.symm⟩)
      · exact .inl ⟨_, by decide, h.symm⟩
    · exact .inl ⟨_, by decide, h.symm⟩
  | ham na nb a b =>
    simp only [exec, execHam, Host.Outcome.next.injEq] at h
    split at h
    · exact .inl ⟨_, by decide, h.symm⟩
    · split at h
      · exact .inl ⟨_, by decide, h.symm⟩
      · exact .inr (.inl ⟨_, h.symm⟩)
  | awgn x y =>
    simp only [exec, execAwgn] at h
    split at h
    · next hf =>
      simp only [Sample.isFinite, Bool.and_eq_true] at hf
      refine .inr (.inr (.inr (.inr ⟨x, y, rfl, hf.1, hf.2, ?_⟩)))
      split at h
      · next hd => exact .inl ⟨hd, by simpa using h.symm⟩
      · next d ds hd =>
        split at h
        · next hok =>
          simp only [Host.Outcome.next.injEq] at h
          exact .inr ⟨d, ds, _, hd, hok, h.symm⟩
        · cases h
    · simp only [Host.Outcome.next.injEq] at h
      exact .inl ⟨_, by decide, h.symm⟩

/-- A fault comes only from an AWGN of a finite sample whose draw is outside the contract. -/
theorem exec_fault_cases {i : Instr} {s : State} {f : Fault} (h : exec i s = .fault f) :
    ∃ x y d ds, i = .awgn x y ∧ F64.isFinite x = true ∧ F64.isFinite y = true ∧ s.drawIn = d :: ds ∧ d.ok = false := by
  cases i with
  | awgn x y =>
    simp only [exec, execAwgn] at h
    split at h
    · next hf =>
      simp only [Sample.isFinite, Bool.and_eq_true] at hf
      split at h
      · cases h
      · next d ds hd =>
        split at h
        · cases h
        · next hok => exact ⟨x, y, d, ds, rfl, hf.1, hf.2, hd, by simpa using hok⟩
    · cases h
  | nop => cases h
  | setsch _ => cases h
  | setsnr _ => cases h
  | rdreg _ => cases h
  | bpsq _ => cases h
  | romrd _ _ => cases h
  | genc _ => cases h
  | mod _ _ => cases h
  | det _ _ => cases h
  | ham _ _ _ _ => cases h

/-- No command is refused. -/
theorem exec_ne_refused (i : Instr) (s : State) (r : Refusal) : exec i s ≠ .refused r := by
  cases i with
  | awgn x y =>
    simp only [exec, execAwgn]
    split
    · split
      · simp
      · split <;> simp
    · simp
  | nop => simp [exec, execNop]
  | setsch _ => simp [exec, execSetsch]
  | setsnr _ => simp [exec, execSetsnr]
  | rdreg _ => simp [exec, execRdreg]
  | bpsq _ => simp [exec, execBpsq]
  | romrd _ _ => simp [exec, execRomrd]
  | genc _ => simp [exec, execGenc]
  | mod _ _ => simp [exec, execMod]
  | det _ _ => simp [exec, execDet]
  | ham _ _ _ _ => simp [exec, execHam]

/-- A transaction is an illegal word or a command. -/
theorem performCommand_next_cases {c : Command} {s t : State} (h : performCommand c s = .next t) :
    (∃ e, decode c = .error e ∧ t = s.raise .illegal) ∨ ∃ i, decode c = .ok i ∧ exec i s = .next t := by
  simp only [performCommand] at h
  split at h
  · next i hi => exact .inr ⟨i, hi, h⟩
  · next e he => exact .inl ⟨e, he, by simpa using h.symm⟩

/-! ### What one step can do -/

/-- The six ways a step ends with a next state. -/
theorem step_next_cases {s t : State} (h : step s = .next t) :
    (s.rstEdges ≠ 0 ∧ t = s.resetEdge) ∨
    (s.rstEdges = 0 ∧
      ((s.phase = .idle ∧ s.cmdIn = [] ∧ t = s) ∨
        (∃ c rest, s.phase = .idle ∧ s.cmdIn = c :: rest ∧ performCommand c (s.accept c rest) = .next t) ∨
        (∃ c, s.phase = .exec c ∧ performCommand c s = .next t) ∨
        (∃ x y, s.phase = .waitDraw x y ∧ exec (.awgn x y) s = .next t) ∨
        (∃ b rest, s.phase = .resp b rest ∧ t = s.deliver rest))) := by
  simp only [step] at h
  split at h
  · next hr => exact .inl ⟨hr, by simpa using h.symm⟩
  · next hr =>
    refine .inr ⟨by simpa using hr, ?_⟩
    split at h
    · next hp =>
      split at h
      · next hc => exact .inl ⟨hp, hc, by simpa using h.symm⟩
      · next c rest hc => exact .inr (.inl ⟨c, rest, hp, hc, h⟩)
    · next c hp => exact .inr (.inr (.inl ⟨c, hp, h⟩))
    · next x y hp => exact .inr (.inr (.inr (.inl ⟨x, y, hp, h⟩)))
    · next b rest hp => exact .inr (.inr (.inr (.inr ⟨b, rest, hp, by simpa using h.symm⟩)))

/-- Delivering a beat changes the phase and what the host still takes, and nothing else. -/
theorem deliver_cases (s : State) (rest : List Beat) :
    (s.rspTakes = 0 ∧ s.deliver rest = s) ∨
    ∃ n, s.rspTakes = n + 1 ∧ s.deliver rest = { s with phase := afterBeat rest, rspTakes := n } := by
  simp only [State.deliver]
  split
  · next h => exact .inl ⟨h, rfl⟩
  · next n h => exact .inr ⟨n, h, rfl⟩

end Sys2Proof.Machine
end

