-- ==== Sys2Proof/Laws/PerInstr.lean ====
section
/-! SUPPORT. The encoding of every command, one lemma for each: its word is well formed, and selects its own row. -/

namespace Sys2Proof.Laws.SelectsItsRow

/-- The row of the opcode map a command belongs to (rule R70). -/
def opcodeOf : Instr → Opcode
  | .nop => .nop
  | .setsch _ => .setsch
  | .setsnr _ => .setsnr
  | .rdreg _ => .rdreg
  | .bpsq _ => .bpsq
  | .romrd _ _ => .romrd
  | .genc _ => .genc
  | .mod _ _ => .mod
  | .det _ _ => .det
  | .ham _ _ _ _ => .ham
  | .awgn _ _ => .awgn

/-- RSV is 0 in the encoded word (rule R64), and a row of the command's own opcode selects it (rule R70). -/
def Statement (i : Instr) : Prop :=
  rsvField (encode i).w = 0#8 ∧ ∃ r ∈ opcodeMap, r.op = opcodeOf i ∧ r.selects (encode i).w = true

theorem nop : Statement .nop := by
  refine ⟨rsvField_wordOf _ _ _, ⟨.nop, 0x00000000#32, 0xFFFFFFFF#32⟩, by decide, rfl, by decide⟩

theorem setsch (c : Byte) : Statement (.setsch c) := by
  refine ⟨rsvField_wordOf _ _ _, ⟨.setsch, 0x01000000#32, 0xFFFF00FF#32⟩, by decide, rfl, ?_⟩
  simp only [Row.selects, encode, wordOf_and_fbFree]; decide

theorem setsnr (x : F64) : Statement (.setsnr x) := by
  refine ⟨rsvField_wordOf _ _ _, ⟨.setsnr, 0x02000000#32, 0xFFFFFFFF#32⟩, by decide, rfl, ?_⟩
  simp only [Row.selects, encode]; decide

theorem rdreg (r : RegName) : Statement (.rdreg r) := by
  refine ⟨rsvField_wordOf _ _ _, ⟨.rdreg, 0x03000000#32, 0xFF00FFFF#32⟩, by decide, rfl, ?_⟩
  simp only [Row.selects, encode, wordOf_and_faFree]; decide

theorem bpsq (c : Byte) : Statement (.bpsq c) := by
  refine ⟨rsvField_wordOf _ _ _, ⟨.bpsq, 0x08000000#32, 0xFFFF00FF#32⟩, by decide, rfl, ?_⟩
  simp only [Row.selects, encode, wordOf_and_fbFree]; decide

theorem romrd (i c : Byte) : Statement (.romrd i c) := by
  refine ⟨rsvField_wordOf _ _ _, ⟨.romrd, 0x09000000#32, 0xFF0000FF#32⟩, by decide, rfl, ?_⟩
  simp only [Row.selects, encode, wordOf_and_bothFree]; decide

theorem genc (c : Byte) : Statement (.genc c) := by
  refine ⟨rsvField_wordOf _ _ _, ⟨.genc, 0x0A000000#32, 0xFFFF00FF#32⟩, by decide, rfl, ?_⟩
  simp only [Row.selects, encode, wordOf_and_fbFree]; decide

theorem mod (n : Byte) (a : Word64) : Statement (.mod n a) := by
  refine ⟨rsvField_wordOf _ _ _, ⟨.mod, 0x10000000#32, 0xFF00FFFF#32⟩, by decide, rfl, ?_⟩
  simp only [Row.selects, encode, wordOf_and_faFree]; decide

theorem det (i q : F64) : Statement (.det i q) := by
  refine ⟨rsvField_wordOf _ _ _, ⟨.det, 0x11000000#32, 0xFFFFFFFF#32⟩, by decide, rfl, ?_⟩
  simp only [Row.selects, encode]; decide

theorem ham (na nb : Byte) (a b : Word64) : Statement (.ham na nb a b) := by
  refine ⟨rsvField_wordOf _ _ _, ⟨.ham, 0x12000000#32, 0xFF0000FF#32⟩, by decide, rfl, ?_⟩
  simp only [Row.selects, encode, wordOf_and_bothFree]; decide

theorem awgn (i q : F64) : Statement (.awgn i q) := by
  refine ⟨rsvField_wordOf _ _ _, ⟨.awgn, 0x18000000#32, 0xFFFFFFFF#32⟩, by decide, rfl, ?_⟩
  simp only [Row.selects, encode]; decide

end Sys2Proof.Laws.SelectsItsRow
end

