-- ==== Sys2Proof/Laws/Rom.lean ====
section
/-! SUPPORT. The tables: their sizes, their labels, and that every read in range is defined. -/

namespace Sys2Proof.Machine

@[simp] theorem romTable_length (sch : Scheme) : (romTable sch).length = alphabetSize sch := by
  cases sch <;> rfl

/-- A read below M is defined (rule R38). -/
theorem romRead_of_lt {sch : Scheme} {i : Nat} (h : i < alphabetSize sch) : ∃ e, romRead sch i = some e := by
  have h' : i < (romTable sch).length := by rwa [romTable_length]
  exact ⟨(romTable sch)[i], List.getElem?_eq_getElem h'⟩

/-- A read from M on is not defined (rule R38). -/
theorem romRead_of_le {sch : Scheme} {i : Nat} (h : alphabetSize sch ≤ i) : romRead sch i = none := by
  simp only [romRead, List.getElem?_eq_none_iff, romTable_length, h]

@[simp] theorem schemeOfCode_schemeCode (sch : Scheme) : schemeOfCode ((schemeCode sch).setWidth 8) = some sch := by
  cases sch <;> rfl

theorem schemeOfCode_eq_none {c : Byte} (h : 4 < c.toNat) : schemeOfCode c = none := by
  revert h; revert c; decide

theorem schemeOfCode_eq_some {c : Byte} {sch : Scheme} (h : schemeOfCode c = some sch) :
    c = (schemeCode sch).setWidth 8 := by
  revert h; revert sch; revert c; decide

/-- The width of a scheme is 1, 2, 3, 4 or 6 (rule R39). -/
theorem bpsRead_pos (sch : Scheme) : 0 < (bpsRead sch).toNat := by cases sch <;> decide

theorem alphabetSize_le (sch : Scheme) : alphabetSize sch ≤ 64 := by cases sch <;> decide

/-- Every label of a scheme has an index, and the entry there carries it (rule R50). -/
theorem lutIndex_of_lt {sch : Scheme} {v : Nat} (h : v < alphabetSize sch) :
    ∃ i e, lutIndex sch v = some i ∧ romRead sch i = some e ∧ e.label = v := by
  have key : ∀ sch : Scheme, ∀ v < alphabetSize sch,
      ((lutIndex sch v).bind (romRead sch)).map RomEntry.label = some v := by
    intro sch; cases sch <;> decide +kernel
  have h' := key sch v h
  cases hi : lutIndex sch v with
  | none => simp [hi] at h'
  | some i =>
    cases he : romRead sch i with
    | none => simp [hi, he] at h'
    | some e => exact ⟨i, e, rfl, he, by simpa [hi, he] using h'⟩

end Sys2Proof.Machine
end

