-- ==== Sys2Proof/Tests/Slice0.lean ====
section
/-! SUPPORT. Tests of the model against the spec's own tables, encodings and test vectors, and a witness for the
hypotheses of every statement. Expected values are the spec's (`20_memory.md`, `30_encoding.md`, `95_test_vectors.md`). -/

namespace Sys2Proof.Tests

open Sys2Proof Sys2Proof.Machine Sys2Proof.Safety

/-! ### Well-formedness: an ill-formed term for each check -/

theorem test_wf_refuses_long_mod : (Instr.mod 65#8 0#64).wf = false := by decide

theorem test_wf_refuses_long_ham_first : (Instr.ham 65#8 64#8 0#64 0#64).wf = false := by decide

theorem test_wf_refuses_long_ham_second : (Instr.ham 64#8 65#8 0#64 0#64).wf = false := by decide

theorem test_wf_accepts_longest : (Instr.mod 64#8 0#64).wf = true ∧ (Instr.ham 64#8 64#8 0#64 0#64).wf = true := by decide

/-! ### Decoding: words written out as OPC, FA, FB, RSV of rules R63, R65 and R70 -/

/-- The instruction that a transaction decodes to. -/
def decoded (w : Word32) (a b : Word64) : Option Instr :=
  match decode ⟨w, a, b⟩ with
  | .ok i => some i
  | .error _ => none

theorem test_decode_nop : decoded 0b00000000_00000000_00000000_00000000#32 7#64 9#64 = some .nop := by decide

theorem test_decode_setsch : decoded 0b00000001_00000000_10000011_00000000#32 7#64 9#64 = some (.setsch 0x83#8) := by decide

theorem test_decode_setsnr : decoded 0b00000010_00000000_00000000_00000000#32 7#64 9#64 = some (.setsnr 7#64) := by decide

theorem test_decode_rdreg : decoded 0b00000011_00000101_00000000_00000000#32 7#64 9#64 = some (.rdreg .nsd) := by decide

theorem test_decode_bpsq : decoded 0b00001000_00000000_00000100_00000000#32 7#64 9#64 = some (.bpsq 4#8) := by decide

theorem test_decode_romrd : decoded 0b00001001_00111111_00000100_00000000#32 7#64 9#64 = some (.romrd 63#8 4#8) := by decide

theorem test_decode_genc : decoded 0b00001010_00000000_00000010_00000000#32 7#64 9#64 = some (.genc 2#8) := by decide

theorem test_decode_mod : decoded 0b00010000_01000000_00000000_00000000#32 7#64 9#64 = some (.mod 64#8 7#64) := by decide

theorem test_decode_det : decoded 0b00010001_00000000_00000000_00000000#32 7#64 9#64 = some (.det 7#64 9#64) := by decide

theorem test_decode_ham : decoded 0b00010010_00000011_00000010_00000000#32 7#64 9#64 = some (.ham 3#8 2#8 7#64 9#64) := by
  decide

theorem test_decode_awgn : decoded 0b00011000_00000000_00000000_00000000#32 7#64 9#64 = some (.awgn 7#64 9#64) := by decide

/-- The decoder's answer is the given cause. -/
def illegalBy (w : Word32) (k : IllegalCause) : Bool :=
  match decode ⟨w, 0#64, 0#64⟩ with
  | .ok _ => false
  | .error k' => k' == k

/-- The ILLEGAL rows of rule R99, one word or more for each. -/
theorem test_decode_illegal :
    illegalBy 0x00000001#32 .rsvNonzero = true ∧ illegalBy 0x0A000301#32 .rsvNonzero = true ∧
    illegalBy 0x04000000#32 .opcUndefined = true ∧ illegalBy 0xFF000000#32 .opcUndefined = true ∧
    illegalBy 0x00010000#32 .mustBeZero = true ∧ illegalBy 0x01010100#32 .mustBeZero = true ∧
    illegalBy 0x02000100#32 .mustBeZero = true ∧ illegalBy 0x03000100#32 .mustBeZero = true ∧
    illegalBy 0x08010000#32 .mustBeZero = true ∧ illegalBy 0x10020100#32 .mustBeZero = true ∧
    illegalBy 0x11010000#32 .mustBeZero = true ∧ illegalBy 0x18000100#32 .mustBeZero = true ∧
    illegalBy 0x03070000#32 .fieldRange = true ∧ illegalBy 0x10410000#32 .fieldRange = true ∧
    illegalBy 0x12410100#32 .fieldRange = true ∧ illegalBy 0x12014100#32 .fieldRange = true := by
  decide

/-! ### The tables -/

/-- Rule table of `20_memory.md`, transcribed row by row. -/
theorem test_rom_bpsk : romTable .bpsk =
    [ ⟨0x3FF0000000000000#64, 0x0000000000000000#64, 0⟩,
      ⟨0xBFF0000000000000#64, 0x0000000000000000#64, 1⟩ ] := by
  decide +kernel

/-- Rule table of `20_memory.md`, transcribed row by row. -/
theorem test_rom_qpsk : romTable .qpsk =
    [ ⟨0x3FE6A09E667F3BCD#64, 0x3FE6A09E667F3BCD#64, 0⟩,
      ⟨0xBFE6A09E667F3BCD#64, 0x3FE6A09E667F3BCD#64, 1⟩,
      ⟨0xBFE6A09E667F3BCD#64, 0xBFE6A09E667F3BCD#64, 3⟩,
      ⟨0x3FE6A09E667F3BCD#64, 0xBFE6A09E667F3BCD#64, 2⟩ ] := by
  decide +kernel

/-- Rule table of `20_memory.md`, transcribed row by row. -/
theorem test_rom_psk8 : romTable .psk8 =
    [ ⟨0x3FF0000000000000#64, 0x0000000000000000#64, 0⟩,
      ⟨0x3FE6A09E667F3BCD#64, 0x3FE6A09E667F3BCD#64, 1⟩,
      ⟨0x0000000000000000#64, 0x3FF0000000000000#64, 3⟩,
      ⟨0xBFE6A09E667F3BCD#64, 0x3FE6A09E667F3BCD#64, 2⟩,
      ⟨0xBFF0000000000000#64, 0x0000000000000000#64, 6⟩,
      ⟨0xBFE6A09E667F3BCD#64, 0xBFE6A09E667F3BCD#64, 7⟩,
      ⟨0x0000000000000000#64, 0xBFF0000000000000#64, 5⟩,
      ⟨0x3FE6A09E667F3BCD#64, 0xBFE6A09E667F3BCD#64, 4⟩ ] := by
  decide +kernel

/-- Rule table of `20_memory.md`, transcribed row by row. -/
theorem test_rom_qam16 : romTable .qam16 =
    [ ⟨0xBFEE5B9D136C6D96#64, 0xBFEE5B9D136C6D96#64, 0⟩,
      ⟨0xBFEE5B9D136C6D96#64, 0xBFD43D136248490F#64, 1⟩,
      ⟨0xBFEE5B9D136C6D96#64, 0x3FD43D136248490F#64, 3⟩,
      ⟨0xBFEE5B9D136C6D96#64, 0x3FEE5B9D136C6D96#64, 2⟩,
      ⟨0xBFD43D136248490F#64, 0xBFEE5B9D136C6D96#64, 4⟩,
      ⟨0xBFD43D136248490F#64, 0xBFD43D136248490F#64, 5⟩,
      ⟨0xBFD43D136248490F#64, 0x3FD43D136248490F#64, 7⟩,
      ⟨0xBFD43D136248490F#64, 0x3FEE5B9D136C6D96#64, 6⟩,
      ⟨0x3FD43D136248490F#64, 0xBFEE5B9D136C6D96#64, 12⟩,
      ⟨0x3FD43D136248490F#64, 0xBFD43D136248490F#64, 13⟩,
      ⟨0x3FD43D136248490F#64, 0x3FD43D136248490F#64, 15⟩,
      ⟨0x3FD43D136248490F#64, 0x3FEE5B9D136C6D96#64, 14⟩,
      ⟨0x3FEE5B9D136C6D96#64, 0xBFEE5B9D136C6D96#64, 8⟩,
      ⟨0x3FEE5B9D136C6D96#64, 0xBFD43D136248490F#64, 9⟩,
      ⟨0x3FEE5B9D136C6D96#64, 0x3FD43D136248490F#64, 11⟩,
      ⟨0x3FEE5B9D136C6D96#64, 0x3FEE5B9D136C6D96#64, 10⟩ ] := by
  decide +kernel

/-- Rows 0 to 15 of the table of rule R49, transcribed. -/
def qam64Rows0 : List RomEntry :=
    [ ⟨0xBFF1482F86C40C43#64, 0xBFF1482F86C40C43#64, 0⟩,
      ⟨0xBFF1482F86C40C43#64, 0xBFE8B043E5181184#64, 1⟩,
      ⟨0xBFF1482F86C40C43#64, 0xBFDDA05179501504#64, 3⟩,
      ⟨0xBFF1482F86C40C43#64, 0xBFC3C03650E00E03#64, 2⟩,
      ⟨0xBFF1482F86C40C43#64, 0x3FC3C03650E00E03#64, 6⟩,
      ⟨0xBFF1482F86C40C43#64, 0x3FDDA05179501504#64, 7⟩,
      ⟨0xBFF1482F86C40C43#64, 0x3FE8B043E5181184#64, 5⟩,
      ⟨0xBFF1482F86C40C43#64, 0x3FF1482F86C40C43#64, 4⟩,
      ⟨0xBFE8B043E5181184#64, 0xBFF1482F86C40C43#64, 8⟩,
      ⟨0xBFE8B043E5181184#64, 0xBFE8B043E5181184#64, 9⟩,
      ⟨0xBFE8B043E5181184#64, 0xBFDDA05179501504#64, 11⟩,
      ⟨0xBFE8B043E5181184#64, 0xBFC3C03650E00E03#64, 10⟩,
      ⟨0xBFE8B043E5181184#64, 0x3FC3C03650E00E03#64, 14⟩,
      ⟨0xBFE8B043E5181184#64, 0x3FDDA05179501504#64, 15⟩,
      ⟨0xBFE8B043E5181184#64, 0x3FE8B043E5181184#64, 13⟩,
      ⟨0xBFE8B043E5181184#64, 0x3FF1482F86C40C43#64, 12⟩ ]

/-- Rows 16 to 31 of the table of rule R49, transcribed. -/
def qam64Rows1 : List RomEntry :=
    [ ⟨0xBFDDA05179501504#64, 0xBFF1482F86C40C43#64, 24⟩,
      ⟨0xBFDDA05179501504#64, 0xBFE8B043E5181184#64, 25⟩,
      ⟨0xBFDDA05179501504#64, 0xBFDDA05179501504#64, 27⟩,
      ⟨0xBFDDA05179501504#64, 0xBFC3C03650E00E03#64, 26⟩,
      ⟨0xBFDDA05179501504#64, 0x3FC3C03650E00E03#64, 30⟩,
      ⟨0xBFDDA05179501504#64, 0x3FDDA05179501504#64, 31⟩,
      ⟨0xBFDDA05179501504#64, 0x3FE8B043E5181184#64, 29⟩,
      ⟨0xBFDDA05179501504#64, 0x3FF1482F86C40C43#64, 28⟩,
      ⟨0xBFC3C03650E00E03#64, 0xBFF1482F86C40C43#64, 16⟩,
      ⟨0xBFC3C03650E00E03#64, 0xBFE8B043E5181184#64, 17⟩,
      ⟨0xBFC3C03650E00E03#64, 0xBFDDA05179501504#64, 19⟩,
      ⟨0xBFC3C03650E00E03#64, 0xBFC3C03650E00E03#64, 18⟩,
      ⟨0xBFC3C03650E00E03#64, 0x3FC3C03650E00E03#64, 22⟩,
      ⟨0xBFC3C03650E00E03#64, 0x3FDDA05179501504#64, 23⟩,
      ⟨0xBFC3C03650E00E03#64, 0x3FE8B043E5181184#64, 21⟩,
      ⟨0xBFC3C03650E00E03#64, 0x3FF1482F86C40C43#64, 20⟩ ]

/-- Rows 32 to 47 of the table of rule R49, transcribed. -/
def qam64Rows2 : List RomEntry :=
    [ ⟨0x3FC3C03650E00E03#64, 0xBFF1482F86C40C43#64, 48⟩,
      ⟨0x3FC3C03650E00E03#64, 0xBFE8B043E5181184#64, 49⟩,
      ⟨0x3FC3C03650E00E03#64, 0xBFDDA05179501504#64, 51⟩,
      ⟨0x3FC3C03650E00E03#64, 0xBFC3C03650E00E03#64, 50⟩,
      ⟨0x3FC3C03650E00E03#64, 0x3FC3C03650E00E03#64, 54⟩,
      ⟨0x3FC3C03650E00E03#64, 0x3FDDA05179501504#64, 55⟩,
      ⟨0x3FC3C03650E00E03#64, 0x3FE8B043E5181184#64, 53⟩,
      ⟨0x3FC3C03650E00E03#64, 0x3FF1482F86C40C43#64, 52⟩,
      ⟨0x3FDDA05179501504#64, 0xBFF1482F86C40C43#64, 56⟩,
      ⟨0x3FDDA05179501504#64, 0xBFE8B043E5181184#64, 57⟩,
      ⟨0x3FDDA05179501504#64, 0xBFDDA05179501504#64, 59⟩,
      ⟨0x3FDDA05179501504#64, 0xBFC3C03650E00E03#64, 58⟩,
      ⟨0x3FDDA05179501504#64, 0x3FC3C03650E00E03#64, 62⟩,
      ⟨0x3FDDA05179501504#64, 0x3FDDA05179501504#64, 63⟩,
      ⟨0x3FDDA05179501504#64, 0x3FE8B043E5181184#64, 61⟩,
      ⟨0x3FDDA05179501504#64, 0x3FF1482F86C40C43#64, 60⟩ ]

/-- Rows 48 to 63 of the table of rule R49, transcribed. -/
def qam64Rows3 : List RomEntry :=
    [ ⟨0x3FE8B043E5181184#64, 0xBFF1482F86C40C43#64, 40⟩,
      ⟨0x3FE8B043E5181184#64, 0xBFE8B043E5181184#64, 41⟩,
      ⟨0x3FE8B043E5181184#64, 0xBFDDA05179501504#64, 43⟩,
      ⟨0x3FE8B043E5181184#64, 0xBFC3C03650E00E03#64, 42⟩,
      ⟨0x3FE8B043E5181184#64, 0x3FC3C03650E00E03#64, 46⟩,
      ⟨0x3FE8B043E5181184#64, 0x3FDDA05179501504#64, 47⟩,
      ⟨0x3FE8B043E5181184#64, 0x3FE8B043E5181184#64, 45⟩,
      ⟨0x3FE8B043E5181184#64, 0x3FF1482F86C40C43#64, 44⟩,
      ⟨0x3FF1482F86C40C43#64, 0xBFF1482F86C40C43#64, 32⟩,
      ⟨0x3FF1482F86C40C43#64, 0xBFE8B043E5181184#64, 33⟩,
      ⟨0x3FF1482F86C40C43#64, 0xBFDDA05179501504#64, 35⟩,
      ⟨0x3FF1482F86C40C43#64, 0xBFC3C03650E00E03#64, 34⟩,
      ⟨0x3FF1482F86C40C43#64, 0x3FC3C03650E00E03#64, 38⟩,
      ⟨0x3FF1482F86C40C43#64, 0x3FDDA05179501504#64, 39⟩,
      ⟨0x3FF1482F86C40C43#64, 0x3FE8B043E5181184#64, 37⟩,
      ⟨0x3FF1482F86C40C43#64, 0x3FF1482F86C40C43#64, 36⟩ ]

theorem test_rom_qam64 : romTable .qam64 = qam64Rows0 ++ qam64Rows1 ++ qam64Rows2 ++ qam64Rows3 := by
  decide +kernel

/-- The lookup table of rule R50, transcribed. -/
theorem test_lut_bpsk : (List.range 2).map (lutIndex .bpsk) =
    [ 0, 1 ].map some := by
  decide +kernel

/-- The lookup table of rule R50, transcribed. -/
theorem test_lut_qpsk : (List.range 4).map (lutIndex .qpsk) =
    [ 0, 1, 3, 2 ].map some := by
  decide +kernel

/-- The lookup table of rule R50, transcribed. -/
theorem test_lut_psk8 : (List.range 8).map (lutIndex .psk8) =
    [ 0, 1, 3, 2, 7, 6, 4, 5 ].map some := by
  decide +kernel

/-- The lookup table of rule R50, transcribed. -/
theorem test_lut_qam16 : (List.range 16).map (lutIndex .qam16) =
    [ 0, 1, 3, 2, 4, 5, 7, 6, 12, 13, 15, 14, 8, 9, 11, 10 ].map some := by
  decide +kernel

/-- The lookup table of rule R50, transcribed. -/
theorem test_lut_qam64 : (List.range 64).map (lutIndex .qam64) =
    [ 0, 1, 3, 2, 7, 6, 4, 5, 8, 9, 11, 10, 15, 14, 12, 13,
      24, 25, 27, 26, 31, 30, 28, 29, 16, 17, 19, 18, 23, 22, 20, 21,
      56, 57, 59, 58, 63, 62, 60, 61, 48, 49, 51, 50, 55, 54, 52, 53,
      32, 33, 35, 34, 39, 38, 36, 37, 40, 41, 43, 42, 47, 46, 44, 45 ].map some := by
  decide +kernel

/-! ### One step of each instruction: vectors of `95_test_vectors.md` -/

/-- The response of a step: status code, beats and ERRF after it. -/
def answer : Host.Outcome State Fault Refusal → Option (Nat × List (Nat × Nat × Nat) × Nat)
  | .next t =>
    match t.phase with
    | .resp h beats => some (h.l.toNat, beats.map (fun b => (b.x.toNat, b.y.toNat, b.l.toNat)), t.errf.toNat)
    | _ => none
  | _ => none

/-- SCHEME's code, BPS, EBN0, ESN0, NVAR and NSD after a step. -/
def registers : Host.Outcome State Fault Refusal → Option (List Nat)
  | .next t => some ([RegName.scheme, .bps, .ebn0, .esn0, .nvar, .nsd].map fun r => (t.readReg r).toNat)
  | _ => none

/-- The step that performs one transaction in state s. -/
def perform (s : State) (w : Word32) (a b : Word64) : Host.Outcome State Fault Refusal :=
  step { s with cmdIn := [⟨w, a, b⟩] }

/-- Reset, then a scheme at EBN0 = +∞. -/
def inScheme (sch : Scheme) (k : BitVec 3) : State := { State.reset with scheme := sch, bps := k }

/-- QPSK at 0 dB: the registers of rule R81's corner case and of program P2. -/
def qpsk0dB : State :=
  { State.reset with
    scheme := .qpsk, bps := 2#3, ebn0 := 0#64, esn0 := 0x4008151824C7587F#64
    nvar := 0x3FE0000000000000#64, nsd := 0x3FE0000000000000#64 }

/-- BPSK at 0 dB: vector V-C9. -/
def bpsk0dB : State :=
  { State.reset with
    ebn0 := 0#64, esn0 := 0#64, nvar := 0x3FF0000000000000#64, nsd := 0x3FE6A09E667F3BCD#64 }

/-- V-C1, with the operand words of rule R79's example. -/
theorem test_nop : answer (perform State.reset 0#32 0xFFFFFFFFFFFFFFFF#64 0#64) = some (0, [], 0) := by decide +kernel

/-- V-C17. -/
theorem test_setsch_recomputes :
    registers (perform bpsk0dB 0x01000300#32 0#64 0#64)
      = some [3, 4, 0, 0x4018151824C7587F, 0x3FD0000000000000, 0x3FD6A09E667F3BCD] := by
  decide +kernel

/-- V-C6. -/
theorem test_setsch_unknown : answer (perform State.reset 0x01000500#32 0#64 0#64) = some (2, [], 2) := by decide +kernel

/-- V-C8. -/
theorem test_setsnr_qpsk_10dB :
    registers (perform (inScheme .qpsk 2#3) 0x02000000#32 0x4024000000000000#64 0#64)
      = some [1, 2, 0x4024000000000000, 0x402A05460931D620, 0x3FA999999999999A, 0x3FC43D136248490F] := by
  decide +kernel

/-- V-C14: the smallest accepted value. -/
theorem test_setsnr_smallest :
    registers (perform State.reset 0x02000000#32 0xC0A8151824C7587E#64 0#64)
      = some [0, 1, 0xC0A8151824C7587E, 0xC0A8151824C7587E, 0x7FEFFFFFFFFFFBA0, 0x5FE6A09E667F3A41] := by
  decide +kernel

/-- V-C28: ARG then ILL. -/
theorem test_rdreg_errf :
    answer (perform { State.reset with errf := 3#3 } 0x03060000#32 0#64 0#64) = some (0, [(3, 0, 0)], 3) := by
  decide +kernel

/-- Rule R83's example. -/
theorem test_rdreg_ebn0 :
    answer (perform State.reset 0x03020000#32 0#64 0#64) = some (0, [(0x7FF0000000000000, 0, 0)], 0) := by
  decide +kernel

/-- V-G5. -/
theorem test_bpsq_qam64 : answer (perform (inScheme .qpsk 2#3) 0x08000400#32 0#64 0#64) = some (0, [(6, 64, 0)], 0) := by
  decide +kernel

/-- V-G6. -/
theorem test_bpsq_unknown : answer (perform State.reset 0x08000500#32 0#64 0#64) = some (2, [], 2) := by decide +kernel

/-- V-G15. -/
theorem test_romrd_qam16 :
    answer (perform State.reset 0x090D0300#32 0#64 0#64)
      = some (0, [(0x3FEE5B9D136C6D96, 0xBFD43D136248490F, 9)], 0) := by
  decide +kernel

/-- V-G18. -/
theorem test_romrd_past_end : answer (perform State.reset 0x09040100#32 0#64 0#64) = some (2, [], 2) := by decide +kernel

/-- V-G22. -/
theorem test_genc_qpsk :
    answer (perform State.reset 0x0A000100#32 0#64 0#64)
      = some (0,
          [(0x3FE6A09E667F3BCD, 0x3FE6A09E667F3BCD, 0), (0xBFE6A09E667F3BCD, 0x3FE6A09E667F3BCD, 1),
           (0xBFE6A09E667F3BCD, 0xBFE6A09E667F3BCD, 3), (0x3FE6A09E667F3BCD, 0xBFE6A09E667F3BCD, 2)], 0) := by
  decide +kernel

/-- V-G26. -/
theorem test_genc_unknown : answer (perform State.reset 0x0A000700#32 0#64 0#64) = some (2, [], 2) := by decide +kernel

/-- V-M1. -/
theorem test_mod_qpsk :
    answer (perform (inScheme .qpsk 2#3) 0x10040000#32 6#64 0#64)
      = some (0,
          [(0xBFE6A09E667F3BCD, 0x3FE6A09E667F3BCD, 1), (0x3FE6A09E667F3BCD, 0xBFE6A09E667F3BCD, 2)], 0) := by
  decide +kernel

/-- V-M14: the trailing bit is dropped. -/
theorem test_mod_drops_partial_group :
    answer (perform (inScheme .qpsk 2#3) 0x10030000#32 3#64 0#64)
      = some (0, [(0xBFE6A09E667F3BCD, 0x3FE6A09E667F3BCD, 1)], 0) := by
  decide +kernel

/-- V-M28. -/
theorem test_det_psk8 :
    answer (perform (inScheme .psk8 3#3) 0x11000000#32 0xBFE3333333333333#64 0x3FE0000000000000#64)
      = some (0, [(0xBFE6A09E667F3BCD, 0x3FE6A09E667F3BCD, 2)], 0) := by
  decide +kernel

/-- V-M21: both distances round to one value, and the earlier point wins (the spec's rule, not DMS's). -/
theorem test_det_absorption :
    answer (perform State.reset 0x11000000#32 0xC34FF973CAFA8000#64 0#64)
      = some (0, [(0x3FF0000000000000, 0, 0)], 0) := by
  decide +kernel

/-- V-M34. -/
theorem test_ham_longest :
    answer (perform State.reset 0x12404000#32 0xFFFFFFFFFFFFFFFF#64 0#64) = some (0, [(64, 0, 0)], 0) := by
  decide +kernel

/-- V-M31. -/
theorem test_ham_unequal_lengths : answer (perform State.reset 0x12030200#32 5#64 2#64) = some (2, [], 2) := by
  decide +kernel

/-- V-A4: the sine of the binary64 value nearest π moves Q by one unit in the last place. -/
theorem test_awgn_qpsk :
    answer (perform { qpsk0dB with drawIn := [⟨0x3FE0000000000000#64, 0x3FE0000000000000#64⟩] }
        0x18000000#32 0x3FE6A09E667F3BCD#64 0x3FE6A09E667F3BCD#64)
      = some (0, [(0x3FBE4F9411A1FC50, 0x3FE6A09E667F3BCE, 0)], 0) := by
  decide +kernel

/-- V-A6: a first uniform of 0 is floored. -/
theorem test_awgn_floor :
    answer (perform { qpsk0dB with drawIn := [⟨0#64, 0#64⟩] }
        0x18000000#32 0x3FE6A09E667F3BCD#64 0x3FE6A09E667F3BCD#64)
      = some (0, [(0x4013F8C64CDEC1C2, 0x3FE6A09E667F3BCD, 0)], 0) := by
  decide +kernel

/-- Vectors V-C2 to V-C4: a must-be-zero field, RSV and an undefined opcode. -/
theorem test_illegal :
    ∀ w ∈ [0x00010000#32, 0x00000001#32, 0x04000000#32],
      answer (perform State.reset w 0#64 0#64) = some (1, [], 1) := by
  intro w hw
  fin_cases hw <;> decide +kernel

/-- The corner cases of rule R12: 2^53 + 1 is a tie to even; −0 ⊕ +0 is +0; the least subnormal is kept, and half of it
is a tie to +0; MAX ⊕ MAX overflows; NaN is not less than anything. -/
theorem test_float_corners :
    F64.add 0x4340000000000000#64 F64.one = 0x4340000000000000#64 ∧
    F64.add 0x8000000000000000#64 0#64 = 0#64 ∧
    F64.add 1#64 1#64 = 2#64 ∧ F64.div 1#64 F64.two = 0#64 ∧
    F64.add 0x7FEFFFFFFFFFFFFF#64 0x7FEFFFFFFFFFFFFF#64 = F64.posInf ∧
    F64.lt F64.qNaN F64.one = false ∧ F64.lt F64.one F64.qNaN = false := by
  decide +kernel

/-- Values the spec gives for the reference functions: `LN(0.5)`, `LN(2^−53)`, `LN(2^−1074)`, `COS` and `SIN` at the
binary64 value nearest π (rules R14, R94, R96; notes on V-A4 and V-A6). -/
theorem test_reference_functions :
    ln 0x3FE0000000000000#64 = 0xBFE62E42FEFA39EF#64 ∧ ln 0x3CA0000000000000#64 = 0xC0425E4F7B2737FA#64 ∧
    ln 1#64 = 0xC0874385446D71C3#64 ∧
    cos 0x400921FB54442D18#64 = 0xBFF0000000000000#64 ∧ sin 0x400921FB54442D18#64 = 0x3CA1A62633145C07#64 := by
  decide +kernel


/-! ### Witnesses: for each statement, states and operands that meet its hypotheses, at the edges of their ranges -/

/-- A command that does nothing. -/
def nopCommand : Command := ⟨0#32, 0#64, 0#64⟩

/-- Functions with the named properties of rule R14 that the statements ask for. -/
def constantMath : Config.MathLib := ⟨fun _ => F64.one, fun _ => 0#64, fun _ => F64.one, fun _ => 0#64⟩

/-- A draw that meets the contract, and the largest one. -/
def halfDraw : Draw := ⟨0x3FE0000000000000#64, 0x3FE0000000000000#64⟩

/-- A header beat that announces nothing more. -/
def emptyHeader : Beat := ⟨true, 0#64, 0#64, 0#8⟩

/-- A response of one header beat and one data beat. -/
def oneBeatResponse : Phase := response 0#8 [beat 1#64 2#64 0#8]

/-- The error status of the response a step offers, and whether ERRF is as given. -/
def offered (o : Host.Outcome State Fault Refusal) : Option (Byte × BitVec 3) :=
  match o with
  | .next t =>
    match t.phase with
    | .resp b _ => some (b.l, t.errf)
    | _ => none
  | _ => none

/-- An outcome that offers a response is a next state that offers it. -/
theorem exists_next_of_offered {o : Host.Outcome State Fault Refusal} {l : Byte} {e : BitVec 3}
    (h : offered o = some (l, e)) :
    ∃ t b rest, o = .next t ∧ t.phase = .resp b rest ∧ b.l = l ∧ t.errf = e := by
  cases o with
  | next t =>
    cases hp : t.phase with
    | resp b rest =>
      simp [offered, hp] at h
      exact ⟨t, b, rest, rfl, hp, h.1, h.2⟩
    | idle => simp [offered, hp] at h
    | exec c => simp [offered, hp] at h
    | waitDraw i q => simp [offered, hp] at h
  | fault f => simp [offered] at h
  | refused r => simp [offered] at h

theorem witness_DecodeOfEncodeGivesCommandBack :
    (Instr.mod 64#8 0#64).wf = true ∧ (Instr.ham 64#8 0#8 0#64 0#64).wf = true ∧ (Instr.setsch 255#8).wf = true := by
  decide

theorem witness_EncodeOfDecodedGivesWordsBack :
    ∃ i j, decode ⟨0x10400000#32, 1#64, 2#64⟩ = .ok i ∧ decode ⟨0x0900FF00#32, 1#64, 2#64⟩ = .ok j :=
  ⟨.mod 64#8 1#64, .romrd 0#8 255#8, rfl, rfl⟩

theorem noRow_mod65 :
    opcodeMap.all (fun r => !(r.selects 0x10410000#32 && fieldsInRange r.op 0x41#8 0#8)) = true := by
  decide

theorem witness_WordIsLegalExactlyWhenOneRowSelectsIt :
    (opcodeMap[7]?.map fun r => r.selects 0x10400000#32) = some true ∧
    (∀ n ∈ [0x04, 0x07, 0x0B, 0x0F, 0x13, 0x17, 0x19, 0xFF],
      (0x04 ≤ n ∧ n ≤ 0x07) ∨ (0x0B ≤ n ∧ n ≤ 0x0F) ∨ (0x13 ≤ n ∧ n ≤ 0x17) ∨ 0x19 ≤ n) ∧
    (opcField 0x04000000#32).toNat = 0x04 ∧ (opcField 0xFF000000#32).toNat = 0xFF ∧ ¬ LegalWord 0x10410000#32 := by
  refine ⟨by decide, by decide, by decide, by decide, fun ⟨r, hr, hs, hf⟩ => ?_⟩
  have h := List.all_eq_true.mp noRow_mod65 r hr
  have hf' : fieldsInRange r.op 0x41#8 0#8 = true := hf
  rw [hs, hf'] at h
  exact absurd h (by decide)

theorem witness_NonzeroReservedFieldIsIllegal :
    (let s : State := { State.reset with cmdIn := [⟨0x10040001#32, 6#64, 0#64⟩] }; s.rstEdges = 0 ∧ s.phase = .idle ∧ s.cmdIn = [⟨0x10040001#32, 6#64, 0#64⟩]) ∧
    rsvField 0x10040001#32 ≠ 0#8 ∧
    (opcField 0x18FF0000#32 = 0x18#8 ∧ faField 0x18FF0000#32 ≠ 0#8) ∧
    (opcField 0x10040100#32 = 0x10#8 ∧ fbField 0x10040100#32 ≠ 0#8) := by
  decide

theorem witness_IgnoredOperandWordsHaveNoEffect :
    opcField 0x00000000#32 ∉ [0x02#8, 0x10#8, 0x11#8, 0x12#8, 0x18#8] ∧
    opcField 0x19000000#32 ∉ [0x02#8, 0x10#8, 0x11#8, 0x12#8, 0x18#8] ∧
    opcField 0x10040000#32 ∉ [0x11#8, 0x12#8, 0x18#8] := by
  decide

theorem witness_StepPerformsDecodedCommand :
    decode nopCommand = .ok .nop ∧
    (let s : State := { State.reset with cmdIn := [nopCommand] }; s.rstEdges = 0 ∧ s.phase = .idle ∧ s.cmdIn = [nopCommand]) ∧
    (let s : State := { State.reset with phase := .exec nopCommand }; s.rstEdges = 0 ∧ s.phase = .exec nopCommand) ∧
    (let s : State := { State.reset with phase := .waitDraw 0#64 0#64 }; s.rstEdges = 0 ∧ s.phase = .waitDraw 0#64 0#64) ∧
    tableCommand 32 0 = nopCommand :=
  ⟨rfl, by decide, by decide, by decide, rfl⟩

theorem witness_ResetEdgeSetsEveryRegister :
    let s : State := { qpsk0dB with errf := 7#3, phase := oneBeatResponse, rstEdges := 2 }
    0 < s.rstEdges := by
  decide

theorem witness_BlockIsReadyAfterReset :
    let s : State := { qpsk0dB with errf := 7#3, phase := .waitDraw 0#64 0#64, rstEdges := 1 }
    s.rstEdges = 1 ∧ s.resetEdge.cmdIn = [] := by
  decide

theorem derivedAgree_reset (s : State) (h1 : s.scheme = .bpsk) (h2 : s.bps = 1#3) (h3 : s.ebn0 = F64.posInf)
    (h4 : s.esn0 = F64.posInf) (h5 : s.nvar = 0#64) (h6 : s.nsd = 0#64) : DerivedAgree s ∧ Ebn0Accepted s := by
  unfold DerivedAgree Ebn0Accepted
  rw [h1, h2, h3, h4, h5, h6]
  decide +kernel

theorem floorLegal_reset : F64.lt 0#64 0x3CA0000000000000#64 = true ∧ F64.lt 0x3CA0000000000000#64 F64.one = true := by
  decide +kernel

theorem stateFlag_reset : (0#3).getLsbD 2 = false := by decide

/-- The invariant holds of a state with the reset values of the registers, in any phase as the rules leave it. -/
theorem inv_of_phase (p : Phase) (cs : List Command) (hp : PhaseLegal p) :
    Inv { State.reset with phase := p, cmdIn := cs } where
  derived := (derivedAgree_reset _ rfl rfl rfl rfl rfl rfl).1
  ebn0 := (derivedAgree_reset _ rfl rfl rfl rfl rfl rfl).2
  stateFlag := stateFlag_reset
  phase := hp
  floor := floorLegal_reset

theorem witness_StepKeepsInvariant :
    ∃ s t : State, Inv s ∧ step s = .next t ∧ s.cmdIn ≠ t.cmdIn :=
  ⟨{ State.reset with phase := .idle, cmdIn := [nopCommand] }, { State.reset with phase := response 0#8 [] },
    inv_of_phase .idle _ trivial, rfl, by simp [State.reset]⟩

theorem framed_oneBeat : PhaseLegal oneBeatResponse := by
  simp [PhaseLegal, oneBeatResponse, response, beat, Framed]

theorem witness_BusyBlockWaitsOnlyForOutsideAgents :
    (∃ s : State, Inv s ∧ s.rstEdges = 0 ∧ s.phase = .waitDraw F64.one 0#64 ∧ s.drawIn = []) ∧
    (∃ s : State, Inv s ∧ s.rstEdges = 0 ∧ s.phase = oneBeatResponse ∧ s.rspTakes = 0) ∧
    (∃ s : State, Inv s ∧ s.rstEdges = 0 ∧ s.phase = .exec nopCommand) :=
  ⟨⟨{ State.reset with phase := .waitDraw F64.one 0#64, cmdIn := [] }, inv_of_phase _ _ (by simp [PhaseLegal]; decide), rfl, rfl, rfl⟩,
    ⟨{ State.reset with phase := oneBeatResponse, cmdIn := [] }, inv_of_phase _ _ framed_oneBeat, rfl, rfl, rfl⟩,
    ⟨{ State.reset with phase := .exec nopCommand, cmdIn := [] }, inv_of_phase _ _ trivial, rfl, rfl⟩⟩

theorem witness_HostTakesWholeResponse :
    (let s : State := { State.reset with phase := oneBeatResponse, rspTakes := 2 }; s.rstEdges = 0 ∧ s.phase = .resp ⟨true, 1#64, 0#64, 0#8⟩ [beat 1#64 2#64 0#8] ∧ s.rspTakes = 1 + 1 + 0) ∧
    (let s : State := { State.reset with phase := .resp emptyHeader [], rspTakes := 3 }; s.rstEdges = 0 ∧ s.phase = .resp emptyHeader [] ∧ s.rspTakes = 0 + 1 + 2) := by
  decide

theorem witness_CommandsArePerformedInOfferedOrder :
    step { State.reset with cmdIn := [nopCommand] } = .next { State.reset with phase := response 0#8 [] } ∧
    step State.reset = .next State.reset :=
  ⟨rfl, rfl⟩

theorem witness_EachNoisyCommandTakesTheNextDraw :
    (∃ t, exec (.awgn F64.one 0#64) { State.reset with drawIn := [halfDraw] } = .next t ∧
      F64.isFinite F64.one = true ∧ F64.isFinite 0#64 = true) ∧
    (∃ t, exec .nop State.reset = .next t) ∧
    (∃ t, exec (.awgn F64.posInf 0#64) State.reset = .next t ∧ F64.isFinite F64.posInf = false) :=
  ⟨by
    obtain ⟨t, _, _, h, _⟩ := exists_next_of_offered
      (o := exec (.awgn F64.one 0#64) { State.reset with drawIn := [halfDraw] }) (l := 0#8) (e := 0#3) (by decide +kernel)
    exact ⟨t, h, by decide +kernel, by decide +kernel⟩,
    ⟨_, rfl⟩, ⟨_, rfl, by decide +kernel⟩⟩

theorem witness_ErrorChangesOneFlagOnly :
    ∃ t b rest, performCommand ⟨0x00000001#32, 0#64, 0#64⟩ { State.reset with rspTakes := 1 } = .next t ∧
      t.phase = .resp b rest ∧ b.l ≠ 0#8 ∧ t.rstEdges = 0 ∧ t.rspTakes = 0 + 1 :=
  ⟨{ State.reset with errf := 1#3, phase := response 1#8 [], rspTakes := 1 }, _, _, rfl, rfl, by decide, rfl, rfl⟩

/-- A state no run reaches, in which BPS is not the width of SCHEME: a group of seven bits is no label of BPSK. -/
def faultyWidth : State := { State.reset with bps := 7#3 }

theorem witness_ErrorFlagsAreStickyUntilReset :
    offered (performCommand nopCommand State.reset) = some (0#8, 0#3) ∧
    offered (performCommand ⟨0x00000001#32, 0#64, 0#64⟩ State.reset) = some (1#8, 1#3) ∧
    offered (performCommand ⟨0x0100FF00#32, 0#64, 0#64⟩ State.reset) = some (2#8, 2#3) ∧
    offered (performCommand ⟨0x10070000#32, 0x7F#64, 0#64⟩ faultyWidth) = some (3#8, 4#3) ∧
    (∃ t, step { State.reset with errf := 7#3 } = .next t) ∧
    (∃ s t : State, s.rstEdges = 1 ∧ step s = .next t) :=
  ⟨by decide +kernel, by decide +kernel, by decide +kernel, by decide +kernel, ⟨_, rfl⟩,
    ⟨{ State.reset with rstEdges := 1 }, State.reset, rfl, rfl⟩⟩

theorem witness_InvalidStateIsNeverProduced :
    State.reset.bps = bpsRead State.reset.scheme ∧
    (∃ t b rest, exec (.mod 1#8 1#64) State.reset = .next t ∧ t.phase = .resp b rest) ∧ 63 < alphabetSize .qam64 :=
  ⟨rfl, by
    obtain ⟨t, b, rest, h, hp, _⟩ := exists_next_of_offered (o := exec (.mod 1#8 1#64) State.reset) (l := 0#8) (e := 0#3)
      (by decide +kernel)
    exact ⟨t, b, rest, h, hp⟩, by decide⟩

theorem witness_SetschWritesSchemeAndDerived : (0#8).toNat ≤ 4 ∧ (4#8).toNat ≤ 4 := by decide

theorem witness_UnknownSchemeCodeIsRefused : 4 < (5#8).toNat ∧ 4 < (255#8).toNat := by decide

theorem witness_SetsnrWritesEbn0AndDerived :
    (F64.isNaN 0xC0A8151824C7587E#64 = false ∧
      F64.isFinite (F64.div F64.one (exp10 (F64.div 0xC0A8151824C7587E#64 F64.ten))) = true) ∧
    (F64.isNaN F64.posInf = false ∧ F64.isFinite (F64.div F64.one (exp10 (F64.div F64.posInf F64.ten))) = true) := by
  decide +kernel

theorem witness_SetsnrRefusesNanAndInfiniteVariance :
    F64.isNaN F64.qNaN = true ∧
    F64.isFinite (F64.div F64.one (exp10 (F64.div 0xC0A8151824C7587F#64 F64.ten))) = false := by
  decide +kernel

theorem witness_OnlySetschSetsnrAndResetChangeNoise :
    (∃ t, exec .nop State.reset = .next t) ∧
    registers (perform State.reset 0x02000000#32 0#64 0#64)
      = some [0, 1, 0, 0, 0x3FF0000000000000, 0x3FE6A09E667F3BCD] :=
  ⟨⟨_, rfl⟩, by decide +kernel⟩

theorem witness_RomrdReturnsTheEntry :
    (schemeCode .qam64).setWidth 8 = 4#8 ∧ (63#8).toNat < alphabetSize .qam64 ∧ alphabetSize .qam64 ≤ (64#8).toNat ∧
    alphabetSize .bpsk ≤ (255#8).toNat := by
  decide

theorem witness_GencReturnsTheWholeAlphabet :
    (schemeCode .bpsk).setWidth 8 = 0#8 ∧ (schemeCode .qam64).setWidth 8 = 4#8 ∧ 63 < alphabetSize .qam64 := by
  decide

theorem witness_FlatRomHoldsEveryEntryAtItsBase :
    63 < alphabetSize .qam64 ∧ alphabetSize .bpsk ≤ 2 ∧ flatRom.length = 94 := by
  decide +kernel

theorem witness_LookupTableInvertsTheLabels :
    63 < alphabetSize .qam64 ∧ 0 < alphabetSize .bpsk ∧ (romRead .qam64 63).isSome = true := by
  decide +kernel

theorem witness_ModMapsEachGroupToItsPoint :
    (inScheme .qam64 6#3).bps = bpsRead (inScheme .qam64 6#3).scheme ∧ (64#8).toNat ≤ 64 ∧
    (0xFFFFFFFFFFFFFFFF#64).toNat < 2 ^ (64#8).toNat ∧ (0#64).toNat < 2 ^ (0#8).toNat ∧
    9 < (64#8).toNat / (inScheme .qam64 6#3).bps.toNat := by
  decide

theorem witness_StrayBitsAndUnequalLengthsAreRefused :
    2 ^ (0#8).toNat ≤ (1#64).toNat ∧ 2 ^ (63#8).toNat ≤ (0x8000000000000000#64).toNat ∧ 3#8 ≠ 2#8 := by
  decide

theorem witness_SplitStringsModulateToTheSameBeats :
    (inScheme .qam64 6#3).bps = bpsRead (inScheme .qam64 6#3).scheme ∧
    (60#8).toNat = 10 * (inScheme .qam64 6#3).bps.toNat ∧ (60#8).toNat + (4#8).toNat ≤ 64 ∧
    (0#8).toNat = 0 * (inScheme .qam64 6#3).bps.toNat ∧
    (0xFFFFFFFFFFFFFFF#64).toNat < 2 ^ (60#8).toNat ∧ (15#64).toNat < 2 ^ (4#8).toNat := by
  decide

theorem witness_DetReturnsTheFirstNearestPoint :
    qpsk0dB.bps = bpsRead qpsk0dB.scheme ∧ F64.isFinite 0x7FEFFFFFFFFFFFFF#64 = true ∧
    F64.isFinite 0x8000000000000000#64 = true ∧ (romRead .qpsk 3).isSome = true := by
  decide +kernel

theorem witness_NonFiniteSamplesAreRefused :
    F64.isFinite F64.posInf = false ∧ F64.isFinite 0xFFF0000000000000#64 = false ∧ F64.isFinite F64.qNaN = false := by
  decide

theorem witness_IdealPointsAreDetectedAsThemselves :
    (inScheme .qam64 6#3).bps = bpsRead (inScheme .qam64 6#3).scheme ∧
    romRead .qam64 63 = some ⟨0x3FF1482F86C40C43#64, 0x3FF1482F86C40C43#64, 36⟩ := by
  decide +kernel

theorem witness_NoiselessRoundTripGivesTheLabelBack :
    let s : State := { inScheme .qam64 6#3 with drawIn := [halfDraw] }
    s.bps = bpsRead s.scheme ∧ s.nsd = 0#64 ∧ (63#64).toNat < alphabetSize s.scheme ∧ s.drawIn = [halfDraw] ∧
      halfDraw.ok = true := by
  decide +kernel

theorem witness_HamCountsDifferingPositions :
    (64#8).toNat ≤ 64 ∧ (0xFFFFFFFFFFFFFFFF#64).toNat < 2 ^ (64#8).toNat ∧ (0#64).toNat < 2 ^ (0#8).toNat := by
  decide

theorem witness_HamIsSymmetricAndZeroOnlyOnEqualStrings :
    (64#8).toNat ≤ 64 ∧ (0xFFFFFFFFFFFFFFFF#64).toNat < 2 ^ (64#8).toNat ∧ (0#64).toNat < 2 ^ (64#8).toNat := by
  decide

theorem witness_AwgnAddsScaledBoxMullerNoise :
    let s : State := { qpsk0dB with drawIn := [⟨0#64, 0x3FEFFFFFFFFFFFFF#64⟩] }
    F64.isFinite F64.one = true ∧ s.drawIn = [⟨0#64, 0x3FEFFFFFFFFFFFFF#64⟩] ∧
      Draw.ok ⟨0#64, 0x3FEFFFFFFFFFFFFF#64⟩ = true ∧ F64.isZero s.nsd = false := by
  decide +kernel

theorem witness_AwgnPassesThroughAtZeroNoise :
    let s : State := { State.reset with drawIn := [halfDraw] }
    F64.isFinite 0x8000000000000000#64 = true ∧ s.drawIn = [halfDraw] ∧ halfDraw.ok = true ∧ F64.isZero s.nsd = true := by
  decide +kernel

theorem witness_AwgnWaitsForItsDraw :
    F64.isFinite F64.one = true ∧ F64.isFinite 0#64 = true ∧ qpsk0dB.drawIn = [] ∧ qpsk0dB.rstEdges = 0 := by
  decide

theorem witness_DrawOutsideContractIsAFault :
    F64.isFinite F64.one = true ∧ F64.isNaN F64.qNaN = true ∧ F64.lt 0x8000000000000001#64 0#64 = true ∧
    F64.le F64.one F64.one = true ∧ F64.le F64.one F64.posInf = true := by
  decide +kernel

theorem zero_le_one : F64.isNaN F64.one = false ∧ F64.le 0#64 F64.one = true := by decide +kernel

theorem exp10NonNegative_constant : Exp10NonNegative constantMath := fun _ _ => zero_le_one

theorem zero_in_ln_range : F64.le 0#64 0#64 = true ∧ F64.le 0xC087480000000000#64 0#64 = true := by decide +kernel

theorem lnBounded_constant : LnBounded constantMath := fun _ _ _ => zero_in_ln_range

theorem one_and_zero_in_unit_range :
    F64.le 0xBFF0000000000000#64 F64.one = true ∧ F64.le F64.one F64.one = true ∧
      F64.le 0xBFF0000000000000#64 0#64 = true ∧ F64.le 0#64 F64.one = true := by
  decide +kernel

theorem trigBounded_constant : TrigBounded constantMath := ⟨fun _ _ => one_and_zero_in_unit_range, rfl, rfl⟩

theorem witness_NoiseVarianceIsAlwaysFinite :
    ∃ m x, Exp10NonNegative m ∧ snrAccepted m x = true :=
  ⟨constantMath, 0#64, exp10NonNegative_constant, by decide +kernel⟩

theorem witness_NoisySampleIsAlwaysFinite :
    (∃ s : State, Inv s) ∧ LnBounded constantMath ∧ TrigBounded constantMath ∧
    F64.lt 0#64 1#64 = true ∧ F64.lt 1#64 F64.one = true ∧ F64.lt 0x3FEFFFFFFFFFFFFF#64 F64.one = true ∧
    Draw.ok ⟨0x8000000000000000#64, 0x3FEFFFFFFFFFFFFF#64⟩ = true ∧
    F64.le 0#64 (F64.sqrt (F64.div 0x7FEFFFFFFFFFFFFF#64 F64.two)) = true ∧
    Sample.isFinite ⟨0x7FEFFFFFFFFFFFFF#64, 0xFFEFFFFFFFFFFFFF#64⟩ = true :=
  ⟨⟨_, inv_of_phase (.exec nopCommand) [] trivial⟩, lnBounded_constant, trigBounded_constant, by decide +kernel, by decide +kernel, by decide +kernel, by decide +kernel,
    by decide +kernel, by decide +kernel⟩

theorem witness_NoiseAloneIsScaledNormalPair :
    (F64.isFinite (F64.mul F64.one (boxMuller constantMath 1#64 halfDraw).i) = true ∧
      F64.isFinite (F64.mul F64.one (boxMuller constantMath 1#64 halfDraw).q) = true ∧ F64.isZero F64.one = false) ∧
    (F64.isFinite (F64.mul 0#64 (boxMuller constantMath 1#64 halfDraw).i) = true ∧
      F64.isFinite (F64.mul 0#64 (boxMuller constantMath 1#64 halfDraw).q) = true ∧ F64.isZero 0#64 = true) := by
  decide +kernel

/-- 2^53 + 1 units lie halfway between two words; the even one is taken. -/
theorem witness_RoundingIsToNearestTiesToEven :
    0 < 1 ∧ F64.roundUnits (2 ^ 53 + 1) 1 = 2 ^ 53 ∧ 2 ^ 53 + 1 < F64.infBits ∧
    F64.units (F64.ofSignMag false (2 ^ 53)) = 2 ^ 53 ∧ F64.units (F64.ofSignMag false (2 ^ 53 + 1)) = 2 ^ 53 + 2 := by
  decide +kernel

/-- Finite operands whose sum is finite, whose sum overflows, whose sum is a tie (2^53 + 1), whose sum is exactly 0, and
a zero divisor. -/
theorem witness_ArithmeticIsTheExactResultRoundedOnce :
    F64.isFinite F64.two = true ∧ F64.isFinite 0x4340000000000000#64 = true ∧ F64.isFinite 0x7FEFFFFFFFFFFFFF#64 = true ∧
    F64.isFinite (F64.add 0x7FEFFFFFFFFFFFFF#64 0x7FEFFFFFFFFFFFFF#64) = false ∧
    F64.add 0x4340000000000000#64 F64.one = 0x4340000000000000#64 ∧
    F64.value F64.two + F64.value F64.negTwo = 0 ∧ F64.value 0x8000000000000000#64 = F64.value 0#64 ∧
    F64.isZero F64.ten = false ∧ F64.isZero 0x8000000000000000#64 = true ∧ F64.sign F64.two = false := by
  decide +kernel

theorem witness_LessThanIsTheOrderOfExactValues :
    F64.isFinite 0x8000000000000000#64 = true ∧ F64.isFinite 0x7FEFFFFFFFFFFFFF#64 = true ∧
    F64.isFinite 0xFFEFFFFFFFFFFFFF#64 = true ∧ F64.isNaN F64.posInf = false ∧ F64.isNaN 0xFFF0000000000000#64 = false ∧
    F64.isNaN F64.qNaN = true := by
  decide

theorem witness_Exp10EnclosureHoldsTheExactPower : F64.isFinite 0xC0A8151824C7587E#64 = true ∧ 64 ≤ 64 := by decide

theorem witness_LnEnclosureHoldsTheExactLogarithm :
    F64.lt 0#64 1#64 = true ∧ F64.lt 1#64 F64.one = true ∧ F64.lt 0x3FEFFFFFFFFFFFFF#64 F64.one = true ∧ 64 ≤ 64 := by
  decide +kernel

theorem witness_TrigEnclosuresHoldTheExactValues : F64.isFinite 0x7FEFFFFFFFFFFFFF#64 = true ∧ 64 ≤ 64 := by decide

/-- 10^0.5, ln 0.5, and the cosine and sine of 0.5 settle at the first working precision. -/
theorem settled_at_half :
    (exp10Enclosure (F64.value 0x3FE0000000000000#64) 192).settled.isSome = true ∧
    (lnEnclosure (F64.units 0x3FE0000000000000#64) 192).settled.isSome = true ∧
    (cosEnclosure (F64.units 0x3FE0000000000000#64) 192).settled.isSome = true ∧
    (sinEnclosure (F64.units 0x3FE0000000000000#64) 192).settled.isSome = true := by
  decide +kernel

theorem in_ln_range_half : F64.lt 0#64 0x3FE0000000000000#64 = true ∧ F64.lt 0x3FE0000000000000#64 F64.one = true := by
  decide +kernel

theorem large_exponent : 400 * (F64.oneUnits : Int) ≤ |F64.value 0xC0A8151824C7587E#64| := by decide +kernel

theorem witness_SettledEnclosureGivesANearestValue :
    (Encloses ⟨1, 1, 1⟩ 1 ∧ Enclosure.settled ⟨1, 1, 1⟩ = some F64.one) ∧
    F64.isFinite 0x3FE0000000000000#64 = true ∧
    F64.lt 0#64 0x3FE0000000000000#64 = true ∧ F64.lt 0x3FE0000000000000#64 F64.one = true ∧
    Settles (exp10Enclosure (F64.value 0x3FE0000000000000#64)) ∧ Settles (lnEnclosure (F64.units 0x3FE0000000000000#64)) ∧
    Settles (cosEnclosure (F64.units 0x3FE0000000000000#64)) ∧ Settles (sinEnclosure (F64.units 0x3FE0000000000000#64)) ∧
    400 * (F64.oneUnits : Int) ≤ |F64.value 0xC0A8151824C7587E#64| ∧ F64.isZero 0x8000000000000000#64 = true :=
  ⟨⟨by norm_num [Encloses], by decide +kernel⟩, by decide, in_ln_range_half.1, in_ln_range_half.2,
    ⟨192, by simp, settled_at_half.1⟩, ⟨192, by simp, settled_at_half.2.1⟩, ⟨192, by simp, settled_at_half.2.2.1⟩,
    ⟨192, by simp, settled_at_half.2.2.2⟩, large_exponent, by decide⟩

end Sys2Proof.Tests
end

section
/-! PROOFS. ERRF and the reset state (rules R23, R28, R36): what a command leaves in the error flags, and what the
registers hold after reset. -/

namespace Sys2Proof.Machine

open Sys2Proof.Safety

/-! ### The error flags after a command -/

@[simp] theorem headerBeat_l (st : Status) (n : Nat) : (headerBeat st n).l = (statusCode st).setWidth 8 := rfl

@[simp] theorem setErrf_ok (e : BitVec 3) : setErrf .ok e = e := BitVec.or_zero

@[simp] theorem State.deliver_errf (s : State) (rest : List Beat) : (s.deliver rest).errf = s.errf := by
  rcases deliver_cases s rest with ⟨_, h⟩ | ⟨n, _, h⟩ <;> rw [h]

/-- The state t is what a command that ends with status st leaves of s in ERRF and in the status it reports, if it
reports one: an AWGN that begins to wait has none yet. -/
structure EndsWithStatus (s t : State) (st : Status) : Prop where
  errf_eq : t.errf = setErrf st s.errf
  status_eq : ∀ b rest, t.phase = .resp b rest → b.l = (statusCode st).setWidth 8

theorem endsWithStatus_raise (s : State) (st : Status) : EndsWithStatus s (s.raise st) st where
  errf_eq := s.raise_errf st
  status_eq b rest hp := by cases hp; exact headerBeat_l st 0

/-- A response with status OK sets no flag, whatever else the command wrote before it. -/
theorem endsWithStatus_respond {s u : State} (hu : u.errf = s.errf) (beats : List Beat) :
    EndsWithStatus s (u.respond beats) .ok where
  errf_eq := by simp [hu]
  status_eq b rest hp := by cases hp; exact headerBeat_l .ok _

theorem exec_endsWithStatus {i : Instr} {s t : State} (h : exec i s = .next t) : ∃ st, EndsWithStatus s t st := by
  obtain ⟨st, _, rfl⟩ | ⟨beats, rfl⟩ | ⟨c, sch, _, _, rfl⟩ | ⟨x, _, _, rfl⟩ | ⟨x, y, _, _, _, hd⟩ := exec_next_cases h
  · exact ⟨st, endsWithStatus_raise s st⟩
  · exact ⟨.ok, endsWithStatus_respond rfl beats⟩
  · exact ⟨.ok, endsWithStatus_respond (State.configure_errf s sch s.ebn0) []⟩
  · exact ⟨.ok, endsWithStatus_respond (State.configure_errf s s.scheme x) []⟩
  · obtain ⟨_, rfl⟩ | ⟨d, ds, b, _, _, rfl⟩ := hd
    · exact ⟨.ok, (setErrf_ok s.errf).symm, by simp⟩
    · exact ⟨.ok, endsWithStatus_respond (s := s) (u := { s with drawIn := ds }) rfl [b]⟩

theorem performCommand_endsWithStatus {c : Command} {s t : State} (h : performCommand c s = .next t) :
    ∃ st, EndsWithStatus s t st := by
  obtain ⟨_, _, rfl⟩ | ⟨i, _, hi⟩ := performCommand_next_cases h
  · exact ⟨.illegal, endsWithStatus_raise s .illegal⟩
  · exact exec_endsWithStatus hi

/-- Whatever the status, no flag is cleared. -/
theorem EndsWithStatus.errf_kept {s t : State} {st : Status} (h : EndsWithStatus s t st) :
    s.errf &&& t.errf = s.errf := by
  rw [h.errf_eq]
  exact and_setErrf st s.errf

theorem exec_keeps_errf {i : Instr} {s t : State} (h : exec i s = .next t) : s.errf &&& t.errf = s.errf :=
  (exec_endsWithStatus h).elim fun _ => EndsWithStatus.errf_kept

theorem performCommand_keeps_errf {c : Command} {s t : State} (h : performCommand c s = .next t) :
    s.errf &&& t.errf = s.errf :=
  (performCommand_endsWithStatus h).elim fun _ => EndsWithStatus.errf_kept

/-! ### ERRF along the steps -/

/-- Rule R28 as one alternative per status code. -/
theorem performCommand_errf_of_status {c : Command} {s t : State} {b : Beat} {rest : List Beat}
    (h : performCommand c s = .next t) (hp : t.phase = .resp b rest) :
    (b.l = 0#8 ∧ t.errf = s.errf) ∨ (b.l = 1#8 ∧ t.errf = s.errf ||| 0b001#3) ∨
      (b.l = 2#8 ∧ t.errf = s.errf ||| 0b010#3) ∨ (b.l = 3#8 ∧ t.errf = s.errf ||| 0b100#3) := by
  obtain ⟨st, hst⟩ := performCommand_endsWithStatus h
  have hl := hst.status_eq b rest hp
  have herr := hst.errf_eq
  cases st with
  | ok => exact .inl ⟨hl, herr.trans (setErrf_ok s.errf)⟩
  | illegal => exact .inr (.inl ⟨hl, herr⟩)
  | invalidArgument => exact .inr (.inr (.inl ⟨hl, herr⟩))
  | invalidState => exact .inr (.inr (.inr ⟨hl, herr⟩))

theorem step_keeps_errf {s t : State} (h : step s = .next t) (hr : s.rstEdges = 0) : s.errf &&& t.errf = s.errf := by
  obtain ⟨hr', _⟩ | ⟨_, hstep⟩ := step_next_cases h
  · exact absurd hr hr'
  · obtain ⟨_, _, rfl⟩ | ⟨c, rest, _, _, hc⟩ | ⟨c, _, hc⟩ | ⟨x, y, _, hx⟩ | ⟨b, rest, _, rfl⟩ := hstep
    · exact BitVec.and_self
    · simpa using performCommand_keeps_errf hc
    · exact performCommand_keeps_errf hc
    · exact exec_keeps_errf hx
    · rw [State.deliver_errf, BitVec.and_self]

/-- A step with `rst` at 1 is a reset edge (rule R114). -/
theorem step_of_rst {s : State} (hr : s.rstEdges ≠ 0) : step s = .next s.resetEdge := if_pos hr

/-- Settles O19: each command ends with one status (`performCommand_endsWithStatus`), and the flags follow it. -/
theorem errorFlagsAreStickyUntilReset : Obligations.ErrorFlagsAreStickyUntilReset := by
  unfold Obligations.ErrorFlagsAreStickyUntilReset
  refine ⟨fun c s t b rest => performCommand_errf_of_status, fun s t => step_keeps_errf, fun s t h hr => ?_⟩
  rw [step_of_rst hr] at h
  cases h
  exact s.resetEdge_errf

/-! ### The reset state -/

/-- The derived registers at reset (rules R23, R26, R36): EXP10(+∞) is +∞, so the noise variance is +0. -/
theorem derive_posInf_bpsk : derive referenceMath F64.posInf .bpsk = ⟨1#3, F64.posInf, 0#64, 0#64⟩ := by
  decide +kernel

/-- Settles O11: RDREG reads the values of rule R23, and `derive_posInf_bpsk` gives the derived ones. -/
theorem resetStateHoldsResetValues : Obligations.ResetStateHoldsResetValues := by
  unfold Obligations.ResetStateHoldsResetValues
  exact ⟨rfl, rfl, rfl, rfl, rfl, rfl, rfl, rfl, derive_posInf_bpsk⟩

end Sys2Proof.Machine
end

section
/-! PROOFS. The read-only tables of `20_memory.md`: when a binary64 word is nearest an exact real (rule R13), the ESOFF
table against the decibel values (rule R40), and the lookup table as the inverse of the labels (rule R50). -/

namespace Sys2Proof.F64

/-! ### The spacing of binary64 values -/

/-- A value from 2^(52 + e) units on has its last place at 2^e or above (rule R11). -/
theorem two_pow_dvd_units_or_units_lt (x : F64) (e : ℕ) : 2 ^ e ∣ units x ∨ units x < 2 ^ 52 * 2 ^ e := by
  have hfrac : mag x % 2 ^ 52 < 2 ^ 52 := Nat.mod_lt _ (by decide)
  simp only [units]
  split
  · right
    calc mag x % 2 ^ 52 < 2 ^ 52 * 1 := by omega
      _ ≤ 2 ^ 52 * 2 ^ e := Nat.mul_le_mul_left _ Nat.one_le_two_pow
  · next hexp =>
    obtain hle | hlt := le_or_gt e (mag x / 2 ^ 52 - 1)
    · exact .inl ((pow_dvd_pow 2 hle).mul_left _)
    · right
      calc (2 ^ 52 + mag x % 2 ^ 52) * 2 ^ (mag x / 2 ^ 52 - 1)
          < 2 ^ 52 * 2 * 2 ^ (mag x / 2 ^ 52 - 1) := Nat.mul_lt_mul_of_pos_right (by omega) (by positivity)
        _ = 2 ^ 52 * 2 ^ (mag x / 2 ^ 52 - 1 + 1) := by ring
        _ ≤ 2 ^ 52 * 2 ^ e := Nat.mul_le_mul_left _ (Nat.pow_le_pow_right (by decide) hlt)

theorem natAbs_value (x : F64) : (value x).natAbs = units x := by
  unfold value
  split <;> simp

theorem two_pow_dvd_value_or_abs_value_lt (x : F64) (e : ℕ) : (2 : ℤ) ^ e ∣ value x ∨ |value x| < 2 ^ 52 * 2 ^ e := by
  obtain h | h := two_pow_dvd_units_or_units_lt x e
  · left
    have := Int.natCast_dvd.mpr ((natAbs_value x).symm ▸ h)
    exact_mod_cast this
  · right
    rw [Int.abs_eq_natAbs, natAbs_value]
    exact_mod_cast h

/-- A value with a 53-bit significand m stands at least one unit of its last place from every other value; not so a
power of two, which has a neighbour below it at half that distance. -/
theorem two_pow_le_abs_value_sub {x y : F64} {m : ℤ} {e : ℕ} (hx : value x = m * 2 ^ e) (hm : 2 ^ 52 < |m|)
    (hne : value y ≠ value x) : 2 ^ e ≤ |value y - value x| := by
  obtain hdvd | hlt := two_pow_dvd_value_or_abs_value_lt y e
  · have hsub : (2 : ℤ) ^ e ∣ value y - value x := dvd_sub hdvd (hx ▸ dvd_mul_left _ m)
    exact Int.le_of_dvd (abs_pos.mpr (sub_ne_zero.mpr hne)) ((dvd_abs _ _).mpr hsub)
  · have hmag : (2 ^ 52 + 1) * 2 ^ e ≤ |value x| := by
      rw [hx, abs_mul, abs_of_pos (a := (2 : ℤ) ^ e) (by positivity)]
      exact mul_le_mul_of_nonneg_right hm (by positivity)
    have htri : |value x| - |value y| ≤ |value y - value x| := by
      rw [abs_sub_comm]
      exact abs_sub_abs_le_abs_sub _ _
    linarith

end Sys2Proof.F64

namespace Sys2Proof.Safety

/-! ### Nearest values -/

/-- A value is nearest itself. -/
theorem nearestTo_of_value_eq {v : ℝ} {x : F64} (hfin : F64.isFinite x = true)
    (hx : (F64.value x : ℝ) = v * 2 ^ 1074) : NearestTo v x := by
  refine ⟨hfin, fun y _ => ?_⟩
  rw [hx, sub_self, abs_zero]
  exact abs_nonneg _

/-- The value m / 2^j with a 53-bit significand m, no power of two, is nearest every real within half a unit of its last
place. -/
theorem nearestTo_of_abs_sub_le_half {v : ℝ} {x : F64} {m : ℤ} {e j : ℕ} (hfin : F64.isFinite x = true)
    (hx : F64.value x = m * 2 ^ e) (hm : 2 ^ 52 < |m|) (hej : j + e = 1074) (hv : |m - v * 2 ^ j| ≤ 1 / 2) :
    NearestTo v x := by
  refine ⟨hfin, fun y _ => ?_⟩
  by_cases hy : F64.value y = F64.value x
  · rw [hy]
  have hnear : |(F64.value x : ℝ) - v * 2 ^ 1074| ≤ 2 ^ e / 2 := by
    have hscale : (F64.value x : ℝ) - v * 2 ^ 1074 = (m - v * 2 ^ j) * 2 ^ e := by
      rw [hx, ← hej, pow_add]
      push_cast
      ring
    rw [hscale, abs_mul, abs_of_pos (a := (2 : ℝ) ^ e) (by positivity)]
    linarith [mul_le_mul_of_nonneg_right hv (by positivity : (0 : ℝ) ≤ 2 ^ e)]
  have hgap : (2 : ℝ) ^ e ≤ |(F64.value y : ℝ) - F64.value x| := by
    exact_mod_cast F64.two_pow_le_abs_value_sub hx hm hy
  linarith [abs_sub_le (F64.value y : ℝ) (v * 2 ^ 1074) (F64.value x), abs_sub_comm (F64.value x : ℝ) (v * 2 ^ 1074)]

/-! ### The decibel values -/

/-- Bounds of ln y by the first n terms of 2 (x + x³/3 + x⁵/5 + ...), where y = (1 + x)/(1 − x). -/
theorem log_mem_Icc_of_sum {x y lo hi : ℝ} (n : ℕ) (h0 : 0 ≤ x) (h1 : x < 1) (hy : (1 + x) / (1 - x) = y)
    (hlo : lo ≤ 2 * ∑ i ∈ Finset.range n, x ^ (2 * i + 1) / (2 * i + 1))
    (hhi : 2 * (∑ i ∈ Finset.range n, x ^ (2 * i + 1) / (2 * i + 1) + x ^ (2 * n + 1) / (1 - x ^ 2)) ≤ hi) :
    Real.log y ∈ Set.Icc lo hi := by
  have hlower := Real.sum_range_le_log_div h0 h1 n
  have hupper := Real.log_div_le_sum_range_add h0 h1 n
  rw [hy] at hlower hupper
  constructor <;> linarith

theorem log_two_mem_Icc : Real.log 2 ∈ Set.Icc 0.69314718055994530941 0.69314718055994530942 :=
  log_mem_Icc_of_sum (x := 1 / 3) 22 (by norm_num) (by norm_num) (by norm_num)
    (by norm_num [Finset.sum_range_succ]) (by norm_num [Finset.sum_range_succ])

theorem log_three_halves_mem_Icc : Real.log (3 / 2) ∈ Set.Icc 0.40546510810816438197 0.40546510810816438198 :=
  log_mem_Icc_of_sum (x := 1 / 5) 15 (by norm_num) (by norm_num) (by norm_num)
    (by norm_num [Finset.sum_range_succ]) (by norm_num [Finset.sum_range_succ])

theorem log_five_fourths_mem_Icc : Real.log (5 / 4) ∈ Set.Icc 0.22314355131420975576 0.22314355131420975577 :=
  log_mem_Icc_of_sum (x := 1 / 9) 11 (by norm_num) (by norm_num) (by norm_num)
    (by norm_num [Finset.sum_range_succ]) (by norm_num [Finset.sum_range_succ])

theorem log_three_mem_Icc : Real.log 3 ∈ Set.Icc 1.09861228866810969138 1.0986122886681096914 := by
  obtain ⟨h2l, h2u⟩ := log_two_mem_Icc
  obtain ⟨h3l, h3u⟩ := log_three_halves_mem_Icc
  have hlog : Real.log 3 = Real.log 2 + Real.log (3 / 2) := by norm_num [← Real.log_mul]
  rw [hlog]
  constructor <;> linarith

theorem log_four_mem_Icc : Real.log 4 ∈ Set.Icc 1.38629436111989061882 1.38629436111989061884 := by
  obtain ⟨h2l, h2u⟩ := log_two_mem_Icc
  have hlog : Real.log 4 = 2 * Real.log 2 := by norm_num [← Real.log_rpow]
  rw [hlog]
  constructor <;> linarith

theorem log_six_mem_Icc : Real.log 6 ∈ Set.Icc 1.79175946922805500079 1.79175946922805500082 := by
  obtain ⟨h2l, h2u⟩ := log_two_mem_Icc
  obtain ⟨h3l, h3u⟩ := log_three_mem_Icc
  have hlog : Real.log 6 = Real.log 2 + Real.log 3 := by norm_num [← Real.log_mul]
  rw [hlog]
  constructor <;> linarith

theorem log_ten_mem_Icc : Real.log 10 ∈ Set.Icc 2.30258509299404568399 2.30258509299404568403 := by
  obtain ⟨h2l, h2u⟩ := log_two_mem_Icc
  obtain ⟨h5l, h5u⟩ := log_five_fourths_mem_Icc
  have hlog : Real.log 10 = 3 * Real.log 2 + Real.log (5 / 4) := by norm_num [← Real.log_rpow, ← Real.log_mul]
  rw [hlog]
  constructor <;> linarith

/-- The value m / 2^j is nearest 10·log10 k if bounds of ln k and of ln 10 show that 10·2^j·ln k / ln 10 lies between
m − 1/2 and m + 1/2. -/
theorem nearestTo_decibel {k lo hi : ℝ} {x : F64} {m : ℤ} {e j : ℕ} (hk : Real.log k ∈ Set.Icc lo hi)
    (hfin : F64.isFinite x = true) (hx : F64.value x = m * 2 ^ e) (hm : 2 ^ 52 < m) (hej : j + e = 1074)
    (hlo : (2 * m - 1) * 2.30258509299404568403 ≤ 20 * 2 ^ j * lo)
    (hhi : 20 * 2 ^ j * hi ≤ (2 * m + 1) * 2.30258509299404568399) :
    NearestTo (10 * Real.logb 10 k) x := by
  refine nearestTo_of_abs_sub_le_half hfin hx (hm.trans_le (le_abs_self m)) hej ?_
  obtain ⟨hkl, hku⟩ := hk
  obtain ⟨htl, htu⟩ := log_ten_mem_Icc
  have hm' : (2 : ℝ) ^ 52 < m := by exact_mod_cast hm
  have hten : 0 < Real.log 10 := Real.log_pos (by norm_num)
  have hscale : 2 * (10 * Real.logb 10 k * 2 ^ j) * Real.log 10 = 20 * 2 ^ j * Real.log k := by
    rw [← Real.log_div_log]
    field_simp
    ring
  have hlower : 2 * (m : ℝ) - 1 ≤ 2 * (10 * Real.logb 10 k * 2 ^ j) := by
    refine le_of_mul_le_mul_right ?_ hten
    calc (2 * (m : ℝ) - 1) * Real.log 10 ≤ (2 * m - 1) * 2.30258509299404568403 :=
          mul_le_mul_of_nonneg_left htu (by linarith)
      _ ≤ 20 * 2 ^ j * lo := hlo
      _ ≤ 20 * 2 ^ j * Real.log k := mul_le_mul_of_nonneg_left hkl (by positivity)
      _ = _ := hscale.symm
  have hupper : 2 * (10 * Real.logb 10 k * 2 ^ j) ≤ 2 * (m : ℝ) + 1 := by
    refine le_of_mul_le_mul_right ?_ hten
    calc 2 * (10 * Real.logb 10 k * 2 ^ j) * Real.log 10 = 20 * 2 ^ j * Real.log k := hscale
      _ ≤ 20 * 2 ^ j * hi := mul_le_mul_of_nonneg_left hku (by positivity)
      _ ≤ (2 * m + 1) * 2.30258509299404568399 := hhi
      _ ≤ (2 * m + 1) * Real.log 10 := mul_le_mul_of_nonneg_left htl (by linarith)
  rw [abs_le]
  constructor <;> linarith

end Sys2Proof.Safety

namespace Sys2Proof.Machine

open Sys2Proof.Safety

/-! ### The ESOFF table -/

theorem esOff_qpsk_nearest : NearestTo (10 * Real.logb 10 2) (esOff .qpsk) :=
  nearestTo_decibel log_two_mem_Icc (m := 0x18151824C7587F) (e := 1023) (j := 51) rfl (by decide +kernel) (by decide) rfl
    (by norm_num) (by norm_num)

theorem esOff_psk8_nearest : NearestTo (10 * Real.logb 10 3) (esOff .psk8) :=
  nearestTo_decibel log_three_mem_Icc (m := 0x1315B8BDF1E5BE) (e := 1024) (j := 50) rfl (by decide +kernel) (by decide) rfl
    (by norm_num) (by norm_num)

theorem esOff_qam16_nearest : NearestTo (10 * Real.logb 10 4) (esOff .qam16) :=
  nearestTo_decibel log_four_mem_Icc (m := 0x18151824C7587F) (e := 1024) (j := 50) rfl (by decide +kernel) (by decide) rfl
    (by norm_num) (by norm_num)

theorem esOff_qam64_nearest : NearestTo (10 * Real.logb 10 6) (esOff .qam64) :=
  nearestTo_decibel log_six_mem_Icc (m := 0x1F2044D05591FD) (e := 1024) (j := 50) rfl (by decide +kernel) (by decide) rfl
    (by norm_num) (by norm_num)

/-- Settles O34: for k = 1 the value is exactly 0, and for the other widths the series of `log_mem_Icc_of_sum` place
10·log10 k within half a unit of the last place of the word. -/
theorem esoffIsTheNearestDecibelValue : Obligations.EsoffIsTheNearestDecibelValue := by
  unfold Obligations.EsoffIsTheNearestDecibelValue
  refine ⟨fun sch => ?_, rfl, rfl, rfl, rfl, rfl⟩
  cases sch with
  | bpsk => exact nearestTo_of_value_eq rfl (by simp [bpsRead, esOff, F64.value, F64.units, F64.mag])
  | qpsk => exact esOff_qpsk_nearest
  | psk8 => exact esOff_psk8_nearest
  | qam16 => exact esOff_qam16_nearest
  | qam64 => exact esOff_qam64_nearest

/-! ### The lookup table -/

/-- No two entries of a table carry one label (rule R42). -/
theorem nodup_romTable_labels (sch : Scheme) : ((romTable sch).map RomEntry.label).Nodup := by
  cases sch <;> decide +kernel

/-- An index at which a read is defined is below M (rule R38). -/
theorem lt_of_romRead_eq_some {sch : Scheme} {i : Nat} {e : RomEntry} (h : romRead sch i = some e) :
    i < alphabetSize sch := by
  by_contra hle
  simp [romRead_of_le (Nat.le_of_not_lt hle)] at h

/-- Entries with one label stand at one index. -/
theorem romRead_label_injective {sch : Scheme} {i j : Nat} {d e : RomEntry} (hi : romRead sch i = some d)
    (hj : romRead sch j = some e) (hlabel : d.label = e.label) : i = j := by
  have hlt : i < ((romTable sch).map RomEntry.label).length := by simpa using lt_of_romRead_eq_some hi
  refine (List.getElem?_inj hlt (nodup_romTable_labels sch)).mp ?_
  rw [List.getElem?_map, List.getElem?_map]
  calc (romRead sch i).map RomEntry.label = some d.label := by rw [hi]; rfl
    _ = some e.label := by rw [hlabel]
    _ = (romRead sch j).map RomEntry.label := by rw [hj]; rfl

/-- LutIndex(s, v) is the index i at which the entry has the label v, and only that (rule R50). -/
theorem lutIndex_eq_some_iff {sch : Scheme} {v i : Nat} :
    lutIndex sch v = some i ↔ ∃ e, romRead sch i = some e ∧ e.label = v := by
  rw [lutIndex, List.findIdx?_eq_some_iff_getElem]
  constructor
  · rintro ⟨hlt, hlabel, -⟩
    exact ⟨_, List.getElem?_eq_getElem hlt, eq_of_beq hlabel⟩
  · rintro ⟨e, he, hlabel⟩
    obtain ⟨hlt, rfl⟩ := List.getElem?_eq_some_iff.mp he
    refine ⟨hlt, beq_iff_eq.mpr hlabel, fun j hj hj' => hj.ne ?_⟩
    exact romRead_label_injective (List.getElem?_eq_getElem (hj.trans hlt)) he ((eq_of_beq hj').trans hlabel.symm)

/-- The labels of 16-QAM: the Gray codes of the two positions, that of I first (rule R48). -/
theorem romRead_qam16_label : ∀ pI < 4, ∀ pQ < 4,
    (romRead .qam16 (4 * pI + pQ)).map RomEntry.label = some (4 * (pI ^^^ (pI / 2)) + (pQ ^^^ (pQ / 2))) := by
  decide +kernel

/-- The labels of 64-QAM: the Gray codes of the two positions, that of I first (rule R49). -/
theorem romRead_qam64_label : ∀ pI < 8, ∀ pQ < 8,
    (romRead .qam64 (8 * pI + pQ)).map RomEntry.label = some (8 * (pI ^^^ (pI / 2)) + (pQ ^^^ (pQ / 2))) := by
  decide +kernel

/-- Settles O35: each label below M has an entry (`lutIndex_of_lt`), labels do not repeat, and so LutIndex finds each
index from its label (`lutIndex_eq_some_iff`), the QAM indices from their Gray labels. -/
theorem lookupTableInvertsTheLabels : Obligations.LookupTableInvertsTheLabels := by
  unfold Obligations.LookupTableInvertsTheLabels
  refine ⟨fun sch v hv => ?_, fun pI hI pQ hQ => ?_, fun pI hI pQ hQ => ?_⟩
  · obtain ⟨i, d, hlut, hd, hlabel⟩ := lutIndex_of_lt hv
    refine ⟨i, lt_of_romRead_eq_some hd, hlut, fun j e he => ⟨fun h => ?_, fun h => ?_⟩⟩
    · exact romRead_label_injective he hd (h.trans hlabel.symm)
    · subst h
      rwa [Option.some.inj (he.symm.trans hd)]
  · exact lutIndex_eq_some_iff.mpr (Option.map_eq_some_iff.mp (romRead_qam16_label pI hI pQ hQ))
  · exact lutIndex_eq_some_iff.mpr (Option.map_eq_some_iff.mp (romRead_qam64_label pI hI pQ hQ))

end Sys2Proof.Machine
end

section
/-! PROOFS. The encoding (rules R64, R65, R69 to R72, R77): which command words are legal, what an illegal one does, that an
ignored operand word is not read, and the example lines. -/

namespace Sys2Proof

/-! ### A selected word, field by field -/

/-- Where a row's mask is all ones, a selected word agrees with the row's pattern, whichever field that is. -/
theorem extractLsb'_of_selects {r : Row} {w : Word32} (h : r.selects w = true) {i n : Nat}
    (hmask : r.mask.extractLsb' i n = BitVec.allOnes n) : w.extractLsb' i n = r.pattern.extractLsb' i n := by
  have hand : w &&& r.mask = r.pattern := eq_of_beq h
  rw [← hand, BitVec.extractLsb'_and, hmask, BitVec.and_allOnes]

/-- Every row fixes OPC (rule R70). -/
theorem opcField_of_selects {r : Row} {w : Word32} (hr : r ∈ opcodeMap) (h : r.selects w = true) :
    opcField w = opcField r.pattern := by
  have hmask : ∀ r ∈ opcodeMap, opcField r.mask = BitVec.allOnes 8 := by decide
  exact extractLsb'_of_selects h (hmask r hr)

/-- Every row fixes RSV at 0 (rules R64, R70). -/
theorem rsvField_of_selects {r : Row} {w : Word32} (hr : r ∈ opcodeMap) (h : r.selects w = true) :
    rsvField w = 0#8 := by
  have hmap : ∀ r ∈ opcodeMap, rsvField r.mask = BitVec.allOnes 8 ∧ rsvField r.pattern = 0#8 := by decide
  obtain ⟨hones, hzero⟩ := hmap r hr
  exact (extractLsb'_of_selects h hones).trans hzero

/-- At most one row selects a word, for no two rows share an opcode (rule R71). -/
theorem eq_of_selects {r r' : Row} {w : Word32} (hr : r ∈ opcodeMap) (hr' : r' ∈ opcodeMap)
    (h : r.selects w = true) (h' : r'.selects w = true) : r = r' :=
  List.inj_on_of_nodup_map (List.pairwise_map.mpr opcodeMap_disjoint) hr hr'
    ((opcField_of_selects hr h).symm.trans (opcField_of_selects hr' h'))

/-- The decoder's search answers with a row that selects the word. -/
theorem selects_of_find? {w : Word32} {r : Row} (h : opcodeMap.find? (·.selects w) = some r) :
    r ∈ opcodeMap ∧ r.selects w = true :=
  ⟨List.mem_of_find?_eq_some h, List.find?_some (p := fun r : Row => r.selects w) h⟩

/-- The decoder's search finds the row that selects the word. -/
theorem find?_of_selects {w : Word32} {r : Row} (hr : r ∈ opcodeMap) (h : r.selects w = true) :
    opcodeMap.find? (·.selects w) = some r := by
  cases hf : opcodeMap.find? (·.selects w) with
  | none => exact absurd h (List.find?_eq_none.mp hf r hr)
  | some r' =>
    obtain ⟨hr', h'⟩ := selects_of_find? hf
    rw [eq_of_selects hr hr' h h']

/-! ### What the decoder answers -/

/-- The answer for a selected word is its row's (rule R72). -/
theorem decode_of_selects {r : Row} {c : Command} (hr : r ∈ opcodeMap) (h : r.selects c.w = true) :
    decode c = rowOperands r.op (faField c.w) (fbField c.w) c.a c.b := by
  rw [decode, if_neg (not_not.mpr (rsvField_of_selects hr h)), find?_of_selects hr h]

/-- A word that no row selects does not decode (rule R71). -/
theorem exists_selects_of_decode_eq_ok {c : Command} {i : Instr} (h : decode c = .ok i) :
    ∃ r ∈ opcodeMap, r.selects c.w = true := by
  unfold decode at h
  split at h
  · cases h
  · split at h
    · next r hf => exact ⟨r, selects_of_find? hf⟩
    · split at h <;> cases h

/-- The register numbers are 0 to 6 (rule R23). -/
theorem exists_ofNumber_eq_some_iff (n : Byte) : (∃ r, RegName.ofNumber n = some r) ↔ n.toNat ≤ 6 := by
  rw [← Option.isSome_iff_exists]
  revert n
  decide

end Sys2Proof

namespace Sys2Proof.Machine

open Sys2Proof.Safety

/-- The decoder's range checks are those of rule R65. -/
theorem exists_rowOperands_eq_ok_iff (op : Opcode) (fa fb : Byte) (a b : Word64) :
    (∃ i, rowOperands op fa fb a b = .ok i) ↔ fieldsInRange op fa fb = true := by
  cases op with
  | rdreg =>
    have hreg := exists_ofNumber_eq_some_iff fa
    cases hf : RegName.ofNumber fa <;> simpa [rowOperands, fieldsInRange, hf] using hreg
  | mod => by_cases hfa : fa.toNat ≤ 64 <;> simp [rowOperands, fieldsInRange, hfa]
  | ham => by_cases hlen : fa.toNat ≤ 64 ∧ fb.toNat ≤ 64 <;> simp [rowOperands, fieldsInRange, hlen]
  | _ => simp [rowOperands, fieldsInRange]

/-- A transaction decodes exactly when its word is legal, whatever its operand words (rule R71). -/
theorem exists_decode_eq_ok_iff (c : Command) : (∃ i, decode c = .ok i) ↔ LegalWord c.w := by
  constructor
  · rintro ⟨i, hi⟩
    obtain ⟨r, hr, hsel⟩ := exists_selects_of_decode_eq_ok hi
    rw [decode_of_selects hr hsel] at hi
    exact ⟨r, hr, hsel, (exists_rowOperands_eq_ok_iff _ _ _ _ _).mp ⟨i, hi⟩⟩
  · rintro ⟨r, hr, hsel, hrange⟩
    rw [decode_of_selects hr hsel]
    exact (exists_rowOperands_eq_ok_iff _ _ _ _ _).mpr hrange

/-! ### Illegal words -/

/-- Performing an illegal word ends with ILLEGAL (rule R71). -/
theorem performCommand_of_not_legalWord {c : Command} (s : State) (h : ¬ LegalWord c.w) :
    performCommand c s = .next (illegalRefused s) := by
  cases hd : decode c with
  | ok i => exact absurd ((exists_decode_eq_ok_iff c).mp ⟨i, hd⟩) h
  | error e => simp only [performCommand, hd]; rfl

/-- The opcodes of rule R71 are those of no row. -/
theorem not_legalWord_of_opcode_undefined {w : Word32}
    (hopc : (0x04 ≤ (opcField w).toNat ∧ (opcField w).toNat ≤ 0x07) ∨
      (0x0B ≤ (opcField w).toNat ∧ (opcField w).toNat ≤ 0x0F) ∨
      (0x13 ≤ (opcField w).toNat ∧ (opcField w).toNat ≤ 0x17) ∨ 0x19 ≤ (opcField w).toNat) : ¬ LegalWord w := by
  rintro ⟨r, hr, hsel, -⟩
  rw [opcField_of_selects hr hsel] at hopc
  revert hopc
  clear hsel
  revert r
  decide

/-- Settles O5: a word decodes exactly when it is legal (`exists_decode_eq_ok_iff`), its opcode leaves at most one row to
select it (`eq_of_selects`), and what does not decode ends with ILLEGAL (`performCommand_of_not_legalWord`). -/
theorem wordIsLegalExactlyWhenOneRowSelectsIt : Obligations.WordIsLegalExactlyWhenOneRowSelectsIt := by
  unfold Obligations.WordIsLegalExactlyWhenOneRowSelectsIt
  exact ⟨exists_decode_eq_ok_iff, fun w r hr r' hr' => eq_of_selects hr hr',
    fun w => not_legalWord_of_opcode_undefined, fun c s => performCommand_of_not_legalWord s⟩

/-! ### Must-be-zero fields -/

theorem rsvField_of_legalWord {w : Word32} (h : LegalWord w) : rsvField w = 0#8 := by
  obtain ⟨r, hr, hsel, -⟩ := h
  exact rsvField_of_selects hr hsel

/-- A field that every row with one of the opcodes fixes at 0 is 0 in every legal word with one of them. -/
theorem extractLsb'_eq_zero_of_legalWord {w : Word32} {opcodes : List Byte} {i n : Nat}
    (hmap : ∀ r ∈ opcodeMap, opcField r.pattern ∈ opcodes →
      r.mask.extractLsb' i n = BitVec.allOnes n ∧ r.pattern.extractLsb' i n = 0#n)
    (h : LegalWord w) (hopc : opcField w ∈ opcodes) : w.extractLsb' i n = 0#n := by
  obtain ⟨r, hr, hsel, -⟩ := h
  obtain ⟨hones, hzero⟩ := hmap r hr (opcField_of_selects hr hsel ▸ hopc)
  exact (extractLsb'_of_selects hsel hones).trans hzero

/-- A ready block takes the oldest command offered and performs it (rules R29, R32). -/
theorem step_of_cmdIn {s : State} {c : Command} {rest : List Command} (hrst : s.rstEdges = 0)
    (hphase : s.phase = .idle) (hcmd : s.cmdIn = c :: rest) : step s = performCommand c (s.accept c rest) := by
  simp [step, hrst, hphase, hcmd]

/-- Settles O6: a legal word has RSV and the fields its opcode leaves unused at 0, so the word is illegal, and the step
that takes it performs it (`performCommand_of_not_legalWord`). -/
theorem nonzeroReservedFieldIsIllegal : Obligations.NonzeroReservedFieldIsIllegal := by
  unfold Obligations.NonzeroReservedFieldIsIllegal
  intro s c rest hrst hphase hcmd hfields
  have hillegal : ¬ LegalWord c.w := by
    intro hlegal
    obtain hrsv | ⟨hopc, hfa⟩ | ⟨hopc, hfb⟩ := hfields
    · exact hrsv (rsvField_of_legalWord hlegal)
    · exact hfa (extractLsb'_eq_zero_of_legalWord (by decide) hlegal hopc)
    · exact hfb (extractLsb'_eq_zero_of_legalWord (by decide) hlegal hopc)
  rw [step_of_cmdIn hrst hphase hcmd, performCommand_of_not_legalWord _ hillegal]
  rfl

/-! ### Ignored operand words -/

/-- An operand word reaches a result only through the operands of the selected row (rules R69, R72). -/
theorem performCommand_congr_operands {w : Word32} {a b a' b' : Word64} (s : State)
    (h : ∀ r ∈ opcodeMap, opcField w = opcField r.pattern →
      rowOperands r.op (faField w) (fbField w) a b = rowOperands r.op (faField w) (fbField w) a' b') :
    performCommand ⟨w, a, b⟩ s = performCommand ⟨w, a', b'⟩ s := by
  by_cases hw : LegalWord w
  · obtain ⟨r, hr, hsel, -⟩ := hw
    have hdecode : decode ⟨w, a, b⟩ = decode ⟨w, a', b'⟩ :=
      calc decode ⟨w, a, b⟩ = rowOperands r.op (faField w) (fbField w) a b := decode_of_selects hr hsel
        _ = rowOperands r.op (faField w) (fbField w) a' b' := h r hr (opcField_of_selects hr hsel)
        _ = decode ⟨w, a', b'⟩ := (decode_of_selects (c := ⟨w, a', b'⟩) hr hsel).symm
    rw [performCommand, performCommand, hdecode]
  · rw [performCommand_of_not_legalWord s hw, performCommand_of_not_legalWord s hw]

/-- The rows that ignore A and B (rule R65). -/
theorem rowOperands_ignores_ab {op : Opcode} (h : op ∉ [.setsnr, .mod, .det, .ham, .awgn]) (fa fb : Byte)
    (a b a' b' : Word64) : rowOperands op fa fb a b = rowOperands op fa fb a' b' := by
  cases op with
  | setsnr | mod | det | ham | awgn => simp at h
  | _ => rfl

/-- The rows that ignore B (rule R65). -/
theorem rowOperands_ignores_b {op : Opcode} (h : op ∉ [.det, .ham, .awgn]) (fa fb : Byte) (a b b' : Word64) :
    rowOperands op fa fb a b = rowOperands op fa fb a b' := by
  cases op with
  | det | ham | awgn => simp at h
  | _ => rfl

/-- Settles O7: the opcode tells the row, and the rows of the other opcodes read neither operand word
(`rowOperands_ignores_ab`), or not B (`rowOperands_ignores_b`). -/
theorem ignoredOperandWordsHaveNoEffect : Obligations.IgnoredOperandWordsHaveNoEffect := by
  unfold Obligations.IgnoredOperandWordsHaveNoEffect
  have hab : ∀ r ∈ opcodeMap, opcField r.pattern ∉ [0x02#8, 0x10#8, 0x11#8, 0x12#8, 0x18#8] →
      r.op ∉ [.setsnr, .mod, .det, .ham, .awgn] := by decide
  have hb : ∀ r ∈ opcodeMap, opcField r.pattern ∉ [0x11#8, 0x12#8, 0x18#8] → r.op ∉ [.det, .ham, .awgn] := by decide
  refine fun w a b a' b' s => ⟨fun hopc => ?_, fun hopc => ?_⟩
  · exact performCommand_congr_operands s fun r hr heq => rowOperands_ignores_ab (hab r hr (heq ▸ hopc)) _ _ _ _ _ _
  · exact performCommand_congr_operands s fun r hr heq => rowOperands_ignores_b (hb r hr (heq ▸ hopc)) _ _ _ _ _

/-! ### The example lines -/

/-- A line of text is assembled in two stages: what it reads as, and the transaction of that. -/
theorem assemble_of_readLine {text : List Char} (line : AsmLine) {c : Command} (hread : readLine text = some line)
    (hline : line.assemble = c) : (readLine text).map AsmLine.assemble = some c := by
  rw [hread, ← hline]; rfl

/-- Settles O3: each line with what it reads as. The decimal literals are rounded in the kernel (rule R75). -/
theorem exampleEncodingsDecode : Obligations.ExampleEncodingsDecode := by
  unfold Obligations.ExampleEncodingsDecode
  refine ⟨⟨assemble_of_readLine (.setsch 3#8) (by decide) rfl, rfl⟩,
    ⟨assemble_of_readLine (.setsnr (.decimal false 100 10)) (by decide) (by decide +kernel), rfl⟩,
    ⟨assemble_of_readLine (.rdreg 4#8) (by decide) rfl, rfl⟩,
    ⟨assemble_of_readLine (.romrd 1#8 2#8) (by decide) rfl, rfl⟩,
    ⟨assemble_of_readLine (.modString [false, true, true, false]) (by decide) rfl, rfl⟩,
    ⟨assemble_of_readLine (.det (.decimal false 5 10) (.decimal true 25 100)) (by decide) (by decide +kernel), rfl⟩,
    ⟨assemble_of_readLine (.hamStrings [true, false, true] [true, false]) (by decide) rfl, rfl⟩,
    ⟨assemble_of_readLine (.awgn (.decimal false 10 10) (.decimal false 0 10)) (by decide) (by decide +kernel), rfl⟩⟩

end Sys2Proof.Machine
end

section
/-! PROOFS. The noise registers (rule R82): which commands and which steps change NVAR and NSD. -/

namespace Sys2Proof.Machine

@[simp] theorem State.deliver_nvar (s : State) (rest : List Beat) : (s.deliver rest).nvar = s.nvar := by
  rcases deliver_cases s rest with ⟨_, h⟩ | ⟨n, _, h⟩ <;> rw [h]

@[simp] theorem State.deliver_nsd (s : State) (rest : List Beat) : (s.deliver rest).nsd = s.nsd := by
  rcases deliver_cases s rest with ⟨_, h⟩ | ⟨n, _, h⟩ <;> rw [h]

/-- Performing a command takes nothing from the command port: accepting it did. -/
theorem exec_keeps_cmdIn {i : Instr} {s t : State} (h : exec i s = .next t) : t.cmdIn = s.cmdIn := by
  obtain ⟨st, _, rfl⟩ | ⟨beats, rfl⟩ | ⟨c, sch, _, _, rfl⟩ | ⟨x, _, _, rfl⟩ | ⟨x, y, _, _, _, hd⟩ := exec_next_cases h
  · exact s.raise_cmdIn st
  · exact s.respond_cmdIn beats
  · exact State.configure_cmdIn s sch s.ebn0
  · exact State.configure_cmdIn s s.scheme x
  · obtain ⟨_, rfl⟩ | ⟨d, ds, b, _, _, rfl⟩ := hd <;> rfl

theorem exec_keeps_noise {i : Instr} {s t : State} (hsch : ∀ c, i ≠ .setsch c) (hsnr : ∀ x, i ≠ .setsnr x)
    (h : exec i s = .next t) : t.nvar = s.nvar ∧ t.nsd = s.nsd := by
  obtain ⟨st, _, rfl⟩ | ⟨beats, rfl⟩ | ⟨c, sch, hi, _⟩ | ⟨x, hi, _⟩ | ⟨x, y, _, _, _, hd⟩ := exec_next_cases h
  · exact ⟨s.raise_nvar st, s.raise_nsd st⟩
  · exact ⟨s.respond_nvar beats, s.respond_nsd beats⟩
  · exact absurd hi (hsch c)
  · exact absurd hi (hsnr x)
  · obtain ⟨_, rfl⟩ | ⟨d, ds, b, _, _, rfl⟩ := hd <;> exact ⟨rfl, rfl⟩

/-- An illegal word raises its flag only (rule R71), so a transaction that changes NVAR or NSD decodes, and to one of
the two commands `exec_keeps_noise` leaves out. -/
theorem exists_decode_of_noise_changed {c : Command} {s t : State} (h : performCommand c s = .next t)
    (hne : t.nvar ≠ s.nvar ∨ t.nsd ≠ s.nsd) :
    ∃ i, decode c = .ok i ∧ exec i s = .next t ∧ ((∃ k, i = .setsch k) ∨ ∃ x, i = .setsnr x) := by
  obtain ⟨_, _, rfl⟩ | ⟨i, hdec, hexec⟩ := performCommand_next_cases h
  · simp at hne
  · refine ⟨i, hdec, hexec, ?_⟩
    by_contra hother
    obtain ⟨hsch, hsnr⟩ := not_or.mp hother
    obtain ⟨hnvar, hnsd⟩ := exec_keeps_noise (fun k hk => hsch ⟨k, hk⟩) (fun x hx => hsnr ⟨x, hx⟩) hexec
    exact hne.elim (· hnvar) (· hnsd)

/-- Settles O26: of the steps out of reset only one that performs a transaction can change NVAR or NSD, and
`exists_decode_of_noise_changed` names its command; a waiting AWGN falls under `exec_keeps_noise`. -/
theorem onlySetschSetsnrAndResetChangeNoise : Obligations.OnlySetschSetsnrAndResetChangeNoise := by
  unfold Obligations.OnlySetschSetsnrAndResetChangeNoise
  refine ⟨fun i s t => exec_keeps_noise, fun s t hr h hne => ?_⟩
  obtain ⟨hr', _⟩ | ⟨_, hstep⟩ := step_next_cases h
  · exact absurd hr hr'
  · obtain ⟨_, _, rfl⟩ | ⟨c, rest, hp, hin, hc⟩ | ⟨c, hp, hc⟩ | ⟨x, y, _, hx⟩ | ⟨b, rest, _, rfl⟩ := hstep
    · simp at hne
    · obtain ⟨i, hdec, hexec, hi⟩ := exists_decode_of_noise_changed hc hne
      have hrest : t.cmdIn = rest := exec_keeps_cmdIn hexec
      exact ⟨c, i, hdec, hi, .inr ⟨hp, hrest ▸ hin⟩⟩
    · obtain ⟨i, hdec, _, hi⟩ := exists_decode_of_noise_changed hc hne
      exact ⟨c, i, hdec, hi, .inl hp⟩
    · obtain ⟨hnvar, hnsd⟩ := exec_keeps_noise (by simp) (by simp) hx
      exact absurd hne (by simp [hnvar, hnsd])
    · simp at hne

end Sys2Proof.Machine
end

section
/-! PROOFS. The draws of AWGN (rules R12, R92, R93): how the two comparisons exclude each other, and what a finite sample
does with the draw it takes. -/

namespace Sys2Proof.F64

/-- Less-than compares the keys of two values that are not NaN (rule R12). -/
theorem lt_eq_true_iff (a b : F64) : lt a b = true ↔ isNaN a = false ∧ isNaN b = false ∧ key a < key b := by
  simp [lt, and_assoc]

/-- The ordered a ≤ b compares the keys of two values that are not NaN (rule R12). -/
theorem le_eq_true_iff (a b : F64) : le a b = true ↔ isNaN a = false ∧ isNaN b = false ∧ key a ≤ key b := by
  simp [le, lt, eq, and_assoc, ← and_or_left, le_iff_lt_or_eq]

theorem le_eq_false_of_lt {a b : F64} (h : lt a b = true) : le b a = false := by
  rw [Bool.eq_false_iff, Ne, le_eq_true_iff]
  obtain ⟨_, _, hlt⟩ := (lt_eq_true_iff a b).mp h
  exact fun ⟨_, _, hle⟩ => hlt.not_ge hle

theorem lt_eq_false_of_le {a b : F64} (h : le a b = true) : lt b a = false :=
  Bool.eq_false_iff.mpr fun hlt => Bool.eq_false_iff.mp (le_eq_false_of_lt hlt) h

theorem lt_eq_false_of_isNaN_left {a : F64} (b : F64) (h : isNaN a = true) : lt a b = false := by
  simp [lt, h]

end Sys2Proof.F64

namespace Sys2Proof.Machine

/-- The three ways a uniform breaks the contract (rule R93) all break it. -/
theorem uniformOk_eq_false {u : F64} (h : F64.isNaN u = true ∨ F64.lt u 0#64 = true ∨ F64.le F64.one u = true) :
    uniformOk u = false := by
  rw [uniformOk, Bool.and_eq_false_iff]
  obtain hnan | hneg | hone := h
  · exact .inr (F64.lt_eq_false_of_isNaN_left F64.one hnan)
  · exact .inl (F64.le_eq_false_of_lt hneg)
  · exact .inr (F64.lt_eq_false_of_le hone)

/-- One uniform outside the contract puts the draw outside it (rule R92). -/
theorem Draw.ok_eq_false {d : Draw} (h : uniformOk d.u1 = false ∨ uniformOk d.u2 = false) : d.ok = false :=
  Bool.and_eq_false_iff.mpr h

theorem Sample.isFinite_mk {x y : F64} (hx : F64.isFinite x = true) (hy : F64.isFinite y = true) :
    (Sample.mk x y).isFinite = true :=
  Bool.and_eq_true_iff.mpr ⟨hx, hy⟩

/-- The converse of `exec_fault_cases`: an AWGN of a finite sample whose draw is outside the contract is a fault. -/
theorem exec_awgn_of_not_ok {s : State} {x y : F64} {d : Draw} {ds : List Draw} (hx : F64.isFinite x = true)
    (hy : F64.isFinite y = true) (hd : s.drawIn = d :: ds) (hok : d.ok = false) :
    exec (.awgn x y) s = .fault .drawOutOfContract := by
  simp [exec, execAwgn, Sample.isFinite_mk hx hy, hd, hok]

/-- Settles O49: each way to break rule R92 makes the comparisons of `uniformOk` fail (`uniformOk_eq_false`), in u1 or in
u2, and such a draw stops the AWGN that took it (`exec_awgn_of_not_ok`). -/
theorem drawOutsideContractIsAFault : Obligations.DrawOutsideContractIsAFault := by
  unfold Obligations.DrawOutsideContractIsAFault
  intro s x y d ds hx hy hd hbad
  refine exec_awgn_of_not_ok hx hy hd (Draw.ok_eq_false ?_)
  obtain hnan | hneg | hone | hu2 := hbad
  · exact .inl (uniformOk_eq_false (.inl hnan))
  · exact .inl (uniformOk_eq_false (.inr (.inl hneg)))
  · exact .inl (uniformOk_eq_false (.inr (.inr hone)))
  · exact .inr (uniformOk_eq_false hu2)

end Sys2Proof.Machine
end

section
/-! PROOFS. How a command that is refused ends (rules R98 to R101): the error statuses, what they change, and that
INVALID_STATE is none of those a command ends with. -/

namespace Sys2Proof.Machine

open Sys2Proof.Safety

/-! ### A refusal changes one flag -/

/-- A response with beats has status OK (rule R73). -/
theorem State.respond_status {s : State} {beats : List Beat} {b : Beat} {rest : List Beat}
    (hp : (s.respond beats).phase = .resp b rest) : b.l = 0#8 := by
  cases hp
  rfl

/-- The refusals answer by `State.raise` and no command that changes another register does, so a status other than OK
tells the whole state. -/
theorem exec_eq_raise_of_status {i : Instr} {s t : State} {b : Beat} {rest : List Beat} (h : exec i s = .next t)
    (hp : t.phase = .resp b rest) (hl : b.l ≠ 0#8) : ∃ st, st ≠ .ok ∧ t = s.raise st := by
  obtain hraise | ⟨beats, rfl⟩ | ⟨c, sch, _, _, rfl⟩ | ⟨x, _, _, rfl⟩ | ⟨x, y, _, _, _, hd⟩ := exec_next_cases h
  · exact hraise
  · exact absurd (State.respond_status hp) hl
  · exact absurd (State.respond_status hp) hl
  · exact absurd (State.respond_status hp) hl
  · obtain ⟨_, rfl⟩ | ⟨d, ds, noisy, _, _, rfl⟩ := hd
    · cases hp
    · exact absurd (State.respond_status hp) hl

theorem performCommand_eq_raise_of_status {c : Command} {s t : State} {b : Beat} {rest : List Beat}
    (h : performCommand c s = .next t) (hp : t.phase = .resp b rest) (hl : b.l ≠ 0#8) :
    ∃ st, st ≠ .ok ∧ t = s.raise st := by
  obtain ⟨_, _, rfl⟩ | ⟨i, _, hi⟩ := performCommand_next_cases h
  · exact ⟨.illegal, by decide, rfl⟩
  · exact exec_eq_raise_of_status hi hp hl

/-- The host takes the beat the block offers (rule R33). -/
theorem step_of_resp {s : State} {b : Beat} {rest : List Beat} {n : Nat} (hrst : s.rstEdges = 0)
    (hp : s.phase = .resp b rest) (htakes : s.rspTakes = n + 1) :
    step s = .next { s with phase := afterBeat rest, rspTakes := n } := by
  simp [step, hrst, hp, State.deliver, htakes]

/-- Settles O18: a status other than OK comes only from `State.raise` (`performCommand_eq_raise_of_status`), which writes
one flag and offers a header beat with nothing after it, so the next beat taken leaves the block ready (`step_of_resp`). -/
theorem errorChangesOneFlagOnly : Obligations.ErrorChangesOneFlagOnly := by
  unfold Obligations.ErrorChangesOneFlagOnly
  intro c s t b rest h hp hl
  obtain ⟨st, hst, rfl⟩ := performCommand_eq_raise_of_status h hp hl
  cases hp
  exact ⟨⟨st, hst, rfl, rfl⟩, fun n hrst htakes => step_of_resp hrst (s.raise_phase st) htakes⟩

/-! ### The two lookups that could fail -/

/-- Every label of a scheme is looked up to an entry (rules R50, R87). -/
theorem lutEntry_isSome_of_lt {sch : Scheme} {v : Nat} (h : v < alphabetSize sch) : (lutEntry sch v).isSome = true := by
  obtain ⟨i, e, hi, he, _⟩ := lutIndex_of_lt h
  simp [lutEntry, hi, he]

/-- A group of k bits is a number of k bits (rule R9). -/
theorem lt_of_mem_bitGroups {n k v : Nat} {w : Word64} (h : v ∈ bitGroups n k w) : v < 2 ^ k := by
  obtain ⟨j, _, rfl⟩ := List.mem_map.mp h
  exact Nat.mod_lt _ (Nat.two_pow_pos k)

theorem exists_nearest {points : List RomEntry} (h : points ≠ []) (r : Sample) : ∃ e, nearest r points = some e := by
  obtain ⟨p, ps, rfl⟩ := List.exists_cons_of_ne_nil h
  exact ⟨_, rfl⟩

/-- DET always has a point to answer with, whatever BPS holds: 2^BPS is at least 1, and no table is empty (rule R89). -/
theorem exists_nearest_take_romTable (sch : Scheme) (k : Nat) (r : Sample) :
    ∃ e, nearest r ((romTable sch).take (2 ^ k)) = some e := by
  refine exists_nearest (List.ne_nil_of_length_pos ?_) r
  rw [List.length_take, romTable_length]
  exact lt_min (Nat.two_pow_pos k) (Nat.two_pow_pos _)

/-! ### INVALID_STATE -/

theorem statusCode_eq_three_iff (st : Status) : (statusCode st).setWidth 8 = 3#8 ↔ st = .invalidState := by
  cases st <;> decide

@[simp] theorem State.respond_ne_raise_invalidState (u s : State) (beats : List Beat) :
    u.respond beats ≠ s.raise .invalidState :=
  fun h => absurd (State.respond_status (congrArg State.phase h)) (by decide)

@[simp] theorem State.raise_invalidArgument_ne_raise_invalidState (u s : State) :
    u.raise .invalidArgument ≠ s.raise .invalidState :=
  fun h => absurd (congrArg State.phase h) (by simp [headerBeat])

/-- The one command that can end with INVALID_STATE is a MOD with a group that is the label of no entry (rule R87). -/
theorem exists_mod_of_exec_eq_raise_invalidState {i : Instr} {s : State}
    (h : exec i s = .next (s.raise .invalidState)) :
    ∃ n a, i = .mod n a ∧ ∃ v ∈ bitGroups n.toNat s.bps.toNat a, lutEntry s.scheme v = none := by
  cases i with
  | mod n a =>
    refine ⟨n, a, rfl, ?_⟩
    by_contra hall
    have hfound : ∀ v ∈ bitGroups n.toNat s.bps.toNat a, (lutEntry s.scheme v).isSome = true :=
      fun v hv => Option.isSome_iff_ne_none.mpr fun hv' => hall ⟨v, hv, hv'⟩
    simp only [exec, execMod, List.all_eq_true.mpr hfound, if_true, Host.Outcome.next.injEq] at h
    split at h <;> simp at h
  | det x y =>
    obtain ⟨e, he⟩ := exists_nearest_take_romTable s.scheme s.bps.toNat ⟨x, y⟩
    simp only [exec, execDet, he, Host.Outcome.next.injEq] at h
    split at h <;> simp at h
  | nop | rdreg => simp [exec, execNop, execRdreg] at h
  | setsch | setsnr | bpsq | genc =>
    simp only [exec, execSetsch, execSetsnr, execBpsq, execGenc, Host.Outcome.next.injEq] at h
    split at h <;> simp at h
  | romrd | ham =>
    simp only [exec, execRomrd, execHam, Host.Outcome.next.injEq] at h
    split at h
    · simp at h
    · split at h <;> simp at h
  | awgn x y =>
    simp only [exec, execAwgn] at h
    split at h
    · split at h
      · exact absurd (congrArg State.phase (Host.Outcome.next.inj h)) (by simp)
      · split at h <;> simp at h
    · simp at h

/-- Settles O20: a response with status 3 is a raise of INVALID_STATE (`exec_eq_raise_of_status`), which needs a group
without an entry; groups of the width of SCHEME are labels of it, and each has one (`lutEntry_isSome_of_lt`). -/
theorem invalidStateIsNeverProduced : Obligations.InvalidStateIsNeverProduced := by
  unfold Obligations.InvalidStateIsNeverProduced
  constructor
  · intro i s t b rest hbps h hp hl
    obtain ⟨st, _, rfl⟩ := exec_eq_raise_of_status h hp (by rw [hl]; decide)
    cases hp
    obtain rfl : st = .invalidState := (statusCode_eq_three_iff st).mp hl
    obtain ⟨n, a, _, v, hv, hnone⟩ := exists_mod_of_exec_eq_raise_invalidState h
    have hlt : v < alphabetSize s.scheme := by
      rw [alphabetSize, ← hbps]
      exact lt_of_mem_bitGroups hv
    simpa [hnone] using lutEntry_isSome_of_lt hlt
  · intro sch v hv
    obtain ⟨j, e, hj, _⟩ := lutIndex_of_lt hv
    simp [hj]

end Sys2Proof.Machine
end

section
/-! PROOFS. Reset (rules R114, R115): the outputs while `rst` is 1, and the block that stands ready after the last reset
edge. -/

namespace Sys2Proof.Machine

variable {s : State}

/-! ### The outputs while `rst` is 1 -/

theorem State.cmdReady_iff : s.cmdReady = true ↔ s.rstEdges = 0 ∧ s.phase = .idle := decide_eq_true_iff

theorem State.cmdReady_of_rst (hrst : s.rstEdges ≠ 0) : s.cmdReady = false :=
  Bool.eq_false_iff.mpr fun hready => hrst (State.cmdReady_iff.mp hready).1

theorem State.rspBeat_of_rst (hrst : s.rstEdges ≠ 0) : s.rspBeat = none := by
  unfold State.rspBeat
  split
  · exact if_neg hrst
  · rfl

theorem State.drwReady_of_rst (hrst : s.rstEdges ≠ 0) : s.drwReady = false := by
  unfold State.drwReady
  split
  · exact decide_eq_false hrst
  · rfl

/-- Settles O9: in reset every output is 0, and the step is the reset edge (`step_of_rst`), whose fields are the reset
values and the ports as they were. -/
theorem resetEdgeSetsEveryRegister : Obligations.ResetEdgeSetsEveryRegister := by
  unfold Obligations.ResetEdgeSetsEveryRegister
  intro s hpos
  have hrst : s.rstEdges ≠ 0 := hpos.ne'
  exact ⟨State.cmdReady_of_rst hrst, State.rspBeat_of_rst hrst, State.drwReady_of_rst hrst, step_of_rst hrst⟩

/-! ### The ready block -/

/-- A ready block stays as it is while the host offers no command (rule R35). -/
theorem step_of_cmdIn_nil (hready : s.cmdReady = true) (hcmd : s.cmdIn = []) : step s = .next s := by
  obtain ⟨hrst, hphase⟩ := State.cmdReady_iff.mp hready
  simp [step, hrst, hphase, hcmd]

/-- The last reset edge leaves the block ready (rule R115). -/
theorem State.resetEdge_cmdReady (hlast : s.rstEdges = 1) : s.resetEdge.cmdReady = true :=
  State.cmdReady_iff.mpr ⟨by rw [State.resetEdge_rstEdges, hlast], s.resetEdge_phase⟩

/-- Settles O10: the state after the last reset edge is ready (`State.resetEdge_cmdReady`) with the reset values, and a
ready block offered no command stands still (`step_of_cmdIn_nil`). -/
theorem blockIsReadyAfterReset : Obligations.BlockIsReadyAfterReset := by
  unfold Obligations.BlockIsReadyAfterReset
  intro s hlast
  have hready : s.resetEdge.cmdReady = true := State.resetEdge_cmdReady hlast
  exact ⟨s.resetEdge, step_of_rst (by omega), hready, s.resetEdge_phase, s.resetEdge_scheme, s.resetEdge_bps,
    s.resetEdge_ebn0, s.resetEdge_esn0, s.resetEdge_nvar, s.resetEdge_nsd, s.resetEdge_errf, s.resetEdge_cmdIn,
    step_of_cmdIn_nil hready⟩

end Sys2Proof.Machine
end

section
/-! PROOFS. The pseudo-commands (rule R76) and the round trips of the encoding (rules R63, R65, R69, R70, R72). -/

namespace Sys2Proof.Machine

/-! ### The pseudo-commands -/

-- Elaborated in its turn: a kernel evaluation waits for all that stands before it to be checked, and the evaluations of
-- the tests would else still wait, a thread each, beside those of the proofs below.
set_option Elab.async false in
/-- The literal 0.0 is the word of +0 (rules R75, R13). -/
theorem decimal_zero_bits : (AsmReal.decimal false 0 1).bits = 0#64 := by decide +kernel

/-- Settles O4: each pseudo-command and its expansion assemble to one transaction, the 0.0 of NOISE to the word 0. -/
theorem pseudoCommandsExpand : Obligations.PseudoCommandsExpand := by
  unfold Obligations.PseudoCommandsExpand
  refine ⟨fun k v => rfl, ?_, rfl, rfl, fun i q => rfl⟩
  simp only [AsmLine.assemble, decimal_zero_bits]

end Sys2Proof.Machine

namespace Sys2Proof

open Sys2Proof.Laws.SelectsItsRow

/-! ### Decoding an encoding -/

/-- The row of its own opcode selects the word of every command. -/
theorem selectsItsRow : ∀ i : Instr, Statement i
  | .nop => nop
  | .setsch c => setsch c
  | .setsnr x => setsnr x
  | .rdreg r => rdreg r
  | .bpsq c => bpsq c
  | .romrd i c => romrd i c
  | .genc c => genc c
  | .mod n a => mod n a
  | .det i q => det i q
  | .ham na nb a b => ham na nb a b
  | .awgn i q => awgn i q

/-- The decoder reads the operands of an encoding by the row of the command it encodes. -/
theorem decode_encode (i : Instr) :
    decode (encode i)
      = rowOperands (opcodeOf i) (faField (encode i).w) (fbField (encode i).w) (encode i).a (encode i).b := by
  obtain ⟨_, r, hr, hop, hsel⟩ := selectsItsRow i
  rw [decode_of_selects hr hsel, hop]

/-- A row reads back the fields and operand words that the encoder wrote, if they are in range (rules R65, R72). -/
theorem rowOperands_encode {i : Instr} (h : i.wf = true) :
    rowOperands (opcodeOf i) (faField (encode i).w) (fbField (encode i).w) (encode i).a (encode i).b = .ok i := by
  cases i with
  | rdreg r => simp [rowOperands, opcodeOf, encode]
  | mod n a => simpa [rowOperands, opcodeOf, encode, Instr.wf] using h
  | ham na nb a b => simpa [rowOperands, opcodeOf, encode, Instr.wf] using h
  | _ => simp [rowOperands, opcodeOf, encode]

/-- Settles O1: the word selects the row of its command (`decode_encode`), and that row reads every operand back
(`rowOperands_encode`). -/
theorem decodeOfEncodeGivesCommandBack : Obligations.DecodeOfEncodeGivesCommandBack := by
  unfold Obligations.DecodeOfEncodeGivesCommandBack
  exact fun i h => (decode_encode i).trans (rowOperands_encode h)

/-! ### Encoding what was decoded -/

/-- A row fixes FA at 0 or leaves it free, and likewise FB (rules R65, R70), so these free fields make up the word. -/
theorem wordOf_of_selects {r : Row} {w : Word32} (hr : r ∈ opcodeMap) (h : r.selects w = true) :
    wordOf (opcField r.pattern) (if faField r.mask = 0#8 then faField w else 0#8)
      (if fbField r.mask = 0#8 then fbField w else 0#8) = w := by
  have hfa : ∀ r ∈ opcodeMap, faField r.mask ≠ 0#8 → faField r.mask = BitVec.allOnes 8 ∧ faField r.pattern = 0#8 := by
    decide
  have hfb : ∀ r ∈ opcodeMap, fbField r.mask ≠ 0#8 → fbField r.mask = BitVec.allOnes 8 ∧ fbField r.pattern = 0#8 := by
    decide
  conv_rhs => rw [← wordOf_fields w (rsvField_of_selects hr h)]
  refine wordOf_inj.mpr ⟨(opcField_of_selects hr h).symm, ?_, ?_⟩
  · split
    · rfl
    · next hne =>
      obtain ⟨hones, hzero⟩ := hfa r hr hne
      exact ((extractLsb'_of_selects h hones).trans hzero).symm
  · split
    · rfl
    · next hne =>
      obtain ⟨hones, hzero⟩ := hfb r hr hne
      exact ((extractLsb'_of_selects h hones).trans hzero).symm

/-- The row of an opcode. -/
def rowOf (op : Opcode) : Row := (opcodeMap.find? (·.op == op)).getD ⟨op, 0#32, 0#32⟩

/-- The opcode map has one row for each opcode. -/
theorem eq_rowOf {r : Row} (hr : r ∈ opcodeMap) : r = rowOf r.op := by
  revert r
  decide

/-- The command a row answers with is in range, its operand words are those given where it uses them, and its word has the
fields that the row leaves free (rule R65). -/
theorem encode_of_rowOperands {op : Opcode} {fa fb : Byte} {a b : Word64} {i : Instr}
    (h : rowOperands op fa fb a b = .ok i) :
    i.wf = true ∧
      (encode i).w = wordOf (opcField (rowOf op).pattern) (if faField (rowOf op).mask = 0#8 then fa else 0#8)
        (if fbField (rowOf op).mask = 0#8 then fb else 0#8) ∧
      (encode i).a = (if Safety.usesA i then a else 0#64) ∧ (encode i).b = (if Safety.usesB i then b else 0#64) := by
  cases op with
  | rdreg =>
    simp only [rowOperands] at h
    split at h
    · next reg hreg =>
      cases h
      exact ⟨rfl, congrArg (wordOf 0x03#8 · 0#8) (RegName.ofNumber_eq_some hreg), rfl, rfl⟩
    · cases h
  | mod | ham =>
    simp only [rowOperands] at h
    split at h
    · next hlen => cases h; exact ⟨hlen, rfl, rfl, rfl⟩
    · cases h
  | _ => cases h; exact ⟨rfl, rfl, rfl, rfl⟩

/-- Settles O2: the row that selects the word gives the command (`encode_of_rowOperands`), and its free fields make up the
word (`wordOf_of_selects`). -/
theorem encodeOfDecodedGivesWordsBack : Obligations.EncodeOfDecodedGivesWordsBack := by
  unfold Obligations.EncodeOfDecodedGivesWordsBack
  intro c i h
  obtain ⟨r, hr, hsel⟩ := exists_selects_of_decode_eq_ok h
  rw [decode_of_selects hr hsel] at h
  obtain ⟨hwf, hw, ha, hb⟩ := encode_of_rowOperands h
  rw [← eq_rowOf hr] at hw
  exact ⟨hwf, hw.trans (wordOf_of_selects hr hsel), ha, hb⟩

/-- Only commands in range are decoded (rules R65, R72). -/
theorem wf_of_decode {c : Command} {i : Instr} (h : decode c = .ok i) : i.wf = true :=
  (encodeOfDecodedGivesWordsBack c i h).1

end Sys2Proof
end

section
/-! PROOFS. The control and constellation commands (rules R79 to R86) and the ROM (rules R37, R38, R42, R54): what each
command answers, said once in the words of the statements. -/

-- In turn, not side by side: each kernel evaluation waits in a thread of its own for all before it to be checked.
set_option Elab.async false

namespace Sys2Proof.Machine

open Sys2Proof.Safety

/-! ### The two ways a command answers -/

/-- The answer with status OK, in the statements' words (rule R73). -/
theorem State.respond_eq (s : State) (beats : List Beat) : s.respond beats = { s with phase := response 0#8 beats } := rfl

/-- The refusal of an argument, in the statements' words (rule R101). -/
theorem State.raise_invalidArgument_eq (s : State) : s.raise .invalidArgument = argumentRefused s := rfl

/-! ### Control commands -/

/-- Settles O21: NOP is the answer OK and nothing else (`State.respond_eq`). -/
theorem nopOnlyAnswers : Obligations.NopOnlyAnswers := by
  unfold Obligations.NopOnlyAnswers
  exact fun s => congrArg Host.Outcome.next (s.respond_eq [])

/-- The configuration registers with the formulas of rule R26 written out. -/
theorem State.configure_eq (s : State) (sch : Scheme) (x : F64) :
    s.configure sch x =
      { s with
        scheme := sch
        bps := bpsRead sch
        ebn0 := x
        esn0 := F64.add x (esOff sch)
        nvar := F64.div F64.one (F64.mul (exp10 (F64.div x F64.ten)) (F64.ofNat (bpsRead sch).toNat))
        nsd := F64.sqrt (F64.div
          (F64.div F64.one (F64.mul (exp10 (F64.div x F64.ten)) (F64.ofNat (bpsRead sch).toNat))) F64.two) } := by
  simp only [State.configure, derive, dbToLinear, referenceMath]

/-- SETSCH with the code of a scheme (rule R80). -/
theorem exec_setsch_of_code (s : State) {c : Byte} {sch : Scheme} (h : schemeOfCode c = some sch) :
    exec (.setsch c) s = .next ((s.configure sch s.ebn0).respond []) := by
  simp [exec, execSetsch, h]

/-- Settles O22: each code names its scheme, and `State.configure_eq` gives the registers. -/
theorem setschWritesSchemeAndDerived : Obligations.SetschWritesSchemeAndDerived := by
  unfold Obligations.SetschWritesSchemeAndDerived
  intro s c hc
  have hcode : c = 0#8 ∨ c = 1#8 ∨ c = 2#8 ∨ c = 3#8 ∨ c = 4#8 := by
    revert c
    decide
  obtain rfl | rfl | rfl | rfl | rfl := hcode
  · refine ⟨.bpsk, 1, 0x0000000000000000#64, by simp, ?_⟩
    rw [exec_setsch_of_code s (sch := .bpsk) rfl, State.configure_eq]; rfl
  · refine ⟨.qpsk, 2, 0x4008151824C7587F#64, by simp, ?_⟩
    rw [exec_setsch_of_code s (sch := .qpsk) rfl, State.configure_eq]; rfl
  · refine ⟨.psk8, 3, 0x401315B8BDF1E5BE#64, by simp, ?_⟩
    rw [exec_setsch_of_code s (sch := .psk8) rfl, State.configure_eq]; rfl
  · refine ⟨.qam16, 4, 0x4018151824C7587F#64, by simp, ?_⟩
    rw [exec_setsch_of_code s (sch := .qam16) rfl, State.configure_eq]; rfl
  · refine ⟨.qam64, 6, 0x401F2044D05591FD#64, by simp, ?_⟩
    rw [exec_setsch_of_code s (sch := .qam64) rfl, State.configure_eq]; rfl

/-- The values SETSNR accepts, in the statements' words (rule R81). -/
theorem snrAccepted_eq_true_iff (x : F64) : snrAccepted referenceMath x = true ↔
    F64.isNaN x = false ∧ F64.isFinite (F64.div F64.one (exp10 (F64.div x F64.ten))) = true := by
  simp only [snrAccepted, Bool.and_eq_true, Bool.not_eq_true']
  rfl

/-- SETSNR of an accepted value (rule R81). -/
theorem exec_setsnr_of_accepted (s : State) {x : F64} (h : snrAccepted referenceMath x = true) :
    exec (.setsnr x) s = .next ((s.configure s.scheme x).respond []) := by
  simp [exec, execSetsnr, h]

/-- SETSNR of any other value (rule R81). -/
theorem exec_setsnr_of_not_accepted (s : State) {x : F64} (h : snrAccepted referenceMath x = false) :
    exec (.setsnr x) s = .next (argumentRefused s) := by
  simp [exec, execSetsnr, h, State.raise_invalidArgument_eq]

/-- Settles O24: the value is accepted, and `State.configure_eq` gives the registers. -/
theorem setsnrWritesEbn0AndDerived : Obligations.SetsnrWritesEbn0AndDerived := by
  unfold Obligations.SetsnrWritesEbn0AndDerived
  intro s x hnan hfin
  rw [exec_setsnr_of_accepted s ((snrAccepted_eq_true_iff x).mpr ⟨hnan, hfin⟩), State.configure_eq]
  rfl

/-- The BPSK variance of −∞ is 1/+0, an infinity (rules R14, R81). -/
theorem snrAccepted_negInf : snrAccepted referenceMath 0xFFF0000000000000#64 = false := by decide +kernel

/-- The largest value that is refused (rule R81). -/
theorem snrAccepted_below_smallest : snrAccepted referenceMath 0xC0A8151824C7587F#64 = false := by decide +kernel

/-- The smallest value that is accepted (rule R81). -/
theorem snrAccepted_smallest : snrAccepted referenceMath 0xC0A8151824C7587E#64 = true := by decide +kernel

/-- Settles O25: each of the three fails one of the two checks of `snrAccepted_eq_true_iff`. -/
theorem setsnrRefusesNanAndInfiniteVariance : Obligations.SetsnrRefusesNanAndInfiniteVariance := by
  unfold Obligations.SetsnrRefusesNanAndInfiniteVariance
  refine ⟨fun s x hx => exec_setsnr_of_not_accepted s ?_, snrAccepted_below_smallest, snrAccepted_smallest⟩
  obtain hnan | rfl | hinf := hx
  · exact Bool.eq_false_iff.mpr fun h => by simp [(snrAccepted_eq_true_iff x).mp h] at hnan
  · exact snrAccepted_negInf
  · exact Bool.eq_false_iff.mpr fun h => by simp [(snrAccepted_eq_true_iff x).mp h] at hinf

/-- RDREG answers with the register it names (rule R83). -/
theorem exec_rdreg (s : State) (r : RegName) :
    exec (.rdreg r) s = .next { s with phase := response 0#8 [beat (s.readReg r) 0#64 0#8] } := rfl

/-- Settles O27: `exec_rdreg` at each of the seven registers. -/
theorem rdregReturnsTheRegister : Obligations.RdregReturnsTheRegister := by
  unfold Obligations.RdregReturnsTheRegister
  exact fun s => ⟨exec_rdreg s .scheme, exec_rdreg s .bps, exec_rdreg s .ebn0, exec_rdreg s .esn0, exec_rdreg s .nvar,
    exec_rdreg s .nsd, exec_rdreg s .errf⟩

/-! ### Constellation commands -/

/-- Settles O23: the four commands look the code up first, and it names no scheme (`schemeOfCode_eq_none`). -/
theorem unknownSchemeCodeIsRefused : Obligations.UnknownSchemeCodeIsRefused := by
  unfold Obligations.UnknownSchemeCodeIsRefused
  intro s c i hc
  simp [exec, execSetsch, execBpsq, execRomrd, execGenc, schemeOfCode_eq_none hc, State.raise_invalidArgument_eq]

/-- BPSQ of the code of a scheme (rule R84). -/
theorem exec_bpsq (s : State) (sch : Scheme) :
    exec (.bpsq ((schemeCode sch).setWidth 8)) s = .next
      { s with phase := response 0#8 [beat ((bpsRead sch).setWidth 64) (BitVec.ofNat 64 (alphabetSize sch)) 0#8] } := by
  simp only [exec, execBpsq, schemeOfCode_schemeCode]
  rfl

/-- Settles O28: `exec_bpsq` at each of the five schemes. -/
theorem bpsqReturnsWidthAndSize : Obligations.BpsqReturnsWidthAndSize := by
  unfold Obligations.BpsqReturnsWidthAndSize
  exact fun s => ⟨exec_bpsq s .bpsk, exec_bpsq s .qpsk, exec_bpsq s .psk8, exec_bpsq s .qam16, exec_bpsq s .qam64⟩

/-- The beat of an entry, in the statements' words (rule R74). -/
theorem entryBeat_eq (e : RomEntry) : entryBeat e = beat e.i e.q (BitVec.ofNat 8 e.label) := rfl

/-- Settles O29: below M the read is defined (`romRead_of_lt`), from M on it is not (`romRead_of_le`). -/
theorem romrdReturnsTheEntry : Obligations.RomrdReturnsTheEntry := by
  unfold Obligations.RomrdReturnsTheEntry
  rintro s i c sch rfl
  refine ⟨fun hlt => ?_, fun hle => ?_⟩
  · obtain ⟨e, he⟩ := romRead_of_lt hlt
    refine ⟨e, he, ?_⟩
    simp only [exec, execRomrd, schemeOfCode_schemeCode, he, State.respond_eq, entryBeat_eq]
  · simp only [exec, execRomrd, schemeOfCode_schemeCode, romRead_of_le hle, State.raise_invalidArgument_eq]

/-- Settles O30: the beats are the table's entries in order, and a read below M is defined (`romRead_of_lt`). -/
theorem gencReturnsTheWholeAlphabet : Obligations.GencReturnsTheWholeAlphabet := by
  unfold Obligations.GencReturnsTheWholeAlphabet
  rintro s c sch rfl
  refine ⟨(romTable sch).map entryBeat, ?_, by simp, fun j hj => ?_⟩
  · simp only [exec, execGenc, schemeOfCode_schemeCode, State.respond_eq]
  · obtain ⟨e, he⟩ := romRead_of_lt hj
    refine ⟨e, he, ?_⟩
    rw [List.getElem?_map, ← romRead, he]
    rfl

/-! ### The ROM -/

/-- Settles O31: labels do not repeat (`nodup_romTable_labels`), each label below M is looked up to an entry with it
(`lutIndex_of_lt`), and the five sums are computed. -/
theorem alphabetsAreCompleteAndNormalised : Obligations.AlphabetsAreCompleteAndNormalised := by
  unfold Obligations.AlphabetsAreCompleteAndNormalised
  refine ⟨fun sch => ⟨romTable_length sch, nodup_romTable_labels sch, fun v hv => ?_⟩, fun sch => ?_⟩
  · obtain ⟨i, e, _, he, hlabel⟩ := lutIndex_of_lt hv
    exact ⟨e, List.mem_of_getElem? he, hlabel⟩
  · cases sch <;> decide +kernel

/-- Each table stands in the flat ROM at its base (rule R54). -/
theorem flatRom_getElem?_romBase (sch : Scheme) :
    ∀ i < alphabetSize sch, flatRom[romBase sch + i]? = romRead sch i := by
  cases sch <;> decide +kernel

theorem flatRom_length : flatRom.length = 94 := by
  simp only [flatRom, List.length_append, romTable_length]
  rfl

/-- Settles O36: entry by entry (`flatRom_getElem?_romBase`), and the flat ROM ends at 94 (`flatRom_length`). -/
theorem flatRomHoldsEveryEntryAtItsBase : Obligations.FlatRomHoldsEveryEntryAtItsBase := by
  unfold Obligations.FlatRomHoldsEveryEntryAtItsBase
  refine ⟨fun sch i => ⟨fun hlt => ⟨flatRom_getElem?_romBase sch i hlt, ?_⟩, romRead_of_le⟩, fun a ha => ?_,
    rfl, rfl, rfl, rfl, rfl⟩
  · exact Option.isSome_iff_exists.mpr (romRead_of_lt hlt)
  · exact List.getElem?_eq_none (flatRom_length ▸ ha)

end Sys2Proof.Machine
end

section
/-! PROOFS. The channel command AWGN (rules R60, R92, R96, R113), what a step performs, the order of commands (rules R29,
R55, R126), and how a response is delivered (rules R33, R73). -/

namespace Sys2Proof.Machine

open Sys2Proof.Safety

/-! ### AWGN and its draw -/

/-- AWGN of a finite sample with a draw that meets the contract (rules R92, R96). -/
theorem exec_awgn_of_ok {s : State} {x y : F64} {d : Draw} {ds : List Draw} (hx : F64.isFinite x = true)
    (hy : F64.isFinite y = true) (hd : s.drawIn = d :: ds) (hok : d.ok = true) :
    exec (.awgn x y) s = .next
      { s with
        drawIn := ds
        phase := response 0#8 [beat (noisySample referenceMath s.u1Floor s.nsd d ⟨x, y⟩).i
          (noisySample referenceMath s.u1Floor s.nsd d ⟨x, y⟩).q 0#8] } := by
  simp only [exec, execAwgn, Sample.isFinite_mk hx hy, hd, hok, if_true]
  rfl

/-- AWGN of a finite sample waits where there is no draw (rule R92). -/
theorem exec_awgn_of_no_draw {s : State} {x y : F64} (hx : F64.isFinite x = true) (hy : F64.isFinite y = true)
    (hd : s.drawIn = []) : exec (.awgn x y) s = .next { s with phase := .waitDraw x y } := by
  simp [exec, execAwgn, Sample.isFinite_mk hx hy, hd]

/-- The converse of `Sample.isFinite_mk`. -/
theorem Sample.isFinite_mk_eq_false {x y : F64} (h : F64.isFinite x = false ∨ F64.isFinite y = false) :
    (Sample.mk x y).isFinite = false :=
  Bool.and_eq_false_iff.mpr h

/-- Settles O41: both commands check that the sample is finite before anything else. -/
theorem nonFiniteSamplesAreRefused : Obligations.NonFiniteSamplesAreRefused := by
  unfold Obligations.NonFiniteSamplesAreRefused
  intro s x y h
  simp [exec, execDet, execAwgn, Sample.isFinite_mk_eq_false h, State.raise_invalidArgument_eq]

/-- Settles O46: `exec_awgn_of_ok`, with the noisy sample of rule R94 written out. -/
theorem awgnAddsScaledBoxMullerNoise : Obligations.AwgnAddsScaledBoxMullerNoise := by
  unfold Obligations.AwgnAddsScaledBoxMullerNoise
  intro s x y d ds hx hy hd hok hnsd
  refine ⟨_, _, _, _, _, rfl, rfl, rfl, rfl, rfl, ?_⟩
  rw [exec_awgn_of_ok hx hy hd hok]
  simp only [noisySample, hnsd, Bool.false_eq_true, if_false, boxMuller, radius, flooredU1, Sample.add, referenceMath,
    F64.negTwo, twoPi]

/-- Without noise the sample stays as it is (rule R96). -/
theorem noisySample_of_isZero (m : Config.MathLib) (u1Floor : F64) {nsd : F64} (d : Draw) (r : Sample)
    (h : F64.isZero nsd = true) : noisySample m u1Floor nsd d r = r :=
  if_pos h

/-- Settles O47: `exec_awgn_of_ok`, with no noise to add (`noisySample_of_isZero`). -/
theorem awgnPassesThroughAtZeroNoise : Obligations.AwgnPassesThroughAtZeroNoise := by
  unfold Obligations.AwgnPassesThroughAtZeroNoise
  intro s x y d ds hx hy hd hok hnsd
  rw [exec_awgn_of_ok hx hy hd hok, noisySample_of_isZero _ _ _ _ hnsd]

/-- A waiting block tries its AWGN again (rule R113). -/
theorem step_of_waitDraw {s : State} {x y : F64} (hrst : s.rstEdges = 0) (hp : s.phase = .waitDraw x y) :
    step s = exec (.awgn x y) s := by
  simp [step, hrst, hp]

/-- The phase in which an AWGN begins has no part in what it does. -/
theorem exec_awgn_congr_phase (s : State) (x y : F64) (p : Phase) (hx : F64.isFinite x = true)
    (hy : F64.isFinite y = true) : exec (.awgn x y) { s with phase := p } = exec (.awgn x y) s := by
  simp [exec, execAwgn, Sample.isFinite_mk hx hy, State.respond]

/-- A run that begins with a step back to its own state stays there. -/
theorem run_of_step_eq_self {s : State} (h : step s = .next s) (k : Nat) : core.run k s = .next s := by
  induction k with
  | zero => rfl
  | succ k ih => simpa [Host.Core.run, core, h] using ih

/-- Settles O48: without a draw AWGN enters WAIT_DRAW (`exec_awgn_of_no_draw`), and a step there is the same AWGN again
(`step_of_waitDraw`). -/
theorem awgnWaitsForItsDraw : Obligations.AwgnWaitsForItsDraw := by
  unfold Obligations.AwgnWaitsForItsDraw
  intro s x y hx hy hd
  refine ⟨exec_awgn_of_no_draw hx hy hd, fun hrst => ⟨run_of_step_eq_self ?_, fun ds => ?_⟩⟩
  · exact (step_of_waitDraw (s := { s with phase := .waitDraw x y }) hrst rfl).trans (exec_awgn_of_no_draw hx hy hd)
  · exact (step_of_waitDraw (s := { s with phase := .waitDraw x y, drawIn := ds }) hrst rfl).trans
      (exec_awgn_congr_phase { s with drawIn := ds } x y _ hx hy)

/-- Settles O17: the draw is taken by `exec_awgn_of_ok`; every other way to end (`exec_next_cases`) leaves the draws. -/
theorem eachNoisyCommandTakesTheNextDraw : Obligations.EachNoisyCommandTakesTheNextDraw := by
  unfold Obligations.EachNoisyCommandTakesTheNextDraw
  intro i s t h
  constructor
  · rintro x y d ds rfl hx hy hd
    cases hok : d.ok with
    | true =>
      rw [exec_awgn_of_ok hx hy hd hok] at h
      cases h
      rfl
    | false =>
      rw [exec_awgn_of_not_ok hx hy hd hok] at h
      cases h
  · intro hother
    obtain ⟨st, _, rfl⟩ | ⟨beats, rfl⟩ | ⟨c, sch, _, _, rfl⟩ | ⟨x, _, _, rfl⟩ | ⟨x, y, hi, hx, hy, _⟩ := exec_next_cases h
    · exact s.raise_drawIn st
    · exact s.respond_drawIn beats
    · exact State.configure_drawIn s sch s.ebn0
    · exact State.configure_drawIn s s.scheme x
    · exact absurd (hother x y hi) (by simp [hx, hy])

/-! ### What a step performs -/

theorem performCommand_of_decode {c : Command} {i : Instr} (s : State) (h : decode c = .ok i) :
    performCommand c s = exec i s := by
  simp [performCommand, h]

/-- A block in phase EXEC performs its command (rule R29). -/
theorem step_of_exec {s : State} {c : Command} (hrst : s.rstEdges = 0) (hp : s.phase = .exec c) :
    step s = performCommand c s := by
  simp [step, hrst, hp]

/-- Settles O8: each phase has its own lemma, and a table word is the oldest command of a ready block. -/
theorem stepPerformsDecodedCommand : Obligations.StepPerformsDecodedCommand := by
  unfold Obligations.StepPerformsDecodedCommand
  intro s c i hdec
  refine ⟨fun rest hrst hp hin => ?_, fun hrst hp => ?_, fun x y hrst hp => step_of_waitDraw hrst hp, ?_⟩
  · exact (step_of_cmdIn hrst hp hin).trans (performCommand_of_decode _ hdec)
  · exact (step_of_exec hrst hp).trans (performCommand_of_decode s hdec)
  · rintro nbits w rfl
    exact (step_of_cmdIn rfl rfl rfl).trans (performCommand_of_decode _ hdec)

/-! ### The order of commands -/

/-- A command ends in RESP or in WAIT_DRAW, so the block is not at once ready for another (rules R29, R55). -/
theorem exec_phase_cases {i : Instr} {s t : State} (h : exec i s = .next t) :
    (∃ b rest, t.phase = .resp b rest) ∨ ∃ x y, t.phase = .waitDraw x y ∧ i = .awgn x y ∧ s.drawIn = [] := by
  obtain ⟨st, _, rfl⟩ | ⟨beats, rfl⟩ | ⟨c, sch, _, _, rfl⟩ | ⟨x, _, _, rfl⟩ | ⟨x, y, hi, _, _, hd⟩ := exec_next_cases h
  · exact .inl ⟨_, _, s.raise_phase st⟩
  · exact .inl ⟨_, _, s.respond_phase beats⟩
  · exact .inl ⟨_, _, rfl⟩
  · exact .inl ⟨_, _, rfl⟩
  · obtain ⟨hnil, rfl⟩ | ⟨d, ds, b, _, _, rfl⟩ := hd
    · exact .inr ⟨x, y, rfl, hi, hnil⟩
    · exact .inl ⟨_, _, rfl⟩

theorem performCommand_phase_cases {c : Command} {s t : State} (h : performCommand c s = .next t) :
    (∃ b rest, t.phase = .resp b rest) ∨ ∃ x y, t.phase = .waitDraw x y := by
  obtain ⟨_, _, rfl⟩ | ⟨i, _, hi⟩ := performCommand_next_cases h
  · exact .inl ⟨_, _, s.raise_phase .illegal⟩
  · obtain hresp | ⟨x, y, hwait, _, _⟩ := exec_phase_cases hi
    · exact .inl hresp
    · exact .inr ⟨x, y, hwait⟩

theorem performCommand_keeps_cmdIn {c : Command} {s t : State} (h : performCommand c s = .next t) :
    t.cmdIn = s.cmdIn := by
  obtain ⟨_, _, rfl⟩ | ⟨i, _, hi⟩ := performCommand_next_cases h
  · exact s.raise_cmdIn .illegal
  · exact exec_keeps_cmdIn hi

theorem performCommand_not_cmdReady {c : Command} {s t : State} (h : performCommand c s = .next t) :
    t.cmdReady = false := by
  refine Bool.eq_false_iff.mpr fun hready => ?_
  obtain ⟨_, hidle⟩ := State.cmdReady_iff.mp hready
  obtain ⟨b, rest, hp⟩ | ⟨x, y, hp⟩ := performCommand_phase_cases h <;> simp [hidle] at hp

@[simp] theorem State.deliver_cmdIn (s : State) (rest : List Beat) : (s.deliver rest).cmdIn = s.cmdIn := by
  rcases deliver_cases s rest with ⟨_, h⟩ | ⟨n, _, h⟩ <;> rw [h]

/-- Settles O16: of the steps of `step_next_cases` only the one from a ready block takes a command, and performing it
leaves the port and the block as `performCommand_keeps_cmdIn` and `performCommand_not_cmdReady` say. -/
theorem commandsArePerformedInOfferedOrder : Obligations.CommandsArePerformedInOfferedOrder := by
  unfold Obligations.CommandsArePerformedInOfferedOrder
  intro s t h
  obtain ⟨_, rfl⟩ | ⟨hrst, hstep⟩ := step_next_cases h
  · exact .inl s.resetEdge_cmdIn
  · obtain ⟨_, _, rfl⟩ | ⟨c, rest, hp, hin, hc⟩ | ⟨c, _, hc⟩ | ⟨x, y, _, hx⟩ | ⟨b, rest, _, rfl⟩ := hstep
    · exact .inl rfl
    · obtain rfl : t.cmdIn = rest := performCommand_keeps_cmdIn hc
      exact .inr ⟨c, hin, State.cmdReady_iff.mpr ⟨hrst, hp⟩, performCommand_not_cmdReady hc, hc⟩
    · exact .inl (performCommand_keeps_cmdIn hc)
    · exact .inl (exec_keeps_cmdIn hx)
    · exact .inl (s.deliver_cmdIn rest)

/-! ### Delivering a response -/

theorem run_succ_of_step {s t : State} (h : step s = .next t) (k : Nat) : core.run (k + 1) s = core.run k t := by
  simp [Host.Core.run, core, h]

theorem State.rspBeat_of_resp {s : State} {b : Beat} {rest : List Beat} (hrst : s.rstEdges = 0)
    (hp : s.phase = .resp b rest) : s.rspBeat = some b := by
  simp [State.rspBeat, hp, hrst]

/-- Settles O15, by induction on the beats after the one offered: each step takes one (`step_of_resp`). -/
theorem hostTakesWholeResponse : Obligations.HostTakesWholeResponse := by
  unfold Obligations.HostTakesWholeResponse
  intro s b rest n hrst hp htakes
  induction rest generalizing s b with
  | nil =>
    have hstep := step_of_resp (n := n) hrst hp (by simp at htakes; omega)
    refine ⟨fun j hj => ?_, run_succ_of_step hstep 0⟩
    obtain rfl : j = 0 := by simpa using hj
    exact ⟨s, rfl, State.rspBeat_of_resp hrst hp⟩
  | cons b' rest ih =>
    have hstep := step_of_resp (n := rest.length + 1 + n) hrst hp (by simp at htakes; omega)
    obtain ⟨hbeats, hlast⟩ := ih { s with phase := .resp b' rest, rspTakes := rest.length + 1 + n } b' hrst rfl rfl
    refine ⟨fun j hj => ?_, (run_succ_of_step hstep (rest.length + 1)).trans hlast⟩
    cases j with
    | zero => exact ⟨s, rfl, State.rspBeat_of_resp hrst hp⟩
    | succ j =>
      obtain ⟨t, hrun, ht⟩ := hbeats j (by simpa using hj)
      exact ⟨t, (run_succ_of_step hstep j).trans hrun, ht⟩

end Sys2Proof.Machine
end

section
/-! PROOFS. The bit-string commands MOD and HAM (rules R9, R67, R87, R88, R91). -/

namespace Sys2Proof.Machine

open Sys2Proof.Safety

/-! ### Bit strings -/

/-- A string of length n has no stray bit exactly when its word is below 2^n (rule R67). -/
theorem strayBits_eq_false_iff {n : Nat} (hn : n ≤ 64) (w : Word64) : strayBits n w = false ↔ w.toNat < 2 ^ n := by
  have hshift : w >>> n = 0#64 ↔ w.toNat < 2 ^ n := by
    rw [← BitVec.toNat_inj, BitVec.toNat_ushiftRight, Nat.shiftRight_eq_div_pow]
    simp [Nat.div_eq_zero_iff]
  obtain rfl | hlt := hn.eq_or_lt
  · simp [strayBits, w.isLt]
  · simp [strayBits, hlt, hshift]

theorem strayBits_eq_true {n : Nat} (hn : n ≤ 64) {w : Word64} (h : 2 ^ n ≤ w.toNat) : strayBits n w = true :=
  Bool.not_eq_false _ ▸ fun hfalse => h.not_gt ((strayBits_eq_false_iff hn w).mp hfalse)

/-- A word below 2^n has no bit from n on. -/
theorem getLsbD_eq_false_of_lt {n j : Nat} {w : Word64} (h : w.toNat < 2 ^ n) (hj : n ≤ j) : w.getLsbD j = false :=
  Nat.testBit_lt_two_pow (h.trans_le (Nat.pow_le_pow_right (by decide) hj))

/-- Settles O38: MOD checks for stray bits, and HAM for unequal lengths and then stray bits, before anything else. -/
theorem strayBitsAndUnequalLengthsAreRefused : Obligations.StrayBitsAndUnequalLengthsAreRefused := by
  unfold Obligations.StrayBitsAndUnequalLengthsAreRefused
  refine ⟨fun s n a hn ha => ⟨?_, ?_⟩, fun s na nb a b hna hnb h => ?_⟩
  · refine hn.lt_of_ne fun h64 => ?_
    rw [h64] at ha
    exact ha.not_gt a.isLt
  · simp [exec, execMod, strayBits_eq_true hn ha, State.raise_invalidArgument_eq]
  · by_cases hne : na = nb
    · have hstray : strayBits na.toNat a = true ∨ strayBits na.toNat b = true :=
        (h.resolve_left (not_not.mpr hne)).imp (strayBits_eq_true hna) (strayBits_eq_true hna)
      simp only [exec, execHam, ne_eq, hne, not_true_eq_false, if_false, ← Bool.or_eq_true] at hstray ⊢
      rw [if_pos hstray, State.raise_invalidArgument_eq]
    · simp [exec, execHam, hne, State.raise_invalidArgument_eq]

/-! ### MOD -/

/-- Every label of a scheme is looked up to the entry that carries it (rules R50, R87). -/
theorem exists_lutEntry_of_lt {sch : Scheme} {v : Nat} (h : v < alphabetSize sch) :
    ∃ i e, lutEntry sch v = some e ∧ romRead sch i = some e ∧ e.label = v := by
  obtain ⟨i, e, hi, he, hlabel⟩ := lutIndex_of_lt h
  exact ⟨i, e, by simp [lutEntry, hi, he], he, hlabel⟩

/-- The data beats of MOD in a scheme (rule R87). -/
def modBeats (sch : Scheme) (n : Nat) (w : Word64) : List Beat :=
  ((bitGroups n (bpsRead sch).toNat w).filterMap (lutEntry sch)).map entryBeat

/-- Each group of the width of the scheme is one of its labels. -/
theorem lutEntry_isSome_of_mem_bitGroups {sch : Scheme} {n v : Nat} {w : Word64}
    (h : v ∈ bitGroups n (bpsRead sch).toNat w) : (lutEntry sch v).isSome = true :=
  lutEntry_isSome_of_lt (lt_of_mem_bitGroups h)

/-- MOD of a string without stray bits (rule R87). -/
theorem exec_mod_of_lt {s : State} {n : Byte} {a : Word64} (hbps : s.bps = bpsRead s.scheme) (hn : n.toNat ≤ 64)
    (ha : a.toNat < 2 ^ n.toNat) :
    exec (.mod n a) s = .next { s with phase := response 0#8 (modBeats s.scheme n.toNat a) } := by
  have hall : (bitGroups n.toNat s.bps.toNat a).all (fun v => (lutEntry s.scheme v).isSome) = true :=
    List.all_eq_true.mpr fun v hv => lutEntry_isSome_of_mem_bitGroups (hbps ▸ hv)
  simp only [exec, execMod, (strayBits_eq_false_iff hn a).mpr ha, hall, Bool.false_eq_true, if_false, if_true]
  rw [modBeats, ← hbps]
  rfl

/-- Where a function is defined on the whole of a list, it maps the list position by position. -/
theorem getElem?_filterMap_of_isSome {α β : Type} {f : α → Option β} {l : List α}
    (h : ∀ v ∈ l, (f v).isSome = true) (j : Nat) : (l.filterMap f)[j]? = l[j]?.bind f := by
  induction l generalizing j with
  | nil => simp
  | cons v l ih =>
    obtain ⟨y, hy⟩ := Option.isSome_iff_exists.mp (h v (by simp))
    rw [List.filterMap_cons_some hy]
    cases j with
    | zero => simp [hy]
    | succ j => simpa using ih (fun u hu => h u (by simp [hu])) j

theorem length_filterMap_of_isSome {α β : Type} {f : α → Option β} {l : List α}
    (h : ∀ v ∈ l, (f v).isSome = true) : (l.filterMap f).length = l.length := by
  induction l with
  | nil => rfl
  | cons v l ih =>
    obtain ⟨y, hy⟩ := Option.isSome_iff_exists.mp (h v (by simp))
    rw [List.filterMap_cons_some hy, List.length_cons, List.length_cons, ih fun u hu => h u (by simp [hu])]

/-- MOD answers one beat for each whole group (rule R87). -/
theorem modBeats_length (sch : Scheme) (n : Nat) (w : Word64) :
    (modBeats sch n w).length = n / (bpsRead sch).toNat := by
  rw [modBeats, List.length_map, length_filterMap_of_isSome fun v => lutEntry_isSome_of_mem_bitGroups, bitGroups,
    List.length_map, List.length_range]

/-- Beat j of MOD is the entry whose label is group j (rule R87). -/
theorem modBeats_getElem? {sch : Scheme} {n j : Nat} {w : Word64} (hj : j < n / (bpsRead sch).toNat) :
    ∃ i e, romRead sch i = some e ∧ (modBeats sch n w)[j]? = some (entryBeat e) ∧
      e.label = bitGroup n (bpsRead sch).toNat w j := by
  have hgroup : (bitGroups n (bpsRead sch).toNat w)[j]? = some (bitGroup n (bpsRead sch).toNat w j) := by
    simp [bitGroups, hj]
  obtain ⟨i, e, hlut, he, hlabel⟩ := exists_lutEntry_of_lt (sch := sch)
    (lt_of_mem_bitGroups (List.mem_of_getElem? hgroup))
  refine ⟨i, e, he, ?_, hlabel⟩
  rw [modBeats, List.getElem?_map, getElem?_filterMap_of_isSome fun v => lutEntry_isSome_of_mem_bitGroups, hgroup,
    Option.bind_some, hlut, Option.map_some]

/-- Bit t of group j, counted from its most significant, is bit jk + t of the string (rules R9, R87). -/
theorem bitGroup_testBit {n k j t : Nat} (w : Word64) (hj : j < n / k) (ht : t < k) :
    (bitGroup n k w j).testBit (k - 1 - t) = w.getLsbD (n - 1 - (j * k + t)) := by
  have hfit : (j + 1) * k ≤ n := (Nat.mul_le_mul_right k hj).trans (Nat.div_mul_le_self n k)
  have hpos : n - (j + 1) * k + (k - 1 - t) = n - 1 - (j * k + t) := by
    rw [Nat.succ_mul] at hfit ⊢
    omega
  rw [bitGroup, Nat.testBit_mod_two_pow, Nat.testBit_shiftRight, hpos, BitVec.getLsbD]
  simp only [Bool.and_eq_right_iff_imp, decide_eq_true_eq]
  exact fun _ => by omega

/-- Settles O37: beat j is the entry whose label is group j (`modBeats_getElem?`), and the group has the bits of the
string (`bitGroup_testBit`). -/
theorem modMapsEachGroupToItsPoint : Obligations.ModMapsEachGroupToItsPoint := by
  unfold Obligations.ModMapsEachGroupToItsPoint
  intro s n a k hbps hk hn ha
  obtain rfl : k = (bpsRead s.scheme).toNat := by rw [hk, hbps]
  refine ⟨_, exec_mod_of_lt hbps hn ha, modBeats_length _ _ _, fun j hj => ?_⟩
  obtain ⟨i, e, he, hbeat, hlabel⟩ := modBeats_getElem? (w := a) hj
  refine ⟨i, e, he, hbeat, ?_, fun t ht => ?_⟩
  · rw [hlabel]
    exact Nat.mod_lt _ (Nat.two_pow_pos _)
  · rw [hlabel]
    exact bitGroup_testBit a hj ht

/-! ### Split strings -/

/-- A group within the first part of a string. -/
theorem bitGroup_append_left {n m k j : Nat} {a b w : Word64} (hw : w.toNat = a.toNat * 2 ^ m + b.toNat)
    (hb : b.toNat < 2 ^ m) (hj : (j + 1) * k ≤ n) : bitGroup (n + m) k w j = bitGroup n k a j := by
  have hpos : n + m - (j + 1) * k = m + (n - (j + 1) * k) := by omega
  have hhigh : (a.toNat * 2 ^ m + b.toNat) / 2 ^ m = a.toNat := by
    rw [Nat.add_comm, Nat.add_mul_div_right _ _ (Nat.two_pow_pos m), Nat.div_eq_of_lt hb, Nat.zero_add]
  rw [bitGroup, bitGroup, hw, hpos, Nat.shiftRight_add, Nat.shiftRight_eq_div_pow _ m, hhigh]

/-- A group within the second part of a string whose first part is g whole groups. -/
theorem bitGroup_append_right {g m k j : Nat} {a b w : Word64} (hw : w.toNat = a.toNat * 2 ^ m + b.toNat)
    (hj : (j + 1) * k ≤ m) : bitGroup (g * k + m) k w (g + j) = bitGroup m k b j := by
  have hpos : g * k + m - (g + j + 1) * k = m - (j + 1) * k := by
    rw [show (g + j + 1) * k = g * k + (j + 1) * k by ring]
    omega
  obtain ⟨t, rfl⟩ := Nat.exists_eq_add_of_le hj
  have hsplit : a.toNat * 2 ^ ((j + 1) * k + t) = 2 ^ k * (a.toNat * 2 ^ (j * k)) * 2 ^ t := by ring
  rw [bitGroup, bitGroup, hw, hpos, Nat.add_sub_cancel_left, Nat.shiftRight_eq_div_pow, Nat.shiftRight_eq_div_pow,
    hsplit, Nat.add_comm, Nat.add_mul_div_right _ _ (Nat.two_pow_pos t), Nat.add_mul_mod_self_left]

/-- A string split at a whole number of groups has the groups of both parts in order (rule R88). -/
theorem bitGroups_append {g m k : Nat} {a b w : Word64} (hk : 0 < k) (hw : w.toNat = a.toNat * 2 ^ m + b.toNat)
    (hb : b.toNat < 2 ^ m) : bitGroups (g * k + m) k w = bitGroups (g * k) k a ++ bitGroups m k b := by
  have hcount : (g * k + m) / k = g + m / k := by
    rw [Nat.add_comm, Nat.add_mul_div_right _ _ hk, Nat.add_comm]
  rw [bitGroups, bitGroups, bitGroups, hcount, Nat.mul_div_cancel _ hk, List.range_add, List.map_append, List.map_map]
  congr 1
  · refine List.map_congr_left fun j hj => bitGroup_append_left hw hb ?_
    exact Nat.mul_le_mul_right k (List.mem_range.mp hj)
  · refine List.map_congr_left fun j hj => bitGroup_append_right hw ?_
    exact (Nat.mul_le_mul_right k (List.mem_range.mp hj)).trans (Nat.div_mul_le_self m k)

/-- Settles O39: the whole string is below 2^(n + m), and its groups are those of the parts (`bitGroups_append`). -/
theorem splitStringsModulateToTheSameBeats : Obligations.SplitStringsModulateToTheSameBeats := by
  unfold Obligations.SplitStringsModulateToTheSameBeats
  intro s n m a b g hbps hn hlen ha hb
  have hsum : (n + m).toNat = n.toNat + m.toNat := by rw [BitVec.toNat_add]; omega
  have hlt : a.toNat * 2 ^ m.toNat + b.toNat < 2 ^ (n.toNat + m.toNat) := by
    calc a.toNat * 2 ^ m.toNat + b.toNat < (a.toNat + 1) * 2 ^ m.toNat := by rw [Nat.succ_mul]; omega
      _ ≤ 2 ^ n.toNat * 2 ^ m.toNat := Nat.mul_le_mul_right _ ha
      _ = _ := (pow_add 2 _ _).symm
  have hw : (BitVec.ofNat 64 (a.toNat * 2 ^ m.toNat + b.toNat)).toNat = a.toNat * 2 ^ m.toNat + b.toNat :=
    Nat.mod_eq_of_lt (hlt.trans_le (Nat.pow_le_pow_right (by decide) hlen))
  refine ⟨_, _, exec_mod_of_lt hbps (by omega) ha, exec_mod_of_lt hbps (by omega) hb, ?_⟩
  rw [exec_mod_of_lt hbps (by omega) (by rwa [hw, hsum])]
  rw [hbps] at hn
  rw [hsum, modBeats, hn, bitGroups_append (bpsRead_pos s.scheme) hw hb, List.filterMap_append, List.map_append]
  rfl

/-! ### HAM -/

/-- popcount counts the positions of the 1 bits (rule R15). -/
theorem popcountBelow_eq_card (w : Word64) (n : Nat) :
    popcountBelow w n = ((Finset.range n).filter fun j => w.getLsbD j = true).card := by
  induction n with
  | zero => rfl
  | succ n ih =>
    rw [popcountBelow, ih, Finset.range_add_one, Finset.filter_insert]
    cases hbit : w.getLsbD n <;> simp

/-- The number of positions below n at which two strings differ (rule R91). -/
def differingPositions (n : Nat) (a b : Word64) : Nat :=
  ((Finset.range n).filter fun j => a.getLsbD j ≠ b.getLsbD j).card

/-- Two strings without stray bits differ at no position from n on, so the bits of their exclusive or are counted below
n (rule R91). -/
theorem popcount_xor {n : Nat} {a b : Word64} (hn : n ≤ 64) (ha : a.toNat < 2 ^ n) (hb : b.toNat < 2 ^ n) :
    popcount (a ^^^ b) = differingPositions n a b := by
  rw [popcount, popcountBelow_eq_card, differingPositions]
  congr 1
  ext j
  simp only [Finset.mem_filter, Finset.mem_range, BitVec.getLsbD_xor, bne_iff_ne]
  refine and_congr_left fun hne => ⟨fun _ => ?_, fun hj => hj.trans_le hn⟩
  by_contra hj
  exact hne (by rw [getLsbD_eq_false_of_lt ha (not_lt.mp hj), getLsbD_eq_false_of_lt hb (not_lt.mp hj)])

/-- HAM of two strings of one length without stray bits (rule R91). -/
theorem exec_ham_of_lt (s : State) {n : Byte} {a b : Word64} (hn : n.toNat ≤ 64) (ha : a.toNat < 2 ^ n.toNat)
    (hb : b.toNat < 2 ^ n.toNat) :
    exec (.ham n n a b) s = .next
      { s with phase := response 0#8 [beat (BitVec.ofNat 64 (differingPositions n.toNat a b)) 0#64 0#8] } := by
  simp [exec, execHam, (strayBits_eq_false_iff hn _).mpr ha, (strayBits_eq_false_iff hn _).mpr hb, popcount_xor hn ha hb]
  rfl

/-- Settles O44: `exec_ham_of_lt`. -/
theorem hamCountsDifferingPositions : Obligations.HamCountsDifferingPositions := by
  unfold Obligations.HamCountsDifferingPositions
  exact fun s n a b hn ha hb => ⟨_, rfl, exec_ham_of_lt s hn ha hb⟩

/-- Strings without stray bits that differ at no position are equal. -/
theorem differingPositions_eq_zero_iff {n : Nat} {a b : Word64} (ha : a.toNat < 2 ^ n) (hb : b.toNat < 2 ^ n) :
    differingPositions n a b = 0 ↔ a = b := by
  simp only [differingPositions, Finset.card_eq_zero, Finset.filter_eq_empty_iff, Finset.mem_range, not_not]
  refine ⟨fun h => BitVec.eq_of_getLsbD_eq fun j _ => ?_, fun h j _ => by rw [h]⟩
  obtain hj | hj := lt_or_ge j n
  · exact h hj
  · rw [getLsbD_eq_false_of_lt ha hj, getLsbD_eq_false_of_lt hb hj]

theorem differingPositions_le (n : Nat) (a b : Word64) : differingPositions n a b ≤ n :=
  (Finset.card_filter_le _ _).trans_eq (Finset.card_range n)

/-- HAM does not tell its two strings apart (rule R91). -/
theorem exec_ham_comm (s : State) (na nb : Byte) (a b : Word64) :
    exec (.ham na nb a b) s = exec (.ham nb na b a) s := by
  by_cases h : na = nb
  · subst h
    simp only [exec, execHam, Bool.or_comm (strayBits na.toNat a), BitVec.xor_comm a]
  · simp [exec, execHam, h, Ne.symm h]

/-- Settles O45: HAM is symmetric (`exec_ham_comm`), and a count of at most 64 is the word 0 only if it is 0. -/
theorem hamIsSymmetricAndZeroOnlyOnEqualStrings : Obligations.HamIsSymmetricAndZeroOnlyOnEqualStrings := by
  unfold Obligations.HamIsSymmetricAndZeroOnlyOnEqualStrings
  refine fun s na nb a b => ⟨exec_ham_comm s na nb a b, ?_⟩
  rintro rfl hn ha hb
  have hsmall : differingPositions na.toNat a b < 2 ^ 64 := by
    have := differingPositions_le na.toNat a b
    omega
  have hword : BitVec.ofNat 64 (differingPositions na.toNat a b) = 0#64 ↔ differingPositions na.toNat a b = 0 := by
    rw [← BitVec.toNat_inj, BitVec.toNat_ofNat, Nat.mod_eq_of_lt hsmall]
    rfl
  rw [exec_ham_of_lt s hn ha hb, ← differingPositions_eq_zero_iff ha hb, ← hword]
  simp [response, beat]

end Sys2Proof.Machine
end

section
/-! PROOFS. The invariant (rules R7, R25, R26, R33, R100): it holds at reset, every step keeps it, and a block in it stands
still only where an agent outside gives it nothing (rule R113). -/

-- In turn, not side by side: each kernel evaluation waits in a thread of its own for all before it to be checked.
set_option Elab.async false

namespace Sys2Proof.Machine

open Sys2Proof.Safety

/-! ### Framed responses -/

/-- Data beats as a command answers them: none is a header, and there are at most 64 (rules R6, R33). -/
def DataBeats (beats : List Beat) : Prop := (∀ d ∈ beats, d.hdr = false) ∧ beats.length ≤ 64

theorem dataBeats_nil : DataBeats [] := ⟨by simp, by simp⟩

theorem dataBeats_singleton (x y : Word64) (l : Byte) : DataBeats [dataBeat x y l] := ⟨by simp [dataBeat], by simp⟩

theorem dataBeats_map_entryBeat {entries : List RomEntry} (h : entries.length ≤ 64) :
    DataBeats (entries.map entryBeat) :=
  ⟨by simp [entryBeat, dataBeat], by simpa using h⟩

theorem framed_ok {beats : List Beat} (h : DataBeats beats) : Framed (headerBeat .ok beats.length) beats :=
  ⟨h.1, by simp [headerBeat, h.2]⟩

theorem framed_error {st : Status} (h : st = .illegal ∨ st = .invalidArgument) : Framed (headerBeat st 0) [] := by
  obtain rfl | rfl := h <;> simp [Framed, headerBeat]

/-- With the offered beat taken, the rest of a framed response is framed (rule R33). -/
theorem phaseLegal_afterBeat {b : Beat} {rest : List Beat} (h : Framed b rest) : PhaseLegal (afterBeat rest) := by
  obtain ⟨hdata, hcount⟩ := h
  cases rest with
  | nil => trivial
  | cons b' rest =>
    have hshort : rest.length < 64 := by
      split at hcount
      · obtain ⟨_, _, hle, _⟩ := hcount
        simpa using hle
      · simp at hcount
        omega
    refine ⟨fun d hd => hdata d (by simp [hd]), ?_⟩
    rw [hdata b' (by simp)]
    simpa using hshort

/-- The data beats of each command; those of MOD are as many as its string of at most 64 bits has groups (rule R73). -/
theorem exec_dataBeats {i : Instr} {s t : State} {b : Beat} {rest : List Beat} (hwf : i.wf = true)
    (hbps : s.bps = bpsRead s.scheme) (h : exec i s = .next t) (hp : t.phase = .resp b rest) : DataBeats rest := by
  cases i with
  | nop => cases h; cases hp; exact dataBeats_nil
  | setsch c =>
    simp only [exec, execSetsch, Host.Outcome.next.injEq] at h
    split at h <;> (cases h; cases hp; exact dataBeats_nil)
  | setsnr x =>
    simp only [exec, execSetsnr, Host.Outcome.next.injEq] at h
    split at h <;> (cases h; cases hp; exact dataBeats_nil)
  | rdreg r => cases h; cases hp; exact dataBeats_singleton _ _ _
  | bpsq c =>
    simp only [exec, execBpsq, Host.Outcome.next.injEq] at h
    split at h <;> cases h <;> cases hp
    · exact dataBeats_nil
    · exact dataBeats_singleton _ _ _
  | romrd j c =>
    simp only [exec, execRomrd, Host.Outcome.next.injEq] at h
    split at h
    · cases h; cases hp; exact dataBeats_nil
    · split at h <;> cases h <;> cases hp
      · exact dataBeats_nil
      · exact dataBeats_singleton _ _ _
  | genc c =>
    simp only [exec, execGenc, Host.Outcome.next.injEq] at h
    split at h <;> cases h <;> cases hp
    · exact dataBeats_nil
    · exact dataBeats_map_entryBeat (by rw [romTable_length]; exact alphabetSize_le _)
  | mod n a =>
    have hn : n.toNat ≤ 64 := (lengthOk_iff n).mp hwf
    by_cases ha : a.toNat < 2 ^ n.toNat
    · rw [exec_mod_of_lt hbps hn ha] at h
      cases h
      cases hp
      refine dataBeats_map_entryBeat ?_
      rw [← List.length_map (f := entryBeat), ← modBeats, modBeats_length]
      exact (Nat.div_le_self _ _).trans hn
    · obtain ⟨_, hrefused⟩ := strayBitsAndUnequalLengthsAreRefused.1 s n a hn (not_lt.mp ha)
      rw [hrefused] at h
      cases h
      cases hp
      exact dataBeats_nil
  | det x y =>
    simp only [exec, execDet, Host.Outcome.next.injEq] at h
    split at h
    · split at h <;> cases h <;> cases hp
      · exact dataBeats_singleton _ _ _
      · exact dataBeats_nil
    · cases h; cases hp; exact dataBeats_nil
  | ham na nb a b =>
    simp only [exec, execHam, Host.Outcome.next.injEq] at h
    split at h
    · cases h; cases hp; exact dataBeats_nil
    · split at h <;> cases h <;> cases hp
      · exact dataBeats_nil
      · exact dataBeats_singleton _ _ _
  | awgn x y =>
    simp only [exec, execAwgn] at h
    split at h
    · split at h
      · cases h; cases hp
      · split at h <;> cases h
        cases hp
        exact dataBeats_singleton _ _ _
    · cases h; cases hp; exact dataBeats_nil

/-- INVALID_STATE is not raised where BPS is the width of SCHEME (rule R100). -/
theorem ne_invalidState_of_exec_eq_raise {i : Instr} {s : State} {st : Status} (hbps : s.bps = bpsRead s.scheme)
    (h : exec i s = .next (s.raise st)) : st ≠ .invalidState := by
  have hl := invalidStateIsNeverProduced.1 i s _ _ _ hbps h (s.raise_phase st)
  rwa [headerBeat_l, Ne, statusCode_eq_three_iff] at hl

/-- A command leaves the phase as the rules have it, where BPS is the width of SCHEME. -/
theorem exec_phaseLegal {i : Instr} {s t : State} (hwf : i.wf = true) (hbps : s.bps = bpsRead s.scheme)
    (h : exec i s = .next t) : PhaseLegal t.phase := by
  obtain ⟨st, hst, rfl⟩ | ⟨beats, rfl⟩ | ⟨c, sch, _, _, rfl⟩ | ⟨x, _, _, rfl⟩ | ⟨x, y, _, hx, hy, hd⟩ := exec_next_cases h
  · have hne := ne_invalidState_of_exec_eq_raise hbps h
    refine framed_error ?_
    cases st <;> simp at hst hne ⊢
  · exact framed_ok (exec_dataBeats hwf hbps h rfl)
  · exact framed_ok dataBeats_nil
  · exact framed_ok dataBeats_nil
  · obtain ⟨_, rfl⟩ | ⟨d, ds, b, _, _, rfl⟩ := hd
    · exact ⟨hx, hy⟩
    · exact framed_ok (exec_dataBeats hwf hbps h rfl)

/-! ### The configuration registers -/

/-- A configuration just written agrees with its formulas (rule R26). -/
theorem derivedAgree_configure (s : State) (sch : Scheme) (x : F64) : DerivedAgree (s.configure sch x) := by
  rw [State.configure_eq]
  exact ⟨rfl, rfl, rfl, rfl⟩

/-- The Eb/N0 values that SETSNR accepts are those EBN0 may hold (rules R25, R81). -/
theorem ebn0Accepted_of_snrAccepted {s : State} (h : snrAccepted referenceMath s.ebn0 = true) : Ebn0Accepted s := by
  obtain ⟨hnan, hfin⟩ := (snrAccepted_eq_true_iff s.ebn0).mp h
  refine ⟨hnan, fun hneg => ?_, hfin⟩
  rw [hneg, snrAccepted_negInf] at h
  cases h

/-- The reset value of EBN0 is accepted: the variance of +∞ is 1/+∞ (rules R23, R25). -/
theorem snrAccepted_posInf : snrAccepted referenceMath F64.posInf = true := by decide +kernel

/-- The reset values are the configuration of BPSK and Eb/N0 = +∞ (rule R36). -/
theorem State.resetEdge_eq_configure (s : State) : s.resetEdge = s.resetEdge.configure .bpsk F64.posInf := by
  rw [State.configure, derive_posInf_bpsk]
  rfl

/-- A reset edge establishes the invariant, with a legal `U1_FLOOR` given from outside. -/
theorem inv_resetEdge {s : State} (h : FloorLegal s) : Inv s.resetEdge where
  derived := by
    rw [State.resetEdge_eq_configure]
    exact derivedAgree_configure _ _ _
  ebn0 := ebn0Accepted_of_snrAccepted snrAccepted_posInf
  stateFlag := by simp
  phase := trivial
  floor := h

/-- The model's own value of `U1_FLOOR`, 2^-53 (assumption log 1). -/
theorem floorLegal_reset : FloorLegal State.reset := by
  unfold FloorLegal
  decide +kernel

/-- Settles O12: the reset state is what a reset edge makes of itself (`inv_resetEdge`). -/
theorem invariantHoldsAtReset : Obligations.InvariantHoldsAtReset := by
  unfold Obligations.InvariantHoldsAtReset
  exact inv_resetEdge floorLegal_reset

/-! ### What keeps the invariant -/

/-- INVALID_STATE alone sets the STATE flag (rule R28). -/
theorem setErrf_getLsbD_two {st : Status} {e : BitVec 3} (hst : st ≠ .invalidState) (h : e.getLsbD 2 = false) :
    (setErrf st e).getLsbD 2 = false := by
  revert e hst
  cases st <;> decide

/-- A command that leaves the phase as the rules have it keeps the invariant. -/
theorem inv_of_exec {i : Instr} {s t : State} (hs : Inv s) (h : exec i s = .next t) (hp : PhaseLegal t.phase) : Inv t := by
  obtain ⟨hderived, hebn0, hflag, _, hfloor⟩ := hs
  obtain ⟨st, hst, rfl⟩ | ⟨beats, rfl⟩ | ⟨c, sch, _, _, rfl⟩ | ⟨x, _, hx, rfl⟩ | ⟨x, y, _, _, _, hd⟩ := exec_next_cases h
  · have hne := ne_invalidState_of_exec_eq_raise hderived.1 h
    exact ⟨hderived, hebn0, setErrf_getLsbD_two hne hflag, hp, hfloor⟩
  · exact ⟨hderived, hebn0, hflag, hp, hfloor⟩
  · exact ⟨derivedAgree_configure s sch s.ebn0, hebn0, hflag, hp, hfloor⟩
  · exact ⟨derivedAgree_configure s s.scheme x,
      ebn0Accepted_of_snrAccepted (s := s.configure s.scheme x) hx, hflag, hp, hfloor⟩
  · obtain ⟨_, rfl⟩ | ⟨d, ds, b, _, _, rfl⟩ := hd <;> exact ⟨hderived, hebn0, hflag, hp, hfloor⟩

theorem inv_of_performCommand {c : Command} {s t : State} (hs : Inv s) (h : performCommand c s = .next t) : Inv t := by
  obtain ⟨_, _, rfl⟩ | ⟨i, hdec, hi⟩ := performCommand_next_cases h
  · exact ⟨hs.derived, hs.ebn0, setErrf_getLsbD_two (by decide) hs.stateFlag, framed_error (.inl rfl), hs.floor⟩
  · exact inv_of_exec hs hi (exec_phaseLegal (wf_of_decode hdec) hs.derived.1 hi)

/-- Settles O13: a reset edge establishes the invariant (`inv_resetEdge`), a command keeps it (`inv_of_performCommand`,
`inv_of_exec`), and a beat taken leaves the response framed (`phaseLegal_afterBeat`). -/
theorem stepKeepsInvariant : Obligations.StepKeepsInvariant := by
  unfold Obligations.StepKeepsInvariant
  intro s t hs h
  obtain ⟨_, rfl⟩ | ⟨_, hstep⟩ := step_next_cases h
  · exact inv_resetEdge hs.floor
  · obtain ⟨_, _, rfl⟩ | ⟨c, rest, _, _, hc⟩ | ⟨c, _, hc⟩ | ⟨x, y, _, hx⟩ | ⟨b, rest, hp, rfl⟩ := hstep
    · exact hs
    · have haccept : Inv (s.accept c rest) := ⟨hs.derived, hs.ebn0, hs.stateFlag, trivial, hs.floor⟩
      exact inv_of_performCommand haccept hc
    · exact inv_of_performCommand hs hc
    · exact inv_of_exec hs hx (exec_phaseLegal (i := .awgn x y) rfl hs.derived.1 hx)
    · obtain ⟨_, hwait⟩ | ⟨n, _, hbeat⟩ := deliver_cases s rest
      · rwa [hwait]
      · have hlegal : Framed b rest := by simpa [hp, PhaseLegal] using hs.phase
        rw [hbeat]
        exact ⟨hs.derived, hs.ebn0, hs.stateFlag, phaseLegal_afterBeat hlegal, hs.floor⟩

/-! ### Standing still -/

/-- Performing a command never leaves the block in EXEC (rule R29). -/
theorem performCommand_ne_self {c c' : Command} {s : State} (hp : s.phase = .exec c') :
    performCommand c s ≠ .next s := by
  intro h
  obtain ⟨b, rest, hresp⟩ | ⟨x, y, hwait⟩ := performCommand_phase_cases h
  · simp [hp] at hresp
  · simp [hp] at hwait

/-- Settles O14: EXEC ends (`performCommand_ne_self`), a waiting AWGN waits only without a draw (`exec_phase_cases`), and
a beat taken is counted off. -/
theorem busyBlockWaitsOnlyForOutsideAgents : Obligations.BusyBlockWaitsOnlyForOutsideAgents := by
  unfold Obligations.BusyBlockWaitsOnlyForOutsideAgents
  intro s hs hrst hbusy
  have hlegal := hs.phase
  cases hp : s.phase with
  | idle => exact absurd hp hbusy
  | exec c => simp [step_of_exec hrst hp, performCommand_ne_self hp]
  | waitDraw x y =>
    rw [step_of_waitDraw hrst hp]
    refine ⟨fun h => ?_, fun h => ?_⟩
    · obtain ⟨b, rest, hresp⟩ | ⟨x', y', _, _, hnil⟩ := exec_phase_cases h
      · simp [hp] at hresp
      · exact .inl ⟨x, y, rfl, hnil⟩
    · obtain ⟨_, _, _, hnil⟩ | ⟨b, rest, hresp, _⟩ := h
      · obtain ⟨hx, hy⟩ : F64.isFinite x = true ∧ F64.isFinite y = true := by simpa [hp, PhaseLegal] using hlegal
        rw [exec_awgn_of_no_draw hx hy hnil, ← hp]
      · simp at hresp
  | resp b rest =>
    have hstep : step s = .next (s.deliver rest) := by simp [step, hrst, hp]
    obtain ⟨hzero, hwait⟩ | ⟨n, htakes, hbeat⟩ := deliver_cases s rest
    · simp [hstep, hwait, hzero]
    · have hne : s.deliver rest ≠ s := fun h => by
        have := congrArg State.rspTakes h
        simp [hbeat, htakes] at this
      simp [hstep, hne, htakes]

end Sys2Proof.Machine
end

section
/-! PROOFS. Rounding to binary64 (rules R12, R13): the magnitudes as a scale of whole numbers, and what it is for a
magnitude to be a real rounded to nearest, ties to even. -/

namespace Sys2Proof.F64

/-! ### The scale of magnitudes -/

/-- The value of the magnitude bits m, in units of 2^-1074 (rule R11). -/
def magUnits (m : ℕ) : ℕ := if m / 2 ^ 52 = 0 then m % 2 ^ 52 else (2 ^ 52 + m % 2 ^ 52) * 2 ^ (m / 2 ^ 52 - 1)

theorem units_eq_magUnits (x : F64) : units x = magUnits (mag x) := rfl

/-- A significand q with its exponent e, the hidden bit and a carry added to the exponent field. -/
theorem magUnits_mul_add {e q : ℕ} (hq : q ≤ 2 ^ 53) (hnormal : e = 0 ∨ 2 ^ 52 ≤ q) :
    magUnits (e * 2 ^ 52 + q) = q * 2 ^ e := by
  obtain hsub | hnorm := lt_or_ge q (2 ^ 52)
  · obtain rfl : e = 0 := hnormal.resolve_right hsub.not_ge
    rw [zero_mul, zero_add, pow_zero, mul_one, magUnits, if_pos (Nat.div_eq_of_lt hsub), Nat.mod_eq_of_lt hsub]
  · obtain rfl | hlt := hq.eq_or_lt
    · have hdiv : (e * 2 ^ 52 + 2 ^ 53) / 2 ^ 52 = e + 2 := by omega
      have hmod : (e * 2 ^ 52 + 2 ^ 53) % 2 ^ 52 = 0 := by omega
      rw [magUnits, hdiv, hmod, if_neg (by omega), show e + 2 - 1 = 1 + e by omega, pow_add]
      ring
    · have hdiv : (e * 2 ^ 52 + q) / 2 ^ 52 = e + 1 := by omega
      have hmod : (e * 2 ^ 52 + q) % 2 ^ 52 = q - 2 ^ 52 := by omega
      rw [magUnits, hdiv, hmod, if_neg (by omega), Nat.add_sub_cancel' hnorm, Nat.add_sub_cancel]

/-- Every magnitude is a significand with its exponent. -/
theorem exists_eq_mul_add (m : ℕ) : ∃ e q, m = e * 2 ^ 52 + q ∧ q < 2 ^ 53 ∧ (e = 0 ∨ 2 ^ 52 ≤ q) := by
  obtain hsub | hnorm := lt_or_ge m (2 ^ 52)
  · exact ⟨0, m, by omega, by omega, .inl rfl⟩
  · exact ⟨m / 2 ^ 52 - 1, 2 ^ 52 + m % 2 ^ 52, by omega, by omega, .inr (by omega)⟩

/-- The order of the magnitude bits is that of the values. -/
theorem magUnits_strictMono : StrictMono magUnits := by
  refine strictMono_nat_of_lt_succ fun m => ?_
  obtain ⟨e, q, rfl, hq, hnormal⟩ := exists_eq_mul_add m
  rw [add_assoc, magUnits_mul_add hq.le hnormal, magUnits_mul_add hq (hnormal.imp_right Nat.le_succ_of_le)]
  exact Nat.mul_lt_mul_of_pos_right q.lt_succ_self (Nat.two_pow_pos e)

@[simp] theorem magUnits_zero : magUnits 0 = 0 := rfl

theorem magUnits_infBits : magUnits infBits = 2 ^ 53 * 2 ^ 2045 := by
  rw [show infBits = 2045 * 2 ^ 52 + 2 ^ 53 by decide]
  exact magUnits_mul_add le_rfl (.inr (by norm_num))

theorem magUnits_infBits_sub_one : magUnits (infBits - 1) = (2 ^ 53 - 1) * 2 ^ 2045 := by
  rw [show infBits - 1 = 2045 * 2 ^ 52 + (2 ^ 53 - 1) by decide]
  exact magUnits_mul_add (by norm_num) (.inr (by norm_num))

/-- The overflow threshold is halfway between the largest finite value and the infinity's place on the scale (rule R12). -/
theorem magUnits_infBits_sub_one_add : magUnits (infBits - 1) + magUnits infBits = 2 * Safety.overflowUnits := by
  rw [magUnits_infBits, magUnits_infBits_sub_one, Safety.overflowUnits, show 2045 = 2044 + 1 from rfl, pow_succ' 2 2044]
  generalize (2 : ℕ) ^ 2044 = t
  omega

/-- The largest 53 bits of a whole number are a significand, and the number lies between it and the next. -/
theorem magUnits_log2 (n : ℕ) :
    magUnits ((n.log2 - 52) * 2 ^ 52 + n / 2 ^ (n.log2 - 52)) = n / 2 ^ (n.log2 - 52) * 2 ^ (n.log2 - 52) ∧
      magUnits ((n.log2 - 52) * 2 ^ 52 + n / 2 ^ (n.log2 - 52) + 1)
        = (n / 2 ^ (n.log2 - 52) + 1) * 2 ^ (n.log2 - 52) := by
  have hq : n / 2 ^ (n.log2 - 52) < 2 ^ 53 := by
    rw [Nat.div_lt_iff_lt_mul (Nat.two_pow_pos _), ← pow_add]
    exact Nat.lt_log2_self.trans_le (Nat.pow_le_pow_right (by decide) (by omega))
  have hnormal : n.log2 - 52 = 0 ∨ 2 ^ 52 ≤ n / 2 ^ (n.log2 - 52) := by
    refine (Nat.eq_zero_or_pos (n.log2 - 52)).imp_right fun hpos => ?_
    rw [Nat.le_div_iff_mul_le (Nat.two_pow_pos _), ← pow_add, show 52 + (n.log2 - 52) = n.log2 by omega]
    refine Nat.log2_self_le fun hzero => ?_
    rw [hzero] at hpos
    simp at hpos
  rw [add_assoc]
  exact ⟨magUnits_mul_add hq.le hnormal, magUnits_mul_add hq (hnormal.imp_right Nat.le_succ_of_le)⟩

/-! ### Rounded magnitudes -/

/-- The magnitude bits m are the real v (in units of 2^-1074) rounded to nearest, ties to even, on the scale continued
past the infinity: v lies between two neighbours k and k + 1 of the scale, and m is the nearer. -/
def RoundsMag (v : ℝ) (m : ℕ) : Prop :=
  ∃ k, (magUnits k : ℝ) ≤ v ∧ v < magUnits (k + 1) ∧
    ((m = k ∧ (2 * v < magUnits k + magUnits (k + 1) ∨
        2 * v = magUnits k + magUnits (k + 1) ∧ k % 2 = 0)) ∨
      (m = k + 1 ∧ ((magUnits k : ℝ) + magUnits (k + 1) < 2 * v ∨
        2 * v = magUnits k + magUnits (k + 1) ∧ k % 2 = 1)))

/-- Nothing on the scale is nearer than the rounded magnitude, and on a tie it is even. -/
theorem RoundsMag.nearest {v : ℝ} {m : ℕ} (h : RoundsMag v m) (c : ℕ) :
    |(magUnits m : ℝ) - v| ≤ |(magUnits c : ℝ) - v| ∧
      (|(magUnits m : ℝ) - v| = |(magUnits c : ℝ) - v| → c ≠ m → m % 2 = 0) := by
  obtain ⟨k, hlo, hhi, hm⟩ := h
  have hside : (magUnits c : ℝ) ≤ magUnits k ∨ (magUnits (k + 1) : ℝ) ≤ magUnits c := by
    obtain hle | hlt := le_or_gt c k
    · exact .inl (by exact_mod_cast magUnits_strictMono.monotone hle)
    · exact .inr (by exact_mod_cast magUnits_strictMono.monotone hlt)
  have hinj : ∀ j, (magUnits c : ℝ) = magUnits j → c = j := fun j hj =>
    magUnits_strictMono.injective (by exact_mod_cast hj)
  obtain ⟨rfl, hnear⟩ | ⟨rfl, hnear⟩ := hm
  · rw [abs_of_nonpos (by linarith : (magUnits m : ℝ) - v ≤ 0)]
    obtain hc | hc := hside
    · rw [abs_of_nonpos (by linarith)]
      refine ⟨by linarith, fun heq hne => absurd (hinj m (by linarith)) hne⟩
    · rw [abs_of_nonneg (by linarith)]
      obtain hlt | ⟨htie, heven⟩ := hnear
      · exact ⟨by linarith, fun heq => by linarith⟩
      · exact ⟨by linarith, fun _ _ => heven⟩
  · rw [abs_of_pos (by linarith : 0 < (magUnits (k + 1) : ℝ) - v)]
    obtain hc | hc := hside
    · rw [abs_of_nonpos (by linarith)]
      obtain hlt | ⟨htie, hodd⟩ := hnear
      · exact ⟨by linarith, fun heq => by linarith⟩
      · exact ⟨by linarith, fun _ _ => by omega⟩
    · rw [abs_of_nonneg (by linarith)]
      refine ⟨by linarith, fun heq hne => absurd (hinj (k + 1) (by linarith)) hne⟩

/-- The rounded magnitude reaches the infinity from the halfway point past the largest finite value on (rule R12). -/
theorem RoundsMag.infBits_le_iff {v : ℝ} {m : ℕ} (h : RoundsMag v m) :
    infBits ≤ m ↔ (Safety.overflowUnits : ℝ) ≤ v := by
  have hhalf : ((magUnits (infBits - 1) : ℕ) : ℝ) + (magUnits infBits : ℕ) = 2 * Safety.overflowUnits := by
    exact_mod_cast magUnits_infBits_sub_one_add
  have hgap : (magUnits (infBits - 1) : ℝ) < magUnits infBits := by
    exact_mod_cast magUnits_strictMono (show infBits - 1 < infBits by decide)
  obtain ⟨k, hlo, hhi, hm⟩ := h
  obtain hk | rfl | hk : k + 1 < infBits ∨ k = infBits - 1 ∨ infBits ≤ k := by
    have : 0 < infBits := by decide
    omega
  · have hbelow : (magUnits (k + 1) : ℝ) ≤ magUnits (infBits - 1) := by
      exact_mod_cast magUnits_strictMono.monotone (show k + 1 ≤ infBits - 1 by omega)
    exact ⟨fun hle => by omega, fun hle => by linarith⟩
  · have hodd : (infBits - 1) % 2 = 1 := by decide
    rw [show infBits - 1 + 1 = infBits by decide, hhalf, hodd] at hm
    obtain ⟨rfl, hnear⟩ | ⟨rfl, hnear⟩ := hm
    · exact ⟨fun hle => absurd hle (by decide), fun hle => by
        obtain hlt | ⟨_, hparity⟩ := hnear
        · linarith
        · cases hparity⟩
    · refine ⟨fun _ => ?_, fun _ => le_rfl⟩
      obtain hlt | ⟨htie, _⟩ := hnear <;> linarith
  · have habove : (magUnits infBits : ℝ) ≤ magUnits k := by exact_mod_cast magUnits_strictMono.monotone hk
    exact ⟨fun _ => by linarith, fun _ => by omega⟩

/-- Only 0 of the scale is nearest 0. -/
theorem RoundsMag.eq_zero {m : ℕ} (h : RoundsMag 0 m) : m = 0 := by
  have hnear := (h.nearest 0).1
  simp only [magUnits_zero, Nat.cast_zero, sub_zero, abs_zero, abs_nonpos_iff, Nat.cast_eq_zero] at hnear
  exact magUnits_strictMono.injective (hnear.trans magUnits_zero.symm)

theorem roundsMag_zero : RoundsMag 0 0 := by
  have hone : magUnits (0 + 1) = 1 := by decide
  exact ⟨0, by simp, by simp [hone], .inl ⟨rfl, .inl (by simp [hone])⟩⟩

/-- A whole number n of which at least the quotient by 2^e is kept: the rounded magnitude from the comparison of v with the
halfway point. -/
theorem roundsMag_of_log2 {v : ℝ} {n : ℕ} (hlo : (n : ℝ) ≤ v) (hhi : v < n + 1) (up : Prop) [Decidable up]
    (hup : up ↔
      ((2 * (n / 2 ^ (n.log2 - 52)) + 1) * 2 ^ (n.log2 - 52) : ℕ) < 2 * v ∨
        2 * v = ((2 * (n / 2 ^ (n.log2 - 52)) + 1) * 2 ^ (n.log2 - 52) : ℕ) ∧ n / 2 ^ (n.log2 - 52) % 2 = 1) :
    RoundsMag v ((n.log2 - 52) * 2 ^ 52 + if up then n / 2 ^ (n.log2 - 52) + 1 else n / 2 ^ (n.log2 - 52)) := by
  obtain ⟨hk, hk1⟩ := magUnits_log2 n
  set e := n.log2 - 52
  set q := n / 2 ^ e
  have hqn : q * 2 ^ e ≤ n := Nat.div_mul_le_self n (2 ^ e)
  have hnq : n + 1 ≤ (q + 1) * 2 ^ e := by
    rw [Nat.succ_mul]
    exact Nat.lt_div_mul_add (Nat.two_pow_pos e)
  have hlo' : ((q * 2 ^ e : ℕ) : ℝ) ≤ n := by exact_mod_cast hqn
  have hhi' : (n : ℝ) + 1 ≤ ((q + 1) * 2 ^ e : ℕ) := by exact_mod_cast hnq
  have hhalf : ((2 * q + 1) * 2 ^ e : ℕ) = ((q * 2 ^ e : ℕ) : ℝ) + ((q + 1) * 2 ^ e : ℕ) := by
    push_cast
    ring
  rw [hhalf] at hup
  refine ⟨e * 2 ^ 52 + q, by rw [hk]; linarith, by rw [hk1]; linarith, ?_⟩
  rw [hk, hk1, show (e * 2 ^ 52 + q) % 2 = q % 2 by omega]
  split
  · next h => exact .inr ⟨by omega, hup.mp h⟩
  · next h =>
    rw [hup, not_or, not_and, not_lt] at h
    obtain ⟨hle, hodd⟩ := h
    refine .inl ⟨rfl, hle.lt_or_eq.imp_right fun htie => ⟨htie, ?_⟩⟩
    have := hodd htie
    omega

/-- The quotient of two whole numbers, rounded (rule R13): `roundUnits` before the infinity cuts it off. -/
theorem exists_roundsMag_roundUnits (n : ℕ) {d : ℕ} (hd : 0 < d) :
    ∃ m, roundUnits n d = min m infBits ∧ RoundsMag ((n : ℝ) / d) m := by
  have hd' : (0 : ℝ) < d := by exact_mod_cast hd
  set e := (n / d).log2 - 52 with he
  have hq : n / (d * 2 ^ e) = n / d / 2 ^ e := (Nat.div_div_eq_div_mul n d (2 ^ e)).symm
  have hn : n = d * (2 ^ e * (n / d / 2 ^ e)) + n % (d * 2 ^ e) := by
    conv_lhs => rw [← Nat.div_add_mod n (d * 2 ^ e), hq, Nat.mul_assoc]
  have hn' : (n : ℝ) = d * (2 ^ e * (n / d / 2 ^ e : ℕ)) + (n % (d * 2 ^ e) : ℕ) := by exact_mod_cast hn
  refine ⟨_, by rw [roundUnits, ← he, hq], roundsMag_of_log2 (n := n / d) ?_ ?_ _ ?_⟩
  · rw [le_div_iff₀ hd']
    exact_mod_cast Nat.div_mul_le_self n d
  · rw [div_lt_iff₀ hd', add_mul, one_mul]
    exact_mod_cast Nat.lt_div_mul_add hd
  · rw [← he]
    have hlt : d * 2 ^ e < 2 * (n % (d * 2 ^ e)) ↔ ((2 * (n / d / 2 ^ e) + 1) * 2 ^ e : ℕ) < 2 * ((n : ℝ) / d) := by
      rw [← mul_div_assoc, lt_div_iff₀ hd', hn', ← Nat.cast_lt (α := ℝ)]
      push_cast
      constructor <;> intro h <;> linarith
    have heq : 2 * (n % (d * 2 ^ e)) = d * 2 ^ e ↔ 2 * ((n : ℝ) / d) = ((2 * (n / d / 2 ^ e) + 1) * 2 ^ e : ℕ) := by
      rw [← mul_div_assoc, div_eq_iff hd'.ne', hn', ← Nat.cast_inj (R := ℝ)]
      push_cast
      constructor <;> intro h <;> linarith
    rw [hlt, heq]

theorem two_mul_sqrt (m : ℕ) : 2 * Real.sqrt m = Real.sqrt (4 * m : ℕ) := by
  rw [Nat.cast_mul, Real.sqrt_mul (by positivity), show ((4 : ℕ) : ℝ) = 2 ^ 2 by norm_num, Real.sqrt_sq (by norm_num)]

/-- The square root of a whole number, rounded (rule R12). -/
theorem roundsMag_roundRoot (m : ℕ) : RoundsMag (Real.sqrt m) (roundRoot m) := by
  obtain ⟨hlo, hhi⟩ := isqrt_spec m
  refine roundsMag_of_log2 (n := isqrt m) ?_ ?_ _ ?_
  · exact Real.le_sqrt_of_sq_le (by exact_mod_cast (sq (isqrt m)).trans_le hlo)
  · rw [Real.sqrt_lt' (by positivity), sq]
    exact_mod_cast hhi
  · set half := (2 * (isqrt m / 2 ^ ((isqrt m).log2 - 52)) + 1) * 2 ^ ((isqrt m).log2 - 52)
    have hlt : half * half < 4 * m ↔ (half : ℝ) < 2 * Real.sqrt m := by
      rw [two_mul_sqrt, Real.lt_sqrt (Nat.cast_nonneg half), sq]
      exact_mod_cast Iff.rfl
    have heq : half * half = 4 * m ↔ 2 * Real.sqrt m = half := by
      rw [two_mul_sqrt, Real.sqrt_eq_iff_mul_self_eq (Nat.cast_nonneg _) (Nat.cast_nonneg half)]
      norm_cast
      exact eq_comm
    rw [hlt, heq]

theorem units_ofSignMag (s : Bool) {m : ℕ} (h : m < 2 ^ 63) : units (ofSignMag s m) = magUnits m := by
  rw [units_eq_magUnits, mag_ofSignMag s m h]

end Sys2Proof.F64

namespace Sys2Proof.Machine

open Sys2Proof.F64

/-- Settles O53: `roundUnits` cuts a rounded magnitude off at the infinity (`exists_roundsMag_roundUnits`), and rounded
magnitudes are nearest, ties to even (`RoundsMag.nearest`), infinite from the halfway point on
(`RoundsMag.infBits_le_iff`). -/
theorem roundingIsToNearestTiesToEven : Obligations.RoundingIsToNearestTiesToEven := by
  unfold Obligations.RoundingIsToNearestTiesToEven
  intro n d hd
  have hd' : (0 : ℝ) < d := by exact_mod_cast hd
  obtain ⟨m, hm, hround⟩ := exists_roundsMag_roundUnits n hd
  rw [hm]
  refine ⟨?_, fun hfin c hc => ?_⟩
  · rw [min_eq_right_iff, hround.infBits_le_iff, le_div_iff₀ hd', Safety.overflowUnits]
    exact_mod_cast Iff.rfl
  · have hlt : m < infBits := (min_lt_iff.mp hfin).resolve_right (lt_irrefl _)
    rw [min_eq_left hlt.le]
    obtain ⟨hle, htie⟩ := hround.nearest c
    rw [units_ofSignMag false (hlt.trans infBits_lt), units_ofSignMag false (hc.trans infBits_lt),
      ← Rat.cast_le (K := ℝ), ← Rat.cast_inj (α := ℝ)]
    push_cast
    rw [abs_sub_comm _ (magUnits m : ℝ), abs_sub_comm _ (magUnits c : ℝ)]
    exact ⟨hle, htie⟩

end Sys2Proof.Machine
end

section
/-! PROOFS. Binary64 arithmetic against the reals (rules R12, R13): each operation is the exact result rounded once, and the
comparisons are those of the exact values. -/

namespace Sys2Proof.F64

/-! ### Values and their order -/

theorem abs_value (x : F64) : |value x| = magUnits (mag x) := by
  rw [Int.abs_eq_natAbs, natAbs_value, units_eq_magUnits]

theorem value_ofSignMag (s : Bool) {m : ℕ} (h : m < 2 ^ 63) :
    value (ofSignMag s m) = if s then -(magUnits m : ℤ) else magUnits m := by
  rw [value, sign_ofSignMag s m h, units_ofSignMag s h]

theorem magUnits_eq_zero_iff {m : ℕ} : magUnits m = 0 ↔ m = 0 :=
  ⟨fun h => magUnits_strictMono.injective (h.trans magUnits_zero.symm), fun h => by rw [h, magUnits_zero]⟩

theorem units_eq_zero_iff {x : F64} : units x = 0 ↔ isZero x = true := by
  rw [units_eq_magUnits, magUnits_eq_zero_iff, isZero, decide_eq_true_eq]

theorem value_eq_zero_iff {x : F64} : value x = 0 ↔ isZero x = true := by
  rw [← units_eq_zero_iff, ← natAbs_value, Int.natAbs_eq_zero]

theorem value_nonneg_of_sign {x : F64} (h : sign x = false) : 0 ≤ value x := by simp [value, h]

theorem value_nonpos_of_sign {x : F64} (h : sign x = true) : value x ≤ 0 := by simp [value, h]

/-- The keys of the comparisons stand in the order of the exact values. -/
theorem value_lt_value_iff {a b : F64} : value a < value b ↔ key a < key b := by
  have hmag : magUnits (mag a) < magUnits (mag b) ↔ mag a < mag b := magUnits_strictMono.lt_iff_lt
  have hmag' : magUnits (mag b) < magUnits (mag a) ↔ mag b < mag a := magUnits_strictMono.lt_iff_lt
  have ha := magUnits_eq_zero_iff (m := mag a)
  have hb := magUnits_eq_zero_iff (m := mag b)
  simp only [value, key, units_eq_magUnits]
  cases sign a <;> cases sign b <;> simp only [Bool.false_eq_true, if_false, if_true] <;> omega

theorem value_le_value_iff {a b : F64} : value a ≤ value b ↔ key a ≤ key b := by
  rw [← not_lt, value_lt_value_iff, not_lt]

theorem abs_key (x : F64) : |key x| = mag x := by
  unfold key
  split <;> simp

theorem isFinite_iff_abs_key_lt {x : F64} : isFinite x = true ↔ |key x| < infBits := by
  rw [abs_key, isFinite, decide_eq_true_eq, Int.ofNat_lt]

theorem isNaN_eq_false_iff_abs_key_le {x : F64} : isNaN x = false ↔ |key x| ≤ infBits := by
  rw [abs_key, isNaN, decide_eq_false_iff_not, not_lt, Int.ofNat_le]

theorem isNaN_eq_false_of_isFinite {x : F64} (h : isFinite x = true) : isNaN x = false := ((isFinite_iff x).mp h).1

theorem isInf_eq_false_of_isFinite {x : F64} (h : isFinite x = true) : isInf x = false := ((isFinite_iff x).mp h).2

theorem key_negInf : key 0xFFF0000000000000#64 = -infBits := by decide

theorem key_posInf : key posInf = infBits := by decide

end Sys2Proof.F64

namespace Sys2Proof.Machine

open Sys2Proof.F64

/-- Settles O55: the comparisons are those of keys (`lt_eq_true_iff`, `le_eq_true_iff`), which stand in the order of the
values (`value_lt_value_iff`), with the infinities at the ends. -/
theorem lessThanIsTheOrderOfExactValues : Obligations.LessThanIsTheOrderOfExactValues := by
  unfold Obligations.LessThanIsTheOrderOfExactValues
  have hneg : isNaN 0xFFF0000000000000#64 = false := by decide
  have hpos : isNaN posInf = false := by decide
  refine ⟨fun a b ha hb => ⟨?_, ?_⟩, fun a ha => ?_, by decide, fun a => ?_, fun a b ha hb => ?_, fun a b h => ?_⟩
  · simp [lt_eq_true_iff, isNaN_eq_false_of_isFinite ha, isNaN_eq_false_of_isFinite hb, value_lt_value_iff]
  · simp [le_eq_true_iff, isNaN_eq_false_of_isFinite ha, isNaN_eq_false_of_isFinite hb, value_le_value_iff]
  · obtain ⟨hlo, hhi⟩ := abs_lt.mp (isFinite_iff_abs_key_lt.mp ha)
    simp [lt_eq_true_iff, isNaN_eq_false_of_isFinite ha, hneg, hpos, key_negInf, key_posInf, hlo, hhi]
  · rw [Bool.eq_false_iff, Bool.eq_false_iff, Ne, Ne, lt_eq_true_iff, lt_eq_true_iff, key_negInf, key_posInf,
      isNaN_eq_false_iff_abs_key_le (x := a), abs_le]
    exact ⟨fun ⟨_, ⟨_, hle⟩, hlt⟩ => hlt.not_ge hle, fun ⟨⟨hle, _⟩, _, hlt⟩ => hlt.not_ge hle⟩
  · rw [Bool.eq_iff_iff, Bool.not_eq_true', Bool.eq_false_iff, Ne, le_eq_true_iff, lt_eq_true_iff]
    simp [ha, hb]
  · obtain h | h := h <;> simp [lt, le, F64.eq, h]

end Sys2Proof.Machine

namespace Sys2Proof.Safety

open Sys2Proof.F64

/-! ### An exact real rounded once -/

theorem getLsbD_zero_ofSignMag (s : Bool) (m : ℕ) : (ofSignMag s m).getLsbD 0 = decide (m % 2 = 1) := by
  have hpow : (2 ^ 63 + m) % 2 = m % 2 := by omega
  cases s <;> simp only [ofSignMag, BitVec.getLsbD_ofNat, Nat.testBit_zero, hpow, Bool.false_eq_true, if_false, if_true] <;>
    simp

/-- A real as near to x as to −x is 0, or else x is. -/
theorem eq_zero_or_eq_zero_of_tie {x v : ℝ} (h : |x - v| = |-x - v|) : x = 0 ∨ v = 0 := by
  obtain h | h := abs_eq_abs.mp h
  · exact .inl (by linarith)
  · exact .inr (by linarith)

/-- The distance of a word from a real of its sign is that of the magnitudes. -/
theorem abs_value_ofSignMag_sub {v : ℝ} {m : ℕ} {s : Bool} (hm : m < 2 ^ 63) (hneg : v < 0 → s = true)
    (hpos : 0 < v → s = false) :
    |(value (ofSignMag s m) : ℝ) - v * 2 ^ 1074| = |(magUnits m : ℝ) - |v| * 2 ^ 1074| := by
  rw [value_ofSignMag s hm]
  cases s with
  | true =>
    have hv : v ≤ 0 := not_lt.mp fun hv => Bool.noConfusion (hpos hv)
    rw [abs_of_nonpos hv, if_pos rfl, ← abs_neg]
    push_cast
    generalize (2 : ℝ) ^ 1074 = u
    congr 1
    ring
  | false =>
    have hv : 0 ≤ v := not_lt.mp fun hv => Bool.noConfusion (hneg hv)
    rw [abs_of_nonneg hv, if_neg (by decide)]
    push_cast
    rfl

/-- The distance of any word from a real is at least that of the magnitudes. -/
theorem abs_magUnits_sub_le (v : ℝ) (y : F64) :
    |(magUnits (mag y) : ℝ) - |v| * 2 ^ 1074| ≤ |(value y : ℝ) - v * 2 ^ 1074| := by
  have hunit : (0 : ℝ) < 2 ^ 1074 := by positivity
  have habs : (magUnits (mag y) : ℝ) = |(value y : ℝ)| := by exact_mod_cast (abs_value y).symm
  rw [habs, ← abs_of_pos hunit, ← abs_mul, abs_of_pos hunit]
  exact abs_abs_sub_abs_le _ _

/-- A rounded magnitude with the exact sign is the exact real rounded once. -/
theorem roundsTo_of_roundsMag {v : ℝ} {m : ℕ} {s : Bool} (h : RoundsMag (|v| * 2 ^ 1074) m) (hneg : v < 0 → s = true)
    (hpos : 0 < v → s = false) : RoundsTo v (ofSignMag s (min m infBits)) := by
  have hlt : min m infBits < 2 ^ 63 := (min_le_right _ _).trans_lt infBits_lt
  have hmag : mag (ofSignMag s (min m infBits)) = min m infBits := mag_ofSignMag s _ hlt
  have hfin : isFinite (ofSignMag s (min m infBits)) = true ↔ m < infBits := by
    rw [isFinite, hmag, decide_eq_true_eq, min_lt_iff]
    simp
  have hdist (hm : m < infBits) :
      |(value (ofSignMag s (min m infBits)) : ℝ) - v * 2 ^ 1074| = |(magUnits m : ℝ) - |v| * 2 ^ 1074| := by
    rw [abs_value_ofSignMag_sub hlt hneg hpos, min_eq_left hm.le]
  refine ⟨?_, ?_, fun hover => ?_, fun hx => ⟨hx, fun y _ => ?_⟩, fun hx y _ hne htie => ?_, fun hv => ?_, fun hv => ?_⟩
  · rw [isNaN, hmag]
    simp
  · rw [hfin, ← not_le, h.infBits_le_iff, not_le]
  · rw [min_eq_right (h.infBits_le_iff.mpr hover)]
    split
    · next hv => rw [hneg hv]; rfl
    · next hv =>
      have hv0 : v ≠ 0 := by
        rintro rfl
        rw [abs_zero, zero_mul, Nat.cast_nonpos] at hover
        exact absurd hover (by rw [overflowUnits]; positivity)
      rw [hpos (lt_of_le_of_ne (not_lt.mp hv) hv0.symm)]
      rfl
  · rw [hdist (hfin.mp hx)]
    exact (h.nearest (mag y)).1.trans (abs_magUnits_sub_le v y)
  · have hm := hfin.mp hx
    rw [hdist hm] at htie
    obtain ⟨hnear, heven⟩ := h.nearest (mag y)
    have heq : |(magUnits m : ℝ) - |v| * 2 ^ 1074| = |(magUnits (mag y) : ℝ) - |v| * 2 ^ 1074| :=
      le_antisymm hnear (htie ▸ abs_magUnits_sub_le v y)
    rw [getLsbD_zero_ofSignMag, min_eq_left hm.le]
    by_cases hmy : mag y = m
    · have hopp : value y = -value (ofSignMag s (min m infBits)) := by
        refine (abs_eq_abs.mp ?_).resolve_left hne
        rw [abs_value, abs_value, hmag, min_eq_left hm.le, hmy]
      rw [← hdist hm, hopp, Int.cast_neg] at htie
      obtain hzero | hzero := eq_zero_or_eq_zero_of_tie htie
      · rw [hopp, Int.cast_eq_zero.mp hzero] at hne
        exact absurd neg_zero hne
      · rw [show |v| * 2 ^ 1074 = 0 by rw [← abs_of_pos (by positivity : (0 : ℝ) < 2 ^ 1074), ← abs_mul, hzero, abs_zero]] at h
        simp [h.eq_zero]
    · simp [heven heq hmy]
  · rw [sign_ofSignMag s _ hlt, hneg hv]
  · rw [sign_ofSignMag s _ hlt, hpos hv]

end Sys2Proof.Safety
end

section
/-! PROOFS. The five operations of binary64 against the reals (rule R12). -/

namespace Sys2Proof.F64

/-! ### The operations of finite operands -/

theorem add_of_isFinite {a b : F64} (ha : isFinite a = true) (hb : isFinite b = true) :
    add a b = if value a + value b = 0 then ofSignMag (sign a && sign b) 0
      else ofSignMag (decide (value a + value b < 0)) (roundUnits (value a + value b).natAbs 1) := by
  simp [add, isNaN_eq_false_of_isFinite ha, isNaN_eq_false_of_isFinite hb, isInf_eq_false_of_isFinite ha,
    isInf_eq_false_of_isFinite hb]

theorem mag_neg (x : F64) : mag (neg x) = mag x := mag_ofSignMag _ _ (mag_lt x)

theorem sign_neg (x : F64) : sign (neg x) = !sign x := sign_ofSignMag _ _ (mag_lt x)

theorem value_neg (x : F64) : value (neg x) = -value x := by
  rw [value, value, sign_neg, units_eq_magUnits, units_eq_magUnits, mag_neg]
  cases sign x <;> simp

theorem isFinite_neg {x : F64} : isFinite (neg x) = isFinite x := by rw [isFinite, isFinite, mag_neg]

theorem sub_of_isFinite (a : F64) {b : F64} (hb : isFinite b = true) : sub a b = add a (neg b) := by
  simp [sub, isNaN_eq_false_of_isFinite hb]

theorem mul_of_isFinite {a b : F64} (ha : isFinite a = true) (hb : isFinite b = true) :
    mul a b = ofSignMag (sign a != sign b) (roundUnits (units a * units b) oneUnits) := by
  simp [mul, isNaN_eq_false_of_isFinite ha, isNaN_eq_false_of_isFinite hb, isInf_eq_false_of_isFinite ha,
    isInf_eq_false_of_isFinite hb]

theorem div_of_isFinite {a b : F64} (ha : isFinite a = true) (hb : isFinite b = true) (hzero : isZero b = false) :
    div a b = ofSignMag (sign a != sign b) (roundUnits (units a * oneUnits) (units b)) := by
  simp [div, isNaN_eq_false_of_isFinite ha, isNaN_eq_false_of_isFinite hb, isInf_eq_false_of_isFinite ha,
    isInf_eq_false_of_isFinite hb, hzero]

theorem sqrt_of_isZero {a : F64} (h : isZero a = true) : sqrt a = a := by
  have hnan : isNaN a = false := by
    rw [isZero, decide_eq_true_eq] at h
    simp [isNaN, h]
  simp [sqrt, hnan, h]

theorem sqrt_of_isFinite {a : F64} (ha : isFinite a = true) (hsign : sign a = false) (hzero : isZero a = false) :
    sqrt a = ofSignMag false (roundRoot (units a * oneUnits)) := by
  simp [sqrt, isNaN_eq_false_of_isFinite ha, isInf_eq_false_of_isFinite ha, hsign, hzero]

theorem key_ofSignMag (s : Bool) {m : ℕ} (h : m < 2 ^ 63) : key (ofSignMag s m) = if s then -(m : ℤ) else m := by
  rw [key, sign_ofSignMag s m h, mag_ofSignMag s m h]

theorem roundUnits_zero {d : ℕ} (hd : 0 < d) : roundUnits 0 d = 0 := by
  simp [roundUnits, Nat.log2_zero, hd.ne]

theorem oneUnits_pos : 0 < oneUnits := by
  rw [oneUnits]
  positivity

/-- The difference of equal values is a zero (rule R12). -/
theorem sub_of_value_eq {a b : F64} (ha : isFinite a = true) (hb : isFinite b = true) (h : value a = value b) :
    sub a b = ofSignMag (sign a && !sign b) 0 := by
  rw [sub_of_isFinite a hb, add_of_isFinite ha (isFinite_neg.trans hb), value_neg, h, if_pos (add_neg_cancel _), sign_neg]

/-- The product with a zero is a zero (rule R12). -/
theorem mul_of_isZero {a b : F64} (ha : isFinite a = true) (hb : isFinite b = true)
    (h : isZero a = true ∨ isZero b = true) : mul a b = ofSignMag (sign a != sign b) 0 := by
  have hprod : units a * units b = 0 := by
    rw [Nat.mul_eq_zero, units_eq_zero_iff, units_eq_zero_iff]
    exact h
  rw [mul_of_isFinite ha hb, hprod, roundUnits_zero oneUnits_pos]

theorem oneUnits_cast : ((oneUnits : ℕ) : ℝ) = 2 ^ 1074 := by
  rw [oneUnits, Nat.cast_pow, Nat.cast_ofNat]

theorem abs_value_cast (x : F64) : |(value x : ℝ)| = units x := by
  exact_mod_cast abs_value x

/-- The magnitude of a finite word is below 2^2098 units (rule R11). -/
theorem units_lt_of_isFinite {x : F64} (h : isFinite x = true) : units x < 2 ^ 53 * 2 ^ 2045 := by
  rw [units_eq_magUnits, ← magUnits_infBits]
  exact magUnits_strictMono (of_decide_eq_true h)

end Sys2Proof.F64

namespace Sys2Proof.Safety

open Sys2Proof.F64

/-! ### Each is the exact result rounded once -/

/-- A quotient of whole numbers of units, rounded, with the exact sign. -/
theorem roundsTo_roundUnits {v : ℝ} {s : Bool} {n d : ℕ} (hd : 0 < d) (hv : |v| * 2 ^ 1074 = (n : ℝ) / d)
    (hneg : v < 0 → s = true) (hpos : 0 < v → s = false) : RoundsTo v (ofSignMag s (roundUnits n d)) := by
  obtain ⟨m, hm, hround⟩ := exists_roundsMag_roundUnits n hd
  rw [hm]
  exact roundsTo_of_roundsMag (hv ▸ hround) hneg hpos

/-- Either zero is the exact 0 rounded. -/
theorem roundsTo_zero (s : Bool) : RoundsTo 0 (ofSignMag s 0) := by
  have hround : RoundsMag (|(0 : ℝ)| * 2 ^ 1074) 0 := by
    rw [abs_zero, zero_mul]
    exact roundsMag_zero
  exact roundsTo_of_roundsMag hround (fun h => absurd h (lt_irrefl 0)) fun h => absurd h (lt_irrefl 0)

theorem roundsTo_add {a b : F64} (ha : isFinite a = true) (hb : isFinite b = true) :
    RoundsTo ((value a : ℝ) / 2 ^ 1074 + (value b : ℝ) / 2 ^ 1074) (add a b) := by
  have hunit : (0 : ℝ) < 2 ^ 1074 := by positivity
  have hsum : (value a : ℝ) / 2 ^ 1074 + (value b : ℝ) / 2 ^ 1074 = (value a + value b : ℤ) / 2 ^ 1074 := by
    rw [← add_div, Int.cast_add]
  rw [hsum, add_of_isFinite ha hb]
  split
  · next hzero =>
    rw [hzero, Int.cast_zero, zero_div]
    exact roundsTo_zero _
  · refine roundsTo_roundUnits one_pos ?_ (fun h => ?_) fun h => ?_
    · rw [abs_div, abs_of_pos hunit, div_mul_cancel₀ _ hunit.ne', Nat.cast_one, div_one, Nat.cast_natAbs, Int.cast_abs]
    · rw [div_lt_iff₀ hunit, zero_mul] at h
      exact decide_eq_true (by exact_mod_cast h)
    · rw [div_pos_iff_of_pos_right hunit] at h
      exact decide_eq_false (by exact_mod_cast h.not_gt)

theorem roundsTo_sub {a b : F64} (ha : isFinite a = true) (hb : isFinite b = true) :
    RoundsTo ((value a : ℝ) / 2 ^ 1074 - (value b : ℝ) / 2 ^ 1074) (sub a b) := by
  have h := roundsTo_add ha (isFinite_neg.trans hb)
  rw [value_neg, Int.cast_neg, neg_div, ← sub_eq_add_neg] at h
  rwa [sub_of_isFinite a hb]

/-- A product of reals of these signs has the sign that the words' signs differ by. -/
theorem sign_bne_of_mul_neg {a b : F64} (h : (value a : ℝ) * value b < 0) : (sign a != sign b) = true := by
  have h' : value a * value b < 0 := by exact_mod_cast h
  cases ha : sign a <;> cases hb : sign b
  · exact absurd (mul_nonneg (value_nonneg_of_sign ha) (value_nonneg_of_sign hb)) h'.not_ge
  · rfl
  · rfl
  · exact absurd (mul_nonneg_of_nonpos_of_nonpos (value_nonpos_of_sign ha) (value_nonpos_of_sign hb)) h'.not_ge

theorem sign_bne_of_mul_pos {a b : F64} (h : 0 < (value a : ℝ) * value b) : (sign a != sign b) = false := by
  have h' : 0 < value a * value b := by exact_mod_cast h
  cases ha : sign a <;> cases hb : sign b
  · rfl
  · exact absurd (mul_nonpos_of_nonneg_of_nonpos (value_nonneg_of_sign ha) (value_nonpos_of_sign hb)) h'.not_ge
  · exact absurd (mul_nonpos_of_nonpos_of_nonneg (value_nonpos_of_sign ha) (value_nonneg_of_sign hb)) h'.not_ge
  · rfl

theorem roundsTo_mul {a b : F64} (ha : isFinite a = true) (hb : isFinite b = true) :
    RoundsTo (((value a : ℝ) / 2 ^ 1074) * ((value b : ℝ) / 2 ^ 1074)) (mul a b) := by
  have hunit : (0 : ℝ) < 2 ^ 1074 := by positivity
  have hsquare : (0 : ℝ) < 2 ^ 1074 * 2 ^ 1074 := mul_pos hunit hunit
  rw [mul_of_isFinite ha hb, div_mul_div_comm]
  refine roundsTo_roundUnits oneUnits_pos ?_ (fun h => ?_) fun h => ?_
  · rw [abs_div, abs_mul, abs_value_cast, abs_value_cast, abs_of_pos hsquare, oneUnits_cast, Nat.cast_mul,
      ← div_div, div_mul_cancel₀ _ hunit.ne']
  · rw [div_lt_iff₀ hsquare, zero_mul] at h
    exact sign_bne_of_mul_neg h
  · exact sign_bne_of_mul_pos ((div_pos_iff_of_pos_right hsquare).mp h)

theorem roundsTo_div {a b : F64} (ha : isFinite a = true) (hb : isFinite b = true) (hzero : isZero b = false) :
    RoundsTo ((value a : ℝ) / (value b : ℝ)) (div a b) := by
  have hunits : 0 < units b := Nat.pos_of_ne_zero fun h => by simp [units_eq_zero_iff.mp h] at hzero
  have hb0 : (value b : ℝ) ≠ 0 := by
    rw [Ne, Int.cast_eq_zero, value_eq_zero_iff, hzero]
    decide
  have hsq : (value a : ℝ) / value b = value a * value b / (value b) ^ 2 := by
    rw [sq, mul_div_mul_right _ _ hb0]
  have hpos : (0 : ℝ) < (value b) ^ 2 := by positivity
  rw [div_of_isFinite ha hb hzero]
  refine roundsTo_roundUnits hunits ?_ (fun h => ?_) fun h => ?_
  · rw [abs_div, abs_value_cast, abs_value_cast, Nat.cast_mul, oneUnits_cast, div_mul_eq_mul_div]
  · rw [hsq, div_lt_iff₀ hpos, zero_mul] at h
    exact sign_bne_of_mul_neg h
  · rw [hsq, div_pos_iff_of_pos_right hpos] at h
    exact sign_bne_of_mul_pos h

/-- The root of a finite value is far below the overflow threshold. -/
theorem sqrt_units_lt_overflowUnits {a : F64} (ha : isFinite a = true) :
    Real.sqrt ((units a * oneUnits : ℕ) : ℝ) < overflowUnits := by
  rw [Real.sqrt_lt' (by rw [overflowUnits]; positivity)]
  have hsquare : units a * oneUnits < overflowUnits ^ 2 := by
    calc units a * oneUnits < 2 ^ 53 * 2 ^ 2045 * oneUnits :=
          Nat.mul_lt_mul_of_pos_right (units_lt_of_isFinite ha) oneUnits_pos
      _ ≤ 2 ^ 2044 * 2 ^ 2044 := by
          rw [oneUnits, ← pow_add, ← pow_add, ← pow_add]
          exact pow_le_pow_right₀ one_le_two (by norm_num)
      _ ≤ overflowUnits ^ 2 := by
          rw [sq, overflowUnits]
          exact Nat.mul_le_mul (Nat.le_mul_of_pos_left _ (by decide)) (Nat.le_mul_of_pos_left _ (by decide))
  exact_mod_cast hsquare

/-- The root of a value of sign 0, in units of 2^-1074. -/
theorem abs_sqrt_value_mul {a : F64} (hsign : sign a = false) :
    |Real.sqrt ((value a : ℝ) / 2 ^ 1074)| * 2 ^ 1074 = Real.sqrt ((units a * oneUnits : ℕ) : ℝ) := by
  have hunit : (0 : ℝ) < 2 ^ 1074 := by positivity
  have hval : (value a : ℝ) = units a := by rw [value, hsign]; simp
  rw [abs_of_nonneg (Real.sqrt_nonneg _), hval, Nat.cast_mul, oneUnits_cast]
  conv_lhs => rw [← Real.sqrt_sq hunit.le, ← Real.sqrt_mul (by positivity)]
  congr 1
  rw [Real.sqrt_sq hunit.le, sq, ← mul_assoc, div_mul_cancel₀ _ hunit.ne']

theorem roundsTo_sqrt {a : F64} (ha : isFinite a = true) (hsign : sign a = false) :
    RoundsTo (Real.sqrt ((value a : ℝ) / 2 ^ 1074)) (sqrt a) := by
  cases hzero : isZero a with
  | true =>
    rw [sqrt_of_isZero hzero, value_eq_zero_iff.mpr hzero, Int.cast_zero, zero_div, Real.sqrt_zero,
      ← ofSignMag_sign_mag a, of_decide_eq_true hzero]
    exact roundsTo_zero _
  | false =>
    have hround := roundsMag_roundRoot (units a * oneUnits)
    have hfin : roundRoot (units a * oneUnits) < infBits := by
      rw [← not_le, hround.infBits_le_iff, not_le]
      exact sqrt_units_lt_overflowUnits ha
    rw [sqrt_of_isFinite ha hsign hzero, ← min_eq_left hfin.le]
    refine roundsTo_of_roundsMag (by rwa [abs_sqrt_value_mul hsign]) (fun h => ?_) fun _ => rfl
    exact absurd h (Real.sqrt_nonneg _).not_gt

/-! ### Bounds of a rounded value -/

/-- A rounded real is that near to each magnitude below the infinity's, on the real's own side of 0. -/
theorem RoundsTo.abs_value_sub_le {v : ℝ} {x : F64} {m : ℕ} (h : RoundsTo v x) (hx : isFinite x = true)
    (hm : m < infBits) : |(value x : ℝ) - v * 2 ^ 1074| ≤ |(magUnits m : ℝ) - |v| * 2 ^ 1074| := by
  have hlt : m < 2 ^ 63 := hm.trans infBits_lt
  rw [← abs_value_ofSignMag_sub (s := decide (v < 0)) hlt (fun hv => decide_eq_true hv) fun hv => decide_eq_false hv.not_gt]
  exact (h.nearest hx).2 _ (by simpa [isFinite, mag_ofSignMag _ _ hlt] using hm)

/-- Rounding does not pass a magnitude from above. -/
theorem RoundsTo.le_mag {v : ℝ} {x : F64} {m : ℕ} (h : RoundsTo v x) (hm : m < infBits)
    (hv : magUnits m ≤ |v| * 2 ^ 1074) : m ≤ mag x := by
  by_contra hlt
  have hx : isFinite x = true := decide_eq_true (by omega)
  have hgap : (magUnits (mag x) : ℝ) < magUnits m := by exact_mod_cast magUnits_strictMono (not_le.mp hlt)
  have hnear := (abs_magUnits_sub_le v x).trans (h.abs_value_sub_le hx hm)
  generalize |v| * 2 ^ 1074 = u at hv hnear
  rw [abs_of_neg (by linarith), abs_of_nonpos (by linarith)] at hnear
  linarith

/-- Rounding does not reach the magnitude after m from below the halfway point to it. -/
theorem RoundsTo.mag_le_of_lt_half {v : ℝ} {x : F64} {m : ℕ} (h : RoundsTo v x) (hm : m < infBits)
    (hv : 2 * (|v| * 2 ^ 1074) < magUnits m + magUnits (m + 1)) : mag x ≤ m := by
  by_contra hlt
  have hmono (k : ℕ) (hk : m + 1 ≤ k) : (magUnits (m + 1) : ℝ) ≤ magUnits k := by
    exact_mod_cast magUnits_strictMono.monotone hk
  cases hx : isFinite x with
  | true =>
    have habove := hmono (mag x) (by omega)
    have hgap : (magUnits m : ℝ) < magUnits (m + 1) := by exact_mod_cast magUnits_strictMono m.lt_succ_self
    have hnear := (abs_magUnits_sub_le v x).trans (h.abs_value_sub_le hx hm)
    generalize |v| * 2 ^ 1074 = u at hv hnear
    rw [abs_of_pos (by linarith)] at hnear
    obtain hle | hle := le_total u (magUnits m)
    · rw [abs_of_nonneg (by linarith)] at hnear
      linarith
    · rw [abs_of_nonpos (by linarith)] at hnear
      linarith
  | false =>
    have hover : (overflowUnits : ℝ) ≤ |v| * 2 ^ 1074 := by
      rw [← not_lt, ← h.finite, hx]
      decide
    have hhalf : (magUnits (infBits - 1) : ℝ) + magUnits infBits = 2 * overflowUnits := by
      exact_mod_cast magUnits_infBits_sub_one_add
    have hlow : (magUnits m : ℝ) ≤ magUnits (infBits - 1) := by
      exact_mod_cast magUnits_strictMono.monotone (Nat.le_sub_one_of_lt hm)
    have hhigh := hmono infBits hm
    generalize |v| * 2 ^ 1074 = u at hv hover
    linarith

/-- Rounding does not pass a magnitude from below. -/
theorem RoundsTo.mag_le {v : ℝ} {x : F64} {m : ℕ} (h : RoundsTo v x) (hm : m < infBits)
    (hv : |v| * 2 ^ 1074 ≤ magUnits m) : mag x ≤ m := by
  have hgap : (magUnits m : ℝ) < magUnits (m + 1) := by exact_mod_cast magUnits_strictMono m.lt_succ_self
  refine h.mag_le_of_lt_half hm ?_
  generalize |v| * 2 ^ 1074 = u at hv
  linarith

end Sys2Proof.Safety

namespace Sys2Proof.Machine

open Sys2Proof.F64 Sys2Proof.Safety

/-- Settles O54: the exact results rounded once are `roundsTo_add`, `roundsTo_sub`, `roundsTo_mul`, `roundsTo_div` and
`roundsTo_sqrt`; a product or quotient of a zero rounds 0 with the sign of the operands. -/
theorem arithmeticIsTheExactResultRoundedOnce : Obligations.ArithmeticIsTheExactResultRoundedOnce := by
  unfold Obligations.ArithmeticIsTheExactResultRoundedOnce
  intro a b ha hb
  refine ⟨roundsTo_add ha hb, roundsTo_sub ha hb, roundsTo_mul ha hb, roundsTo_div ha hb, roundsTo_sqrt ha,
    fun hzero => ?_, sub_of_value_eq ha hb, mul_of_isZero ha hb, fun hza hzb => ?_, fun hza hzb => ?_, sqrt_of_isZero⟩
  · rw [add_of_isFinite ha hb, if_pos hzero]
  · have hunits : 0 < units b := Nat.pos_of_ne_zero fun h => by simp [units_eq_zero_iff.mp h] at hzb
    rw [div_of_isFinite ha hb hzb, units_eq_zero_iff.mpr hza, Nat.zero_mul, roundUnits_zero hunits]
  · simp [div, isNaN_eq_false_of_isFinite ha, isNaN_eq_false_of_isFinite hb, isInf_eq_false_of_isFinite ha,
      isInf_eq_false_of_isFinite hb, hza, hzb]

end Sys2Proof.Machine
end

section
/-! PROOFS. The detector (rules R16, R89): the least distance and the lowest index, that an ideal point is detected as
itself, and the round trip at zero noise. -/

-- In turn, not side by side: each kernel evaluation waits in a thread of its own for all before it to be checked.
set_option Elab.async false

namespace Sys2Proof.F64

/-! ### Squares and sums of squares -/

theorem isNaN_ofSignMag_infBits (s : Bool) : isNaN (ofSignMag s infBits) = false := by cases s <;> decide

theorem isNaN_sub_of_isFinite {a b : F64} (ha : isFinite a = true) (hb : isFinite b = true) :
    isNaN (sub a b) = false :=
  (Safety.roundsTo_sub ha hb).notNaN

/-- A value that is no NaN is finite or an infinity. -/
theorem isFinite_or_isInf {x : F64} (h : isNaN x = false) : isFinite x = true ∨ isInf x = true := by
  rw [isFinite_iff]
  cases isInf x <;> simp [h]

theorem isZero_eq_false_of_isInf {x : F64} (h : isInf x = true) : isZero x = false := by
  rw [isInf, decide_eq_true_eq] at h
  simp [isZero, h, infBits]

/-- A square is no NaN and has sign 0. -/
theorem mul_self_notNaN {x : F64} (h : isNaN x = false) : isNaN (mul x x) = false ∧ sign (mul x x) = false := by
  obtain hfin | hinf := isFinite_or_isInf h
  · refine ⟨(Safety.roundsTo_mul hfin hfin).notNaN, ?_⟩
    rw [mul_of_isFinite hfin hfin, sign_ofSignMag _ _ (roundUnits_lt _ _), bne_self_eq_false]
  · simp [mul, h, hinf, isZero_eq_false_of_isInf hinf, isNaN_ofSignMag_infBits,
      sign_ofSignMag false infBits infBits_lt]

/-- A whole number of units from 1 on does not round to 0. -/
theorem roundUnits_one_eq_zero {n : ℕ} (h : roundUnits n 1 = 0) : n = 0 := by
  obtain ⟨m, hm, hround⟩ := exists_roundsMag_roundUnits n one_pos
  obtain rfl : m = 0 := by
    have : 0 < infBits := by decide
    omega
  have hnear := (hround.nearest 1).1
  rw [show magUnits 1 = 1 by decide, magUnits_zero, Nat.cast_zero, Nat.cast_one, div_one, zero_sub, abs_neg, Nat.abs_cast] at hnear
  by_contra hn
  have hn' : (1 : ℝ) ≤ n := by exact_mod_cast Nat.one_le_iff_ne_zero.mpr hn
  rw [abs_of_nonpos (by linarith)] at hnear
  linarith

/-- A sum of values of sign 0 is no NaN, has sign 0, and is a zero only if both are. -/
theorem add_of_sign_false {a b : F64} (ha : isNaN a = false) (hb : isNaN b = false) (hsa : sign a = false)
    (hsb : sign b = false) :
    isNaN (add a b) = false ∧ sign (add a b) = false ∧
      (isZero (add a b) = true → isZero a = true ∧ isZero b = true) := by
  obtain hfa | hia := isFinite_or_isInf ha
  · obtain hfb | hib := isFinite_or_isInf hb
    · have hva := value_nonneg_of_sign hsa
      have hvb := value_nonneg_of_sign hsb
      refine ⟨(Safety.roundsTo_add hfa hfb).notNaN, ?_, fun hzero => ?_⟩
      · rw [add_of_isFinite hfa hfb]
        split
        · simp [hsa, hsb]
        · rw [sign_ofSignMag _ _ (roundUnits_lt _ _)]
          exact decide_eq_false (by omega)
      · rw [← value_eq_zero_iff, ← value_eq_zero_iff]
        rw [add_of_isFinite hfa hfb] at hzero
        split at hzero
        · omega
        · rw [isZero, mag_ofSignMag _ _ (roundUnits_lt _ _), decide_eq_true_eq] at hzero
          have := roundUnits_one_eq_zero hzero
          omega
    · have hadd : add a b = b := by simp [add, ha, hb, isInf_eq_false_of_isFinite hfa, hib]
      rw [hadd]
      exact ⟨hb, hsb, fun hzero => by simp [isZero_eq_false_of_isInf hib] at hzero⟩
  · have hadd : add a b = a := by simp [add, ha, hb, hia, hsa, hsb]
    rw [hadd]
    exact ⟨ha, hsa, fun hzero => by simp [isZero_eq_false_of_isInf hia] at hzero⟩

theorem key_nonneg_of_sign {x : F64} (h : sign x = false) : 0 ≤ key x := by simp [key, h]

end Sys2Proof.F64

namespace Sys2Proof.Machine

open Sys2Proof.F64 Sys2Proof.Safety

/-! ### The first nearest point -/

/-- The entry e stands at index i of the points, no distance is below its own, and every earlier one is above it; the
distances by their keys (rule R89). -/
def FirstNearest (r : Sample) (points : List RomEntry) (i : Nat) (e : RomEntry) : Prop :=
  points[i]? = some e ∧
    ∀ j f, points[j]? = some f →
      key (dist2 r e) ≤ key (dist2 r f) ∧ (j < i → key (dist2 r e) < key (dist2 r f))

/-- The running minimum finds it, if no distance is a NaN. -/
theorem exists_firstNearest_nearestFrom (r : Sample) {best : RomEntry} {points : List RomEntry}
    (h : ∀ p ∈ best :: points, isNaN (dist2 r p) = false) :
    ∃ i, FirstNearest r (best :: points) i (nearestFrom r best (dist2 r best) points) := by
  induction points generalizing best with
  | nil =>
    refine ⟨0, rfl, fun j f hf => ?_⟩
    obtain ⟨rfl, rfl⟩ : j = 0 ∧ best = f := by simpa [List.getElem?_singleton] using hf
    exact ⟨le_rfl, fun hlt => absurd hlt (lt_irrefl 0)⟩
  | cons p points ih =>
    have hbest : isNaN (dist2 r best) = false := h best (by simp)
    have hp : isNaN (dist2 r p) = false := h p (by simp)
    rw [nearestFrom]
    split
    · next hlt =>
      obtain ⟨_, _, hlt⟩ := (lt_eq_true_iff _ _).mp hlt
      obtain ⟨i, hi, hmin⟩ := ih (best := p) fun q hq => h q (List.mem_cons_of_mem _ hq)
      refine ⟨i + 1, hi, fun j f hf => ?_⟩
      cases j with
      | zero =>
        obtain rfl : best = f := by simpa using hf
        have := (hmin 0 p rfl).1
        exact ⟨by omega, fun _ => by omega⟩
      | succ j =>
        obtain ⟨hle, hearlier⟩ := hmin j f hf
        exact ⟨hle, fun hj => hearlier (by omega)⟩
    · next hnot =>
      have hle : key (dist2 r best) ≤ key (dist2 r p) :=
        not_lt.mp fun hlt => hnot ((lt_eq_true_iff _ _).mpr ⟨hp, hbest, hlt⟩)
      obtain ⟨i, hi, hmin⟩ := ih (best := best) fun q hq => h q (by simp at hq ⊢; tauto)
      obtain ⟨hle0, hlt0⟩ := hmin 0 best rfl
      refine ⟨if i = 0 then 0 else i + 1, ?_, fun j f hf => ?_⟩
      · cases i <;> exact hi
      · match j with
        | 0 =>
          obtain rfl : best = f := by simpa using hf
          exact ⟨hle0, fun hj => hlt0 (by split at hj <;> omega)⟩
        | 1 =>
          obtain rfl : p = f := by simpa using hf
          refine ⟨hle0.trans hle, fun hj => (hlt0 ?_).trans_le hle⟩
          split at hj <;> omega
        | j + 2 =>
          obtain ⟨hle', hearlier⟩ := hmin (j + 1) f hf
          exact ⟨hle', fun hj => hearlier (by split at hj <;> omega)⟩

/-! ### Distances -/

/-- Every coordinate of the constellation ROM (rules R45 to R49). -/
def coordinates : List F64 :=
  [0#64, 0x3FF0000000000000#64, 0xBFF0000000000000#64, invSqrt2, negInvSqrt2] ++ axis16.map AxisLevel.coord ++
    axis64.map AxisLevel.coord

theorem mem_coordinates (sch : Scheme) : ∀ e ∈ romTable sch, e.i ∈ coordinates ∧ e.q ∈ coordinates := by
  cases sch <;> decide +kernel

theorem coordinates_isFinite : coordinates.all isFinite = true := by decide +kernel

/-- Two coordinates are equal or stand far apart, at 2^-74 at least. -/
theorem coordinates_apart : coordinates.Pairwise fun a b => 2 ^ 1000 ≤ (value a - value b).natAbs := by
  decide +kernel

theorem isFinite_of_mem_coordinates {x : F64} (h : x ∈ coordinates) : isFinite x = true :=
  List.all_eq_true.mp coordinates_isFinite x h

theorem isFinite_of_mem_romTable {sch : Scheme} {e : RomEntry} (h : e ∈ romTable sch) :
    isFinite e.i = true ∧ isFinite e.q = true :=
  (mem_coordinates sch e h).imp isFinite_of_mem_coordinates isFinite_of_mem_coordinates

/-- The squared difference of a finite sample's coordinate and a point's is no NaN and has sign 0. -/
theorem square_sub {a b : F64} (ha : isFinite a = true) (hb : isFinite b = true) :
    isNaN (mul (sub a b) (sub a b)) = false ∧ sign (mul (sub a b) (sub a b)) = false :=
  mul_self_notNaN (isNaN_sub_of_isFinite ha hb)

theorem dist2_notNaN {r : Sample} {p : RomEntry} (hri : isFinite r.i = true) (hrq : isFinite r.q = true)
    (hpi : isFinite p.i = true) (hpq : isFinite p.q = true) :
    isNaN (dist2 r p) = false ∧ sign (dist2 r p) = false := by
  obtain ⟨hi, hsi⟩ := square_sub hri hpi
  obtain ⟨hq, hsq⟩ := square_sub hrq hpq
  obtain ⟨hnan, hsign, _⟩ := add_of_sign_false hi hq hsi hsq
  exact ⟨hnan, hsign⟩

/-! ### DET -/

/-- DET of a finite sample where BPS is the width of SCHEME (rule R89). -/
theorem exists_firstNearest_exec_det {s : State} {x y : F64} (hbps : s.bps = bpsRead s.scheme)
    (hx : isFinite x = true) (hy : isFinite y = true) :
    ∃ i e, FirstNearest ⟨x, y⟩ (romTable s.scheme) i e ∧
      exec (.det x y) s = .next { s with phase := response 0#8 [beat e.i e.q (BitVec.ofNat 8 e.label)] } := by
  obtain ⟨p, ps, hps⟩ : ∃ p ps, romTable s.scheme = p :: ps := by
    refine List.exists_cons_of_ne_nil (List.ne_nil_of_length_pos ?_)
    rw [romTable_length]
    exact Nat.two_pow_pos _
  obtain ⟨i, hi⟩ := exists_firstNearest_nearestFrom ⟨x, y⟩ (best := p) (points := ps) fun q hq => by
    obtain ⟨hqi, hqq⟩ := isFinite_of_mem_romTable (hps ▸ hq)
    exact (dist2_notNaN (r := ⟨x, y⟩) hx hy hqi hqq).1
  have hall : (romTable s.scheme).take (2 ^ s.bps.toNat) = p :: ps := by
    rw [hbps, ← hps]
    exact List.take_of_length_le (romTable_length s.scheme).le
  refine ⟨i, _, hps ▸ hi, ?_⟩
  simp only [exec, execDet, Sample.isFinite_mk hx hy, if_true, hall, nearest]
  rfl

/-- Settles O40: the point of `exists_firstNearest_exec_det`, the order of the keys being that of the distances. -/
theorem detReturnsTheFirstNearestPoint : Obligations.DetReturnsTheFirstNearestPoint := by
  unfold Obligations.DetReturnsTheFirstNearestPoint
  intro s x y hbps hx hy
  obtain ⟨best, e, ⟨he, hmin⟩, hexec⟩ := exists_firstNearest_exec_det hbps hx hy
  have hnan : ∀ {j f}, romRead s.scheme j = some f → isNaN (dist2 ⟨x, y⟩ f) = false := fun hf => by
    obtain ⟨hfi, hfq⟩ := isFinite_of_mem_romTable (List.mem_of_getElem? hf)
    exact (dist2_notNaN (r := ⟨x, y⟩) hx hy hfi hfq).1
  refine ⟨best, e, lt_of_romRead_eq_some he, he, hexec, fun j f hf => ?_⟩
  obtain ⟨hle, hlt⟩ := hmin j f hf
  exact ⟨(le_eq_true_iff _ _).mpr ⟨hnan he, hnan hf, hle⟩,
    fun hj => (lt_eq_true_iff _ _).mpr ⟨hnan he, hnan hf, hlt hj⟩⟩

/-! ### Ideal points -/

/-- Finite values at least 2^-74 apart have a difference whose square is not 0. -/
theorem square_sub_not_isZero {a b : F64} (ha : isFinite a = true) (hb : isFinite b = true)
    (h : 2 ^ 1000 ≤ (value a - value b).natAbs) : isZero (mul (sub a b) (sub a b)) = false := by
  have hsub := roundsTo_sub ha hb
  obtain hfin | hinf := isFinite_or_isInf hsub.notNaN
  · have hunit : (0 : ℝ) < 2 ^ 1074 := by positivity
    have hplace : magUnits (949 * 2 ^ 52) = 2 ^ 1000 := by decide +kernel
    have hmag : 949 * 2 ^ 52 ≤ mag (sub a b) := by
      refine hsub.le_mag (by decide) ?_
      rw [hplace, ← sub_div, abs_div, abs_of_pos hunit, div_mul_cancel₀ _ hunit.ne', ← Int.cast_sub, ← Int.cast_abs,
        ← Nat.cast_natAbs]
      exact_mod_cast h
    have hunits : 2 ^ 1000 ≤ units (sub a b) := by
      rw [← hplace]
      exact magUnits_strictMono.monotone hmag
    have hone : 1 ≤ mag (mul (sub a b) (sub a b)) := by
      refine (roundsTo_mul hfin hfin).le_mag (by decide) ?_
      have hunits' : (2 : ℝ) ^ 1000 ≤ units (sub a b) := by exact_mod_cast hunits
      have hpow : (2 : ℝ) ^ 1074 ≤ 2 ^ 1000 * 2 ^ 1000 := by
        rw [← pow_add]
        exact pow_le_pow_right₀ one_le_two (by norm_num)
      rw [abs_mul, abs_div, abs_value_cast, abs_of_pos hunit, mul_assoc, div_mul_cancel₀ _ hunit.ne', div_mul_eq_mul_div,
        le_div_iff₀ hunit, show magUnits 1 = 1 by decide, Nat.cast_one, one_mul]
      exact hpow.trans (mul_self_le_mul_self (by positivity) hunits')
    exact decide_eq_false (by omega)
  · simp [mul, hsub.notNaN, hinf, isZero_eq_false_of_isInf hinf]
    decide

/-- Two coordinates whose difference has the square 0 are equal. -/
theorem eq_of_square_sub_isZero {a b : F64} (ha : a ∈ coordinates) (hb : b ∈ coordinates)
    (h : isZero (mul (sub a b) (sub a b)) = true) : a = b := by
  by_contra hne
  have hsymm : Std.Symm fun a b : F64 => 2 ^ 1000 ≤ (value a - value b).natAbs :=
    ⟨fun a b h => by rwa [← Int.neg_sub, Int.natAbs_neg]⟩
  have happart : 2 ^ 1000 ≤ (value a - value b).natAbs := coordinates_apart.forall ha hb hne
  simp [square_sub_not_isZero (isFinite_of_mem_coordinates ha) (isFinite_of_mem_coordinates hb) happart] at h

/-- A finite value less itself is +0, and so is its square. -/
theorem square_sub_self {a : F64} (ha : isFinite a = true) : mul (sub a a) (sub a a) = 0#64 := by
  rw [sub_of_value_eq ha ha rfl, Bool.and_not_self]
  decide +kernel

/-- No two entries of a table are one point (rule R42). -/
theorem romTable_points_nodup (sch : Scheme) : ((romTable sch).map fun e => e.i.toNat * 2 ^ 64 + e.q.toNat).Nodup := by
  cases sch <;> decide +kernel

/-- The distance of an ideal point from an entry is 0 only for its own. -/
theorem eq_of_dist2_isZero {sch : Scheme} {e f : RomEntry} (he : e ∈ romTable sch) (hf : f ∈ romTable sch)
    (h : isZero (dist2 ⟨e.i, e.q⟩ f) = true) : e = f := by
  obtain ⟨hei, heq⟩ := mem_coordinates sch e he
  obtain ⟨hfi, hfq⟩ := mem_coordinates sch f hf
  obtain ⟨hni, hsi⟩ := square_sub (isFinite_of_mem_coordinates hei) (isFinite_of_mem_coordinates hfi)
  obtain ⟨hnq, hsq⟩ := square_sub (isFinite_of_mem_coordinates heq) (isFinite_of_mem_coordinates hfq)
  obtain ⟨_, _, hzero⟩ := add_of_sign_false hni hnq hsi hsq
  obtain ⟨hzi, hzq⟩ := hzero h
  refine List.inj_on_of_nodup_map (romTable_points_nodup sch) he hf ?_
  rw [eq_of_square_sub_isZero hei hfi hzi, eq_of_square_sub_isZero heq hfq hzq]

theorem dist2_self {e : RomEntry} (hi : isFinite e.i = true) (hq : isFinite e.q = true) : dist2 ⟨e.i, e.q⟩ e = 0#64 := by
  rw [dist2, square_sub_self hi, square_sub_self hq]
  decide +kernel

/-- Settles O42: the point DET answers is at a distance of at most 0 (`dist2_self`), so it is the entry itself
(`eq_of_dist2_isZero`). -/
theorem idealPointsAreDetectedAsThemselves : Obligations.IdealPointsAreDetectedAsThemselves := by
  unfold Obligations.IdealPointsAreDetectedAsThemselves
  intro s j e hbps he
  have hmem := List.mem_of_getElem? he
  obtain ⟨hi, hq⟩ := isFinite_of_mem_romTable hmem
  obtain ⟨best, f, ⟨hf, hmin⟩, hexec⟩ := exists_firstNearest_exec_det hbps hi hq
  obtain ⟨hfi, hfq⟩ := isFinite_of_mem_romTable (List.mem_of_getElem? hf)
  obtain ⟨_, hsign⟩ := dist2_notNaN (r := ⟨e.i, e.q⟩) hi hq hfi hfq
  have hle : key (dist2 ⟨e.i, e.q⟩ f) ≤ 0 := by
    have := (hmin j e he).1
    rwa [dist2_self hi hq] at this
  have hzero : isZero (dist2 ⟨e.i, e.q⟩ f) = true := by
    rw [key, hsign, if_neg (by decide)] at hle
    exact decide_eq_true (by omega)
  rwa [← eq_of_dist2_isZero hmem (List.mem_of_getElem? hf) hzero] at hexec

/-! ### The round trip -/

/-- Settles O43: MOD of one group gives the entry whose label is v (`modBeats_getElem?`), AWGN at NSD = +0 passes it
through, and DET gives it back (`idealPointsAreDetectedAsThemselves`). -/
theorem noiselessRoundTripGivesTheLabelBack : Obligations.NoiselessRoundTripGivesTheLabelBack := by
  unfold Obligations.NoiselessRoundTripGivesTheLabelBack
  intro s v d ds hbps hnsd hv hdraw hok
  have hn : (s.bps.setWidth 8).toNat = (bpsRead s.scheme).toNat := by
    rw [hbps, BitVec.toNat_setWidth_of_le (by decide)]
  have hone : (bpsRead s.scheme).toNat / (bpsRead s.scheme).toNat = 1 := Nat.div_self (bpsRead_pos s.scheme)
  obtain ⟨j, e, he, hbeat, hlabel⟩ := modBeats_getElem? (w := v) (hone ▸ one_pos)
  have hbeats : modBeats s.scheme (bpsRead s.scheme).toNat v = [entryBeat e] := by
    obtain ⟨b, hb⟩ := List.length_eq_one_iff.mp ((modBeats_length _ _ v).trans hone)
    rw [hb] at hbeat ⊢
    rw [Option.some.inj hbeat]
  have hv' : e.label = v.toNat := by
    rw [hlabel, bitGroup, zero_add, one_mul, Nat.sub_self, Nat.shiftRight_zero]
    exact Nat.mod_eq_of_lt hv
  obtain ⟨hi, hq⟩ := isFinite_of_mem_romTable (List.mem_of_getElem? he)
  refine ⟨e.i, e.q, BitVec.ofNat 8 e.label, ?_, ?_, ?_, ?_⟩
  · rw [hv']
    rfl
  · rw [exec_mod_of_lt hbps (by rw [hn]; omega) (by rw [hn]; exact hv), hn, hbeats]
    rfl
  · exact awgnPassesThroughAtZeroNoise s e.i e.q d ds hi hq hdraw hok (by rw [hnsd]; decide)
  · exact idealPointsAreDetectedAsThemselves { s with drawIn := ds } j e hbps he

end Sys2Proof.Machine
end

section
/-! PROOFS. The coordinates of the constellation ROM against the exact reals (rules R44 to R49). -/

-- In turn, not side by side: each kernel evaluation waits in a thread of its own for all before it to be checked.
set_option Elab.async false

namespace Sys2Proof.Safety

/-! ### Nearest values of roots -/

theorem NearestTo.neg {v : ℝ} {x : F64} (h : NearestTo v x) : NearestTo (-v) (F64.neg x) := by
  obtain ⟨hfin, hnear⟩ := h
  have hdist : ∀ y : F64, |(F64.value (F64.neg y) : ℝ) - -v * 2 ^ 1074| = |(F64.value y : ℝ) - v * 2 ^ 1074| := by
    intro y
    rw [F64.value_neg, Int.cast_neg, neg_mul, ← neg_sub', abs_neg]
  refine ⟨F64.isFinite_neg.trans hfin, fun y hy => ?_⟩
  have hy' := hnear (F64.neg y) (F64.isFinite_neg.trans hy)
  rw [← hdist (F64.neg y), F64.value_neg (F64.neg y), F64.value_neg y, neg_neg] at hy'
  rwa [hdist]

theorem NearestTo.congr {v w : ℝ} {x y : F64} (h : NearestTo v x) (hv : w = v) (hx : y = x) : NearestTo w y := by
  rwa [hv, hx]

/-- The value m / 2^j is nearest c / √n if the squares show that 2^j·c / √n lies between m − 1/2 and m + 1/2. -/
theorem nearestTo_div_sqrt {c n m e j : ℕ} {x : F64} (hfin : F64.isFinite x = true) (hx : F64.value x = (m : ℤ) * 2 ^ e)
    (hm : 2 ^ 52 < m) (hej : j + e = 1074) (hn : 0 < n) (hlo : (2 * m - 1) ^ 2 * n ≤ (2 * c * 2 ^ j) ^ 2)
    (hhi : (2 * c * 2 ^ j) ^ 2 ≤ (2 * m + 1) ^ 2 * n) : NearestTo (c / Real.sqrt n) x := by
  have hn' : (0 : ℝ) < Real.sqrt n := Real.sqrt_pos.mpr (by exact_mod_cast hn)
  have hsq : Real.sqrt n ^ 2 = n := Real.sq_sqrt (Nat.cast_nonneg n)
  have hlower : (2 * (m : ℝ) - 1) * Real.sqrt n ≤ 2 * c * 2 ^ j := by
    have hm1 : ((2 * m - 1 : ℕ) : ℝ) = 2 * m - 1 := by rw [Nat.cast_sub (by omega)]; push_cast; rfl
    rw [← hm1, ← sq_le_sq₀ (by positivity) (by positivity), mul_pow, hsq]
    exact_mod_cast hlo
  have hupper : 2 * (c : ℝ) * 2 ^ j ≤ (2 * m + 1) * Real.sqrt n := by
    rw [← sq_le_sq₀ (by positivity) (by positivity), mul_pow _ (Real.sqrt n), hsq]
    exact_mod_cast hhi
  refine nearestTo_of_abs_sub_le_half (m := m) hfin hx (by rw [Nat.abs_cast]; exact_mod_cast hm) hej ?_
  rw [Int.cast_natCast, abs_le, div_mul_eq_mul_div]
  constructor
  · rw [le_sub_comm, div_le_iff₀ hn']
    linarith
  · rw [sub_le_comm, le_div_iff₀ hn']
    linarith

end Sys2Proof.Safety

namespace Sys2Proof.Machine

open Sys2Proof.Safety

/-! ### QAM -/

theorem nearest_one_div_sqrt_ten : NearestTo ((1 : ℕ) / Real.sqrt (10 : ℕ)) 0x3FD43D136248490F#64 :=
  nearestTo_div_sqrt (m := 0x143D136248490F) (e := 1020) (j := 54) (by decide) (by decide +kernel) (by decide) rfl
    (by decide) (by decide) (by decide)

theorem nearest_three_div_sqrt_ten : NearestTo ((3 : ℕ) / Real.sqrt (10 : ℕ)) 0x3FEE5B9D136C6D96#64 :=
  nearestTo_div_sqrt (m := 0x1E5B9D136C6D96) (e := 1021) (j := 53) (by decide) (by decide +kernel) (by decide) rfl
    (by decide) (by decide) (by decide)

theorem nearest_one_div_sqrt_fortyTwo : NearestTo ((1 : ℕ) / Real.sqrt (42 : ℕ)) 0x3FC3C03650E00E03#64 :=
  nearestTo_div_sqrt (m := 0x13C03650E00E03) (e := 1019) (j := 55) (by decide) (by decide +kernel) (by decide) rfl
    (by decide) (by decide) (by decide)

theorem nearest_three_div_sqrt_fortyTwo : NearestTo ((3 : ℕ) / Real.sqrt (42 : ℕ)) 0x3FDDA05179501504#64 :=
  nearestTo_div_sqrt (m := 0x1DA05179501504) (e := 1020) (j := 54) (by decide) (by decide +kernel) (by decide) rfl
    (by decide) (by decide) (by decide)

theorem nearest_five_div_sqrt_fortyTwo : NearestTo ((5 : ℕ) / Real.sqrt (42 : ℕ)) 0x3FE8B043E5181184#64 :=
  nearestTo_div_sqrt (m := 0x18B043E5181184) (e := 1021) (j := 53) (by decide) (by decide +kernel) (by decide) rfl
    (by decide) (by decide) (by decide)

theorem nearest_seven_div_sqrt_fortyTwo : NearestTo ((7 : ℕ) / Real.sqrt (42 : ℕ)) 0x3FF1482F86C40C43#64 :=
  nearestTo_div_sqrt (m := 0x11482F86C40C43) (e := 1022) (j := 52) (by decide) (by decide +kernel) (by decide) rfl
    (by decide) (by decide) (by decide)

/-- The coordinate at position p of a QAM axis. -/
def axisCoord (axis : List AxisLevel) (p : Nat) : F64 := (axis[p]?.map AxisLevel.coord).getD 0#64

/-- The levels of the 16-QAM axis (rules R41, R48). -/
theorem axisCoord_axis16_nearest : ∀ p : ℕ, p < 4 → NearestTo ((2 * (p : ℝ) - 3) / Real.sqrt 10) (axisCoord axis16 p) := by
  intro p hp
  interval_cases p
  · exact nearest_three_div_sqrt_ten.neg.congr (by push_cast; ring) (by decide)
  · exact nearest_one_div_sqrt_ten.neg.congr (by push_cast; ring) (by decide)
  · exact nearest_one_div_sqrt_ten.congr (by push_cast; ring) (by decide)
  · exact nearest_three_div_sqrt_ten.congr (by push_cast; ring) (by decide)

/-- The levels of the 64-QAM axis (rules R41, R49). -/
theorem axisCoord_axis64_nearest : ∀ p : ℕ, p < 8 → NearestTo ((2 * (p : ℝ) - 7) / Real.sqrt 42) (axisCoord axis64 p) := by
  intro p hp
  interval_cases p
  · exact nearest_seven_div_sqrt_fortyTwo.neg.congr (by push_cast; ring) (by decide)
  · exact nearest_five_div_sqrt_fortyTwo.neg.congr (by push_cast; ring) (by decide)
  · exact nearest_three_div_sqrt_fortyTwo.neg.congr (by push_cast; ring) (by decide)
  · exact nearest_one_div_sqrt_fortyTwo.neg.congr (by push_cast; ring) (by decide)
  · exact nearest_one_div_sqrt_fortyTwo.congr (by push_cast; ring) (by decide)
  · exact nearest_three_div_sqrt_fortyTwo.congr (by push_cast; ring) (by decide)
  · exact nearest_five_div_sqrt_fortyTwo.congr (by push_cast; ring) (by decide)
  · exact nearest_seven_div_sqrt_fortyTwo.congr (by push_cast; ring) (by decide)

theorem romRead_qam16_point : ∀ pI < 4, ∀ pQ < 4, (romRead .qam16 (4 * pI + pQ)).map (fun e => (e.i, e.q))
    = some (axisCoord axis16 pI, axisCoord axis16 pQ) := by
  decide +kernel

theorem romRead_qam64_point : ∀ pI < 8, ∀ pQ < 8, (romRead .qam64 (8 * pI + pQ)).map (fun e => (e.i, e.q))
    = some (axisCoord axis64 pI, axisCoord axis64 pQ) := by
  decide +kernel

/-- An entry with the given point and label. -/
theorem exists_entry_of_map {o : Option RomEntry} {i q : F64} {v : Nat} (hpoint : o.map (fun e => (e.i, e.q)) = some (i, q))
    (hlabel : o.map RomEntry.label = some v) : ∃ e, o = some e ∧ e.i = i ∧ e.q = q ∧ e.label = v := by
  obtain ⟨e, rfl, he⟩ := Option.map_eq_some_iff.mp hpoint
  exact ⟨e, rfl, congrArg Prod.fst he, congrArg Prod.snd he, Option.some.inj hlabel⟩

/-- Settles O32: the points and labels are those of the axes, whose levels are nearest. -/
theorem qamCoordinatesAreNearestScaledLevels : Obligations.QamCoordinatesAreNearestScaledLevels := by
  unfold Obligations.QamCoordinatesAreNearestScaledLevels
  refine ⟨fun pI hI pQ hQ => ?_, fun pI hI pQ hQ => ?_⟩
  · obtain ⟨e, he, hi, hq, hlabel⟩ := exists_entry_of_map (romRead_qam16_point pI hI pQ hQ) (romRead_qam16_label pI hI pQ hQ)
    exact ⟨e, he, hlabel, hi ▸ axisCoord_axis16_nearest pI hI, hq ▸ axisCoord_axis16_nearest pQ hQ⟩
  · obtain ⟨e, he, hi, hq, hlabel⟩ := exists_entry_of_map (romRead_qam64_point pI hI pQ hQ) (romRead_qam64_label pI hI pQ hQ)
    exact ⟨e, he, hlabel, hi ▸ axisCoord_axis64_nearest pI hI, hq ▸ axisCoord_axis64_nearest pQ hQ⟩

/-! ### PSK -/

theorem nearest_sqrt_two_div_two : NearestTo (Real.sqrt 2 / 2) invSqrt2 := by
  have h : NearestTo ((1 : ℕ) / Real.sqrt (2 : ℕ)) invSqrt2 :=
    nearestTo_div_sqrt (m := 0x16A09E667F3BCD) (e := 1021) (j := 53) (by decide) (by decide +kernel) (by decide) rfl
      (by decide) (by decide) (by decide)
  rwa [Nat.cast_one, Nat.cast_ofNat, ← Real.sqrt_div_self'] at h

theorem nearest_zero : NearestTo 0 0#64 :=
  nearestTo_of_value_eq (by decide) (by rw [show F64.value 0#64 = 0 by decide, Int.cast_zero, zero_mul])

theorem nearest_one : NearestTo 1 0x3FF0000000000000#64 := by
  have hvalue : F64.value 0x3FF0000000000000#64 = 2 ^ 1074 := by decide +kernel
  exact nearestTo_of_value_eq (by decide) (by rw [hvalue, Int.cast_pow, Int.cast_ofNat, one_mul])

/-- The point at the angle θ. -/
def PointAt (θ : ℝ) (i q : F64) : Prop := NearestTo (Real.cos θ) i ∧ NearestTo (Real.sin θ) q

/-- The entries of the 8-PSK table at the multiples of π/4 (rule R47). -/
theorem romRead_psk8_pointAt : ∀ j < 8, ∃ e, romRead .psk8 j = some e ∧ PointAt (j * (Real.pi / 4)) e.i e.q := by
  intro j hj
  refine ⟨_, List.getElem?_eq_getElem (show j < (romTable .psk8).length from hj), ?_⟩
  unfold PointAt
  have hhalf := nearest_sqrt_two_div_two
  interval_cases j
  · rw [Nat.cast_zero, zero_mul, Real.cos_zero, Real.sin_zero]
    exact ⟨nearest_one, nearest_zero⟩
  · rw [Nat.cast_one, one_mul, Real.cos_pi_div_four, Real.sin_pi_div_four]
    exact ⟨hhalf, hhalf⟩
  · rw [show ((2 : ℕ) : ℝ) * (Real.pi / 4) = Real.pi / 2 by push_cast; ring, Real.cos_pi_div_two, Real.sin_pi_div_two]
    exact ⟨nearest_zero, nearest_one⟩
  · rw [show ((3 : ℕ) : ℝ) * (Real.pi / 4) = Real.pi - Real.pi / 4 by push_cast; ring, Real.cos_pi_sub, Real.sin_pi_sub,
      Real.cos_pi_div_four, Real.sin_pi_div_four]
    exact ⟨hhalf.neg, hhalf⟩
  · rw [show ((4 : ℕ) : ℝ) * (Real.pi / 4) = Real.pi by push_cast; ring, Real.cos_pi, Real.sin_pi]
    exact ⟨nearest_one.neg, nearest_zero⟩
  · rw [show ((5 : ℕ) : ℝ) * (Real.pi / 4) = Real.pi / 4 + Real.pi by push_cast; ring, Real.cos_add_pi, Real.sin_add_pi,
      Real.cos_pi_div_four, Real.sin_pi_div_four]
    exact ⟨hhalf.neg, hhalf.neg⟩
  · rw [show ((6 : ℕ) : ℝ) * (Real.pi / 4) = Real.pi / 2 + Real.pi by push_cast; ring, Real.cos_add_pi, Real.sin_add_pi,
      Real.cos_pi_div_two, Real.sin_pi_div_two, neg_zero]
    exact ⟨nearest_zero, nearest_one.neg⟩
  · rw [show ((7 : ℕ) : ℝ) * (Real.pi / 4) = 2 * Real.pi - Real.pi / 4 by push_cast; ring, Real.cos_two_pi_sub,
      Real.sin_two_pi_sub, Real.cos_pi_div_four, Real.sin_pi_div_four]
    exact ⟨hhalf, hhalf.neg⟩

/-- The points of BPSK are those of 8-PSK at the multiples of π, none with a −0 (rules R44, R45). -/
theorem romRead_bpsk_point : ∀ j < 2, ∃ e d, romRead .bpsk j = some e ∧ romRead .psk8 (4 * j) = some d ∧
    e.i = d.i ∧ e.q = d.q ∧ e.label = j := by
  intro j hj
  interval_cases j <;> exact ⟨_, _, rfl, rfl, rfl, rfl, rfl⟩

/-- The points of QPSK are those of 8-PSK at the odd multiples of π/4 (rule R46). -/
theorem romRead_qpsk_point : ∀ j < 4, ∃ e d, romRead .qpsk j = some e ∧ romRead .psk8 (2 * j + 1) = some d ∧
    e.i = d.i ∧ e.q = d.q ∧ e.label = j ^^^ (j / 2) := by
  intro j hj
  interval_cases j <;> exact ⟨_, _, rfl, rfl, rfl, rfl, rfl⟩

/-- The labels of 8-PSK, and that an exact 0 is held as +0 (rules R44, R47). -/
theorem romRead_psk8_label : ∀ j < 8, ∃ e, romRead .psk8 j = some e ∧ e.label = j ^^^ (j / 2) ∧
    e.i ≠ 0x8000000000000000#64 ∧ e.q ≠ 0x8000000000000000#64 := by
  intro j hj
  interval_cases j <;> exact ⟨_, rfl, rfl, by decide, by decide⟩

/-- Settles O33: all three tables take their points from the eight of `romRead_psk8_pointAt`. -/
theorem pskPointsLieAtTheirAngles : Obligations.PskPointsLieAtTheirAngles := by
  unfold Obligations.PskPointsLieAtTheirAngles
  have hpsk8 : ∀ j d, j < 8 → romRead .psk8 j = some d → PointAt (j * (Real.pi / 4)) d.i d.q ∧
      d.label = j ^^^ (j / 2) ∧ d.i ≠ 0x8000000000000000#64 ∧ d.q ≠ 0x8000000000000000#64 := by
    intro j d hj hd
    obtain ⟨e, he, hpoint⟩ := romRead_psk8_pointAt j hj
    obtain ⟨f, hf, hlabel⟩ := romRead_psk8_label j hj
    obtain rfl : e = d := Option.some.inj (he.symm.trans hd)
    obtain rfl : f = e := Option.some.inj (hf.symm.trans hd)
    exact ⟨hpoint, hlabel⟩
  refine ⟨fun j hj => ?_, fun j hj => ?_, fun j hj => ?_⟩
  · obtain ⟨e, d, he, hd, hi, hq, hlabel⟩ := romRead_bpsk_point j hj
    obtain ⟨⟨hcos, hsin⟩, _, hni, hnq⟩ := hpsk8 (4 * j) d (by omega) hd
    have hangle : ((4 * j : ℕ) : ℝ) * (Real.pi / 4) = j * Real.pi := by push_cast; ring
    rw [hangle] at hcos hsin
    rw [← hi] at hcos hni
    rw [← hq] at hsin hnq
    exact ⟨e, he, hlabel, hcos, hsin, hni, hnq⟩
  · obtain ⟨e, d, he, hd, hi, hq, hlabel⟩ := romRead_qpsk_point j hj
    obtain ⟨⟨hcos, hsin⟩, _⟩ := hpsk8 (2 * j + 1) d (by omega) hd
    have hangle : ((2 * j + 1 : ℕ) : ℝ) * (Real.pi / 4) = Real.pi / 4 + j * (Real.pi / 2) := by push_cast; ring
    rw [hangle] at hcos hsin
    exact ⟨e, he, hlabel, hi ▸ hcos, hq ▸ hsin⟩
  · obtain ⟨d, hd⟩ := romRead_of_lt (sch := .psk8) hj
    obtain ⟨⟨hcos, hsin⟩, hlabel, hni, hnq⟩ := hpsk8 j d hj hd
    exact ⟨d, hd, hlabel, hcos, hsin, hni, hnq⟩

end Sys2Proof.Machine
end

section
/-! PROOFS. The reference functions (rule R14, assumption log 3): the word of a settled enclosure, and the named properties
that the other rules rest on. -/

-- In turn, not side by side: each kernel evaluation waits in a thread of its own for all before it to be checked.
set_option Elab.async false

namespace Sys2Proof.Safety

open Sys2Proof.F64

/-! ### Between two reals that round to one word -/

theorem abs_sub_le_abs_sub_iff {x y t : ℝ} (h : x < y) : |x - t| ≤ |y - t| ↔ 2 * t ≤ x + y := by
  rw [← sq_le_sq]
  constructor <;> intro h' <;> nlinarith

theorem abs_sub_le_abs_sub_iff' {x y t : ℝ} (h : y < x) : |x - t| ≤ |y - t| ↔ x + y ≤ 2 * t := by
  rw [← sq_le_sq]
  constructor <;> intro h' <;> nlinarith

theorem overflowUnits_pos : (0 : ℝ) < overflowUnits := by
  rw [overflowUnits]
  positivity

theorem RoundsTo.overflowUnits_le {v : ℝ} {w : F64} (h : RoundsTo v w) (hw : isFinite w = false) :
    (overflowUnits : ℝ) ≤ |v| * 2 ^ 1074 := by
  rw [← not_lt, ← h.finite, hw]
  decide

/-- Two reals that round to one infinity lie on one side of 0, and so does a real between them. -/
theorem overflowUnits_le_of_between {a b v : ℝ} {w : F64} (ha : RoundsTo a w) (hb : RoundsTo b w) (hav : a ≤ v)
    (hvb : v ≤ b) (hw : isFinite w = false) : (overflowUnits : ℝ) ≤ |v| * 2 ^ 1074 ∧ (a < 0 ↔ v < 0) := by
  have hunit : (0 : ℝ) < 2 ^ 1074 := by positivity
  obtain hneg | hpos := lt_or_ge a 0
  · have hb0 : b < 0 := by
      by_contra hnot
      obtain rfl | hb0 := (not_lt.mp hnot).eq_or_lt
      · have := hb.overflowUnits_le hw
        rw [abs_zero, zero_mul] at this
        exact overflowUnits_pos.not_ge this
      · exact Bool.noConfusion ((ha.negative hneg).symm.trans (hb.positive hb0))
    refine ⟨(hb.overflowUnits_le hw).trans ?_, iff_of_true hneg (hvb.trans_lt hb0)⟩
    rw [abs_of_neg hb0, abs_of_neg (hvb.trans_lt hb0)]
    exact mul_le_mul_of_nonneg_right (neg_le_neg hvb) hunit.le
  · refine ⟨(ha.overflowUnits_le hw).trans ?_, iff_of_false hpos.not_gt (hpos.trans hav).not_gt⟩
    rw [abs_of_nonneg hpos, abs_of_nonneg (hpos.trans hav)]
    exact mul_le_mul_of_nonneg_right hav hunit.le

/-- A real between two reals that round to one word rounds to that word. -/
theorem RoundsTo.of_between {a b v : ℝ} {w : F64} (ha : RoundsTo a w) (hb : RoundsTo b w) (hav : a ≤ v) (hvb : v ≤ b) :
    RoundsTo v w := by
  have hunit : (0 : ℝ) < 2 ^ 1074 := by positivity
  have hav' := mul_le_mul_of_nonneg_right hav hunit.le
  have hvb' := mul_le_mul_of_nonneg_right hvb hunit.le
  have hfin : isFinite w = true ↔ |v| * 2 ^ 1074 < overflowUnits := by
    refine ⟨fun hw => ?_, fun hlt => ?_⟩
    · obtain hle | hle := le_max_iff.mp (abs_le_max_abs_abs hav hvb)
      · exact (mul_le_mul_of_nonneg_right hle hunit.le).trans_lt (ha.finite.mp hw)
      · exact (mul_le_mul_of_nonneg_right hle hunit.le).trans_lt (hb.finite.mp hw)
    · by_contra hw
      exact hlt.not_ge (overflowUnits_le_of_between ha hb hav hvb (Bool.not_eq_true _ ▸ hw)).1
  refine ⟨ha.notNaN, hfin, fun hover => ?_, fun hw => ⟨hw, fun y hy => ?_⟩, fun hw y hy hne htie => ?_,
    fun hneg => ha.negative (hav.trans_lt hneg), fun hpos => hb.positive (hpos.trans_le hvb)⟩
  · have hw : isFinite w = false := Bool.eq_false_iff.mpr fun hw => (hfin.mp hw).not_ge hover
    have hword := ha.overflow (ha.overflowUnits_le hw)
    simpa only [(overflowUnits_le_of_between ha hb hav hvb hw).2] using hword
  · have hnear_a := (ha.nearest hw).2 y hy
    have hnear_b := (hb.nearest hw).2 y hy
    obtain hlt | heq | hlt := lt_trichotomy (value w : ℝ) (value y)
    · rw [abs_sub_le_abs_sub_iff hlt] at hnear_b ⊢
      exact (mul_le_mul_of_nonneg_left hvb' zero_le_two).trans hnear_b
    · rw [heq]
    · rw [abs_sub_le_abs_sub_iff' hlt] at hnear_a ⊢
      exact hnear_a.trans (mul_le_mul_of_nonneg_left hav' zero_le_two)
  · have hnear_a := (ha.nearest hw).2 y hy
    have hnear_b := (hb.nearest hw).2 y hy
    obtain hlt | heq | hlt := lt_trichotomy (value w : ℝ) (value y)
    · have hhalf := abs_eq_abs.mp htie
      rw [abs_sub_le_abs_sub_iff hlt] at hnear_b
      have hend : b * 2 ^ 1074 = v * 2 ^ 1074 := by
        generalize v * 2 ^ 1074 = u at hhalf hvb' ⊢
        generalize b * 2 ^ 1074 = z at hnear_b hvb' ⊢
        obtain h | h := hhalf <;> linarith only [h, hlt, hnear_b, hvb']
      exact hb.even hw y hy hne (by rw [hend]; exact htie)
    · exact absurd (by exact_mod_cast heq.symm) hne
    · have hhalf := abs_eq_abs.mp htie
      rw [abs_sub_le_abs_sub_iff' hlt] at hnear_a
      have hend : a * 2 ^ 1074 = v * 2 ^ 1074 := by
        generalize v * 2 ^ 1074 = u at hhalf hav' ⊢
        generalize a * 2 ^ 1074 = z at hnear_a hav' ⊢
        obtain h | h := hhalf <;> linarith only [h, hlt, hnear_a, hav']
      exact ha.even hw y hy hne (by rw [hend]; exact htie)

/-! ### Settled enclosures -/

/-- `rne` is the exact quotient rounded once (rule R13). -/
theorem roundsTo_rne (num : ℤ) {den : ℕ} (hden : 0 < den) : RoundsTo ((num : ℝ) / den) (rne num den) := by
  have hden' : (0 : ℝ) < den := by exact_mod_cast hden
  refine roundsTo_roundUnits hden ?_ (fun h => ?_) fun h => ?_
  · rw [abs_div, abs_of_pos hden', Nat.cast_mul, oneUnits_cast, Nat.cast_natAbs, Int.cast_abs, div_mul_eq_mul_div]
  · rw [div_lt_iff₀ hden', zero_mul] at h
    exact decide_eq_true (by exact_mod_cast h)
  · rw [div_pos_iff_of_pos_right hden'] at h
    exact decide_eq_false (by exact_mod_cast h.not_gt)

/-- The word of a settled enclosure is both its ends rounded. -/
theorem settled_eq_some_iff {e : Machine.Enclosure} {w : F64} :
    e.settled = some w ↔ rne e.lo e.den = w ∧ rne e.hi e.den = w := by
  simp only [Machine.Enclosure.settled]
  split
  · next h => simp [h]
  · next h => simpa using fun hlo hhi => h (hhi.trans hlo.symm)

/-- The word of a settled enclosure is every real the enclosure holds, rounded once. -/
theorem roundsTo_of_settled {e : Machine.Enclosure} {v : ℝ} {w : F64} (h : Encloses e v) (hw : e.settled = some w) :
    RoundsTo v w := by
  obtain ⟨hden, hlo, hhi⟩ := h
  obtain ⟨hwlo, hwhi⟩ := settled_eq_some_iff.mp hw
  have hden' : 0 < e.den := by exact_mod_cast hden
  exact (hwlo ▸ roundsTo_rne e.lo hden').of_between (hwhi ▸ roundsTo_rne e.hi hden') ((div_le_iff₀ hden).mpr hlo)
    ((le_div_iff₀ hden).mpr hhi)

/-- Where one of the precisions settles, the answer is the exact value rounded once. -/
theorem roundsTo_settle {f : ℕ → Machine.Enclosure} {v : ℝ} {p : ℕ} {ps : List ℕ} (hf : ∀ q ∈ p :: ps, Encloses (f q) v)
    (hs : ∃ q ∈ p :: ps, (f q).settled.isSome = true) : RoundsTo v (Machine.settle f p ps) := by
  induction ps generalizing p with
  | nil =>
    obtain ⟨q, hq, hsome⟩ := hs
    obtain rfl : q = p := by simpa using hq
    obtain ⟨w, hw⟩ := Option.isSome_iff_exists.mp hsome
    rw [Machine.settle, (settled_eq_some_iff.mp hw).1]
    exact roundsTo_of_settled (hf q hq) hw
  | cons p' ps ih =>
    rw [Machine.settle]
    split
    · next w hw => exact roundsTo_of_settled (hf p (by simp)) hw
    · next hnone =>
      refine ih (fun q hq => hf q (List.mem_cons_of_mem p hq)) ?_
      obtain ⟨q, hq, hsome⟩ := hs
      obtain rfl | hq := List.mem_cons.mp hq
      · simp [hnone] at hsome
      · exact ⟨q, hq, hsome⟩

/-- Settled or not, the answer is the lower end of one of the enclosures, rounded. -/
theorem exists_settle_eq_rne (f : ℕ → Machine.Enclosure) (p : ℕ) (ps : List ℕ) :
    ∃ q, Machine.settle f p ps = rne (f q).lo (f q).den := by
  induction ps generalizing p with
  | nil => exact ⟨p, rfl⟩
  | cons p' ps ih =>
    rw [Machine.settle]
    split
    · next w hw => exact ⟨p, (settled_eq_some_iff.mp hw).1.symm⟩
    · exact ih p'

theorem exists_correctlyRounded_eq_rne (f : ℕ → Machine.Enclosure) :
    ∃ q, Machine.correctlyRounded f = rne (f q).lo (f q).den :=
  exists_settle_eq_rne f 192 [384, 768, 1536]

theorem sign_rne (num : ℤ) (den : ℕ) : sign (rne num den) = decide (num < 0) :=
  sign_ofSignMag _ _ (roundUnits_lt _ _)

/-- The quotient of a whole number between −b·den and b·den stays within b, for a finite magnitude b. -/
theorem mag_rne_le {num : ℤ} {den b m : ℕ} (hden : 0 < den) (hm : m < infBits) (hb : magUnits m = b * oneUnits)
    (h : |num| ≤ b * den) : mag (rne num den) ≤ m := by
  have hden' : (0 : ℝ) < den := by exact_mod_cast hden
  refine (roundsTo_rne num hden).mag_le hm ?_
  have h' : |(num : ℝ)| ≤ b * den := by exact_mod_cast h
  rw [hb, Nat.cast_mul, oneUnits_cast, abs_div, abs_of_pos hden']
  exact mul_le_mul_of_nonneg_right ((div_le_iff₀ hden').mpr h') (by positivity)

end Sys2Proof.Safety

namespace Sys2Proof.Machine

open Sys2Proof.F64 Sys2Proof.Safety

/-! ### The named properties -/

/-- A non-negative value is at least +0. -/
theorem le_zero_of_sign {x : F64} (hnan : isNaN x = false) (hsign : sign x = false) : le 0#64 x = true :=
  (le_eq_true_iff _ _).mpr ⟨by decide, hnan, (show key 0#64 = 0 by decide) ▸ key_nonneg_of_sign hsign⟩

/-- EXP10 is the lower end of an enclosure of a power of ten, which is not negative. -/
theorem exp10NonNegative_referenceMath : Exp10NonNegative referenceMath := by
  intro x hx
  have hword : ∀ w : F64, isNaN w = false → sign w = false → isNaN w = false ∧ le 0#64 w = true :=
    fun w hnan hsign => ⟨hnan, le_zero_of_sign hnan hsign⟩
  simp only [referenceMath, exp10, hx, Bool.false_eq_true, if_false]
  split
  · split <;> exact hword _ (by decide) (by decide)
  · split
    · exact hword _ (by decide) (by decide)
    · split
      · exact hword _ (by decide) (by decide)
      · obtain ⟨q, hq⟩ := exists_correctlyRounded_eq_rne (exp10Enclosure (value x))
        have hlo : 0 ≤ (exp10Enclosure (value x) q).lo := by
          simp only [exp10Enclosure]
          split <;> positivity
        rw [hq]
        refine hword _ (isNaN_rne _ _) ?_
        rw [sign_rne]
        exact decide_eq_false hlo.not_gt

/-- A whole number that is not positive does not round above 0. -/
theorem key_rne_nonpos {num : ℤ} {den : ℕ} (hden : 0 < den) (h : num ≤ 0) : key (rne num den) ≤ 0 := by
  obtain rfl | hneg := h.eq_or_lt
  · rw [rne, Int.natAbs_zero, Nat.zero_mul, roundUnits_zero hden]
    decide
  · simp [key, sign_rne, hneg]

/-- The words within a bound below the infinity are those between its two signs. -/
theorem le_and_le_of_mag_le {x : F64} {m : ℕ} (hm : m < infBits) (h : mag x ≤ m) :
    le (ofSignMag true m) x = true ∧ le x (ofSignMag false m) = true := by
  have hlt : m < 2 ^ 63 := hm.trans infBits_lt
  have hx : |key x| ≤ m := by rw [abs_key]; exact_mod_cast h
  have hnan : isNaN x = false := decide_eq_false (by omega)
  have hnan' (s : Bool) : isNaN (ofSignMag s m) = false := decide_eq_false (by rw [mag_ofSignMag s m hlt]; omega)
  obtain ⟨hlo, hhi⟩ := abs_le.mp hx
  exact ⟨(le_eq_true_iff _ _).mpr ⟨hnan' true, hnan, by rwa [key_ofSignMag true hlt]⟩,
    (le_eq_true_iff _ _).mpr ⟨hnan, hnan' false, by rwa [key_ofSignMag false hlt]⟩⟩

/-- On 0 < x < 1 LN is computed from its enclosure. -/
theorem ln_of_lt_one {x : F64} (hpos : lt 0#64 x = true) (hlt : lt x one = true) :
    ln x = correctlyRounded (lnEnclosure (units x)) := by
  obtain ⟨_, _, hkey⟩ := (lt_eq_true_iff _ _).mp hpos
  rw [show key 0#64 = 0 by decide] at hkey
  have hsign : sign x = false := by
    by_contra hs
    rw [key, if_pos (by simpa using hs)] at hkey
    omega
  have hzero : isZero x = false := by
    rw [key, if_neg (by simp [hsign])] at hkey
    exact decide_eq_false (by omega)
  simp [ln, hsign, hzero, hlt]

/-- LN is the lower end of an enclosure that keeps within [−745, 0]. -/
theorem lnBounded_referenceMath : LnBounded referenceMath := by
  intro x hpos hlt
  obtain ⟨q, hq⟩ := exists_correctlyRounded_eq_rne (lnEnclosure (units x))
  have hln : referenceMath.ln x = rne (lnEnclosure (units x) q).lo (2 ^ q) := (ln_of_lt_one hpos hlt).trans hq
  obtain ⟨k, hk, hlo⟩ : ∃ k : ℕ, k ≤ 745 * 2 ^ q ∧ (lnEnclosure (units x) q).lo = -(k : ℤ) := ⟨_, min_le_right _ _, rfl⟩
  have hden : 0 < 2 ^ q := Nat.two_pow_pos q
  rw [hln, hlo]
  have hmag : mag (rne (-(k : ℤ)) (2 ^ q)) ≤ 0x4087480000000000 :=
    mag_rne_le (b := 745) hden (by decide) (by decide +kernel) (by rw [abs_neg, Nat.abs_cast]; exact_mod_cast hk)
  exact ⟨(le_eq_true_iff _ _).mpr ⟨isNaN_rne _ _, by decide, key_rne_nonpos hden (by omega)⟩,
    (le_and_le_of_mag_le (by decide) hmag).1⟩

/-- The enclosures of COS and SIN keep within [−1, 1]. -/
theorem unitEnclosure_bound (p : ℕ) (a b : Ivl) :
    (unitEnclosure p a b).den = 2 ^ p ∧ |(unitEnclosure p a b).lo| ≤ 2 ^ p := by
  have hpow : (0 : ℤ) < 2 ^ p := by positivity
  refine ⟨rfl, abs_le.mpr ⟨le_max_left _ _, max_le (by linarith) (min_le_left _ _)⟩⟩

theorem anyUnitEnclosure_bound (p : ℕ) :
    (anyUnitEnclosure p).den = 2 ^ p ∧ |(anyUnitEnclosure p).lo| ≤ 2 ^ p := by
  refine ⟨rfl, ?_⟩
  rw [anyUnitEnclosure, abs_neg, abs_of_pos (by positivity)]

theorem cosEnclosure_bound (u p : ℕ) : (cosEnclosure u p).den = 2 ^ p ∧ |(cosEnclosure u p).lo| ≤ 2 ^ p := by
  simp only [cosEnclosure]
  split
  · exact unitEnclosure_bound _ _ _
  · exact anyUnitEnclosure_bound p

theorem sinEnclosure_bound (u p : ℕ) : (sinEnclosure u p).den = 2 ^ p ∧ |(sinEnclosure u p).lo| ≤ 2 ^ p := by
  simp only [sinEnclosure]
  split
  · exact unitEnclosure_bound _ _ _
  · exact anyUnitEnclosure_bound p

/-- An answer from enclosures within [−1, 1] is not above 1 in magnitude. -/
theorem mag_correctlyRounded_le {f : ℕ → Enclosure} (h : ∀ p, (f p).den = 2 ^ p ∧ |(f p).lo| ≤ 2 ^ p) :
    mag (correctlyRounded f) ≤ mag one := by
  obtain ⟨q, hq⟩ := exists_correctlyRounded_eq_rne f
  obtain ⟨hden, hlo⟩ := h q
  rw [hq, hden]
  exact mag_rne_le (b := 1) (Nat.two_pow_pos q) (by decide) (by decide +kernel) (by push_cast; rwa [one_mul])

theorem mag_cos_le {x : F64} (h : isFinite x = true) : mag (cos x) ≤ mag one := by
  simp only [cos, h, Bool.not_true, Bool.false_eq_true, if_false]
  split
  · exact le_rfl
  · exact mag_correctlyRounded_le (cosEnclosure_bound (units x))

theorem mag_sin_le {x : F64} (h : isFinite x = true) : mag (sin x) ≤ mag one := by
  have hsin := mag_correctlyRounded_le (sinEnclosure_bound (units x))
  simp only [sin, h, Bool.not_true, Bool.false_eq_true, if_false]
  split
  · decide
  · split
    · rwa [mag_neg]
    · exact hsin

theorem trigBounded_referenceMath : TrigBounded referenceMath := by
  refine ⟨fun x hx => ?_, by decide, by decide⟩
  obtain ⟨hclo, hchi⟩ := le_and_le_of_mag_le (by decide) (mag_cos_le hx)
  obtain ⟨hslo, hshi⟩ := le_and_le_of_mag_le (by decide) (mag_sin_le hx)
  exact ⟨hclo, hchi, hslo, hshi⟩

/-- The whole exponents are enclosed exactly (rule R14). -/
theorem exp10_ofNat : ∀ n ≤ 22, exp10 (F64.ofNat n) = F64.ofNat (10 ^ n) := by decide +kernel

/-- Settles O60: the named properties of the four functions hold of the enclosures' lower ends, and the whole exponents
are computed. -/
theorem referenceFunctionsHaveTheNamedProperties : Obligations.ReferenceFunctionsHaveTheNamedProperties := by
  unfold Obligations.ReferenceFunctionsHaveTheNamedProperties
  exact ⟨exp10NonNegative_referenceMath, lnBounded_referenceMath, trigBounded_referenceMath, exp10_ofNat, by decide, by decide⟩

end Sys2Proof.Machine
end

section
/-! PROOFS. The noise of the channel (rules R27, R96, R97): that the noise registers and the noisy sample are always finite,
and what noise alone is. -/

-- In turn, not side by side: each kernel evaluation waits in a thread of its own for all before it to be checked.
set_option Elab.async false

namespace Sys2Proof.F64

open Sys2Proof.Safety

/-! ### Exact results -/

/-- A finite magnitude is not changed by rounding. -/
theorem roundUnits_units {x : F64} (h : isFinite x = true) : roundUnits (units x) 1 = mag x := by
  obtain ⟨m, hm, hround⟩ := exists_roundsMag_roundUnits (units x) one_pos
  have hnear := (hround.nearest (mag x)).1
  rw [Nat.cast_one, div_one, ← units_eq_magUnits, sub_self, abs_zero, abs_nonpos_iff, sub_eq_zero, Nat.cast_inj,
    units_eq_magUnits] at hnear
  rw [hm, magUnits_strictMono.injective hnear]
  exact min_eq_left (of_decide_eq_true h).le

/-- Adding to +0 changes nothing but a −0, which becomes +0 (rule R97). -/
theorem zero_add_of_isFinite {t : F64} (h : isFinite t = true) : add 0#64 t = if isZero t then 0#64 else t := by
  have hzero : value 0#64 = 0 := by decide
  rw [add_of_isFinite (by decide) h, hzero, zero_add]
  simp only [value_eq_zero_iff]
  split
  · rfl
  · next hne =>
    have hsign : decide (value t < 0) = sign t := by
      rw [← value_eq_zero_iff] at hne
      cases hs : sign t
      · exact decide_eq_false (value_nonneg_of_sign hs).not_gt
      · exact decide_eq_true (lt_of_le_of_ne (value_nonpos_of_sign hs) hne)
    rw [hsign, natAbs_value, roundUnits_units h, ofSignMag_sign_mag]

/-! ### Bounds of results -/

theorem isFinite_of_mag_le {x : F64} {m : ℕ} (hm : m < infBits) (h : mag x ≤ m) : isFinite x = true :=
  decide_eq_true (by omega)

theorem units_le_of_mag_le {x : F64} {m : ℕ} (h : mag x ≤ m) : units x ≤ magUnits m :=
  magUnits_strictMono.monotone h

/-- A value between two words of opposite sign is within their magnitude. -/
theorem mag_le_of_le_of_le {x lo hi : F64} {m : ℕ} (hlo : key lo = -(m : ℤ)) (hhi : key hi = m)
    (h : le lo x = true) (h' : le x hi = true) : mag x ≤ m := by
  obtain ⟨_, _, hl⟩ := (le_eq_true_iff _ _).mp h
  obtain ⟨_, _, hu⟩ := (le_eq_true_iff _ _).mp h'
  have habs : |key x| ≤ m := abs_le.mpr ⟨hlo ▸ hl, hhi ▸ hu⟩
  rw [abs_key] at habs
  exact_mod_cast habs

/-- A product, in units of 2^-1074. -/
theorem abs_mul_value (a b : F64) :
    |((value a : ℝ) / 2 ^ 1074) * ((value b : ℝ) / 2 ^ 1074)| * 2 ^ 1074 = ((units a * units b : ℕ) : ℝ) / oneUnits := by
  have hunit : (0 : ℝ) < 2 ^ 1074 := by positivity
  rw [abs_mul, abs_div, abs_div, abs_value_cast, abs_value_cast, abs_of_pos hunit, mul_assoc, div_mul_cancel₀ _ hunit.ne',
    div_mul_eq_mul_div, Nat.cast_mul, oneUnits_cast]

theorem mag_mul_le {a b : F64} {m : ℕ} (ha : isFinite a = true) (hb : isFinite b = true) (hm : m < infBits)
    (h : units a * units b ≤ magUnits m * oneUnits) : mag (mul a b) ≤ m := by
  refine (roundsTo_mul ha hb).mag_le hm ?_
  rw [abs_mul_value, div_le_iff₀ (by exact_mod_cast oneUnits_pos)]
  exact_mod_cast h

theorem mag_sqrt_le {a : F64} {m : ℕ} (ha : isFinite a = true) (hsign : sign a = false) (hm : m < infBits)
    (h : 4 * (units a * oneUnits) < (magUnits m + magUnits (m + 1)) ^ 2) : mag (sqrt a) ≤ m := by
  have hpos : 0 < magUnits m + magUnits (m + 1) := by
    have := magUnits_strictMono (Nat.lt_add_one m)
    omega
  refine (roundsTo_sqrt ha hsign).mag_le_of_lt_half hm ?_
  rw [abs_sqrt_value_mul hsign, two_mul_sqrt, ← Nat.cast_add, Real.sqrt_lt' (by exact_mod_cast hpos)]
  exact_mod_cast h

/-- The root of a finite value of sign 0 is finite, of sign 0. -/
theorem sqrt_isFinite {a : F64} (ha : isFinite a = true) (hsign : sign a = false) :
    isFinite (sqrt a) = true ∧ sign (sqrt a) = false := by
  refine ⟨(roundsTo_sqrt ha hsign).finite.mpr ?_, ?_⟩
  · rw [abs_sqrt_value_mul hsign]
    exact sqrt_units_lt_overflowUnits ha
  · cases hzero : isZero a with
    | true => rwa [sqrt_of_isZero hzero]
    | false =>
      have hvalue : value a ≠ 0 := by
        rw [Ne, value_eq_zero_iff, hzero]
        decide
      have hpos : (0 : ℝ) < value a := by
        exact_mod_cast lt_of_le_of_ne (value_nonneg_of_sign hsign) hvalue.symm
      exact (roundsTo_sqrt ha hsign).positive (Real.sqrt_pos.mpr (by positivity))

end Sys2Proof.F64

namespace Sys2Proof.Machine

open Sys2Proof.F64 Sys2Proof.Safety

/-! ### Noise alone -/

/-- With NSD not zero the sample is the input plus the two terms (rule R96). -/
theorem noisySample_of_not_isZero (m : Config.MathLib) (u1Floor : F64) {nsd : F64} (d : Draw) (r : Sample)
    (h : isZero nsd = false) :
    noisySample m u1Floor nsd d r
      = ⟨add r.i (mul nsd (boxMuller m u1Floor d).i), add r.q (mul nsd (boxMuller m u1Floor d).q)⟩ := by
  simp [noisySample, h, Sample.add]

/-- Settles O52: without noise the sample is unchanged, and with noise each term is added to +0 (`zero_add_of_isFinite`). -/
theorem noiseAloneIsScaledNormalPair : Obligations.NoiseAloneIsScaledNormalPair := by
  unfold Obligations.NoiseAloneIsScaledNormalPair
  rintro m u1Floor nsd tI tQ d rfl rfl hI hQ
  refine ⟨noisySample_of_isZero m u1Floor d _, fun h => ?_⟩
  rw [noisySample_of_not_isZero m u1Floor d _ h, zero_add_of_isFinite hI, zero_add_of_isFinite hQ]

/-! ### The noise registers -/

theorem units_two : units two = 2 * oneUnits := by decide +kernel

theorem units_one : units one = oneUnits := by decide +kernel

/-- Halving does not raise a magnitude. -/
theorem div_two {x : F64} (hx : isFinite x = true) (hsign : sign x = false) :
    RoundsTo ((value x : ℝ) / value two) (div x two) ∧ |(value x : ℝ) / value two| * 2 ^ 1074 = units x / 2 ∧
      sign (div x two) = false := by
  have hunit : (0 : ℝ) < 2 ^ 1074 := by positivity
  refine ⟨roundsTo_div hx (by decide) (by decide), ?_, ?_⟩
  · rw [abs_div, abs_value_cast, abs_value_cast, units_two, Nat.cast_mul, oneUnits_cast, div_mul_eq_mul_div,
      mul_div_mul_right _ _ hunit.ne', Nat.cast_ofNat]
  · rw [div_of_isFinite hx (by decide) (by decide), sign_ofSignMag _ _ (roundUnits_lt _ _), hsign]
    decide

/-- A noise variance that is finite and of sign 0 has such a deviation (rule R26). -/
theorem nsd_isFinite {nvar : F64} (hfin : isFinite nvar = true) (hsign : sign nvar = false) :
    isFinite (sqrt (div nvar two)) = true ∧ sign (sqrt (div nvar two)) = false := by
  obtain ⟨hround, hhalf, hsign'⟩ := div_two hfin hsign
  refine sqrt_isFinite (isFinite_of_mag_le (of_decide_eq_true hfin) (hround.mag_le (of_decide_eq_true hfin) ?_)) hsign'
  rw [hhalf, ← units_eq_magUnits]
  exact half_le_self (Nat.cast_nonneg _)

/-- A quotient by ten of a value that is no NaN is no NaN (rule R17). -/
theorem isNaN_div_ten {x : F64} (h : isNaN x = false) : isNaN (div x ten) = false := by
  obtain hfin | hinf := isFinite_or_isInf h
  · exact (roundsTo_div hfin (by decide) (by decide)).notNaN
  · have hten : isNaN ten = false ∧ isInf ten = false := by decide
    simp [div, h, hinf, hten, isNaN_ofSignMag_infBits]

/-- A linear Eb/N0 whose BPSK variance is finite is above 0 (rules R14, R81). -/
theorem sign_isZero_of_accepted {lin : F64} (hnan : isNaN lin = false) (hle : le 0#64 lin = true)
    (hfin : isFinite (div one lin) = true) : sign lin = false ∧ isZero lin = false := by
  have hzero : isZero lin = false := by
    by_contra hz
    have hone : isNaN one = false ∧ isInf one = false ∧ isZero one = false := by decide
    have hnotinf : isInf lin = false := by
      by_contra hinf
      exact hz (isZero_eq_false_of_isInf (by simpa using hinf))
    simp only [div, hone, hnan, hnotinf, Bool.not_eq_false _ ▸ hz, Bool.or_false, Bool.false_eq_true, if_false, if_true] at hfin
    have hinf : ∀ s, isFinite (ofSignMag s infBits) = false := by decide
    rw [hinf] at hfin
    cases hfin
  refine ⟨?_, hzero⟩
  obtain ⟨_, _, hkey⟩ := (le_eq_true_iff _ _).mp hle
  rw [show key 0#64 = 0 by decide] at hkey
  by_contra hs
  rw [key, if_pos (by simpa using hs)] at hkey
  rw [isZero, decide_eq_false_iff_not] at hzero
  omega

/-- f64(k) of each width is exact, and at least 1 (rule R26). -/
theorem ofNat_bpsRead (sch : Scheme) : isFinite (F64.ofNat (bpsRead sch).toNat) = true ∧
    sign (F64.ofNat (bpsRead sch).toNat) = false ∧ oneUnits ≤ units (F64.ofNat (bpsRead sch).toNat) ∧
    mul posInf (F64.ofNat (bpsRead sch).toNat) = posInf := by
  cases sch <;> decide +kernel

/-- The value of sign 0 that is no NaN and not finite. -/
theorem eq_posInf_of_isInf {x : F64} (hinf : isInf x = true) (hsign : sign x = false) : x = posInf := by
  rw [← ofSignMag_sign_mag x, hsign, of_decide_eq_true hinf]
  decide

/-- Of Es/N0 as a positive power ratio, no smaller than one whose reciprocal is finite: the variance is finite, of sign 0,
and 0 only for +∞ (rules R26, R27). -/
theorem nvar_of_es {es lin : F64} (hnan : isNaN es = false) (hsign : sign es = false) (hlin : isFinite lin = true)
    (hzero : isZero lin = false) (hle : mag lin ≤ mag es) (hfin : isFinite (div one lin) = true) :
    isFinite (div one es) = true ∧ sign (div one es) = false ∧ (div one es = 0#64 ↔ es = posInf) := by
  obtain hes | hes := isFinite_or_isInf hnan
  · have hunit : (0 : ℝ) < 2 ^ 1074 := by positivity
    have hlin0 : 0 < units lin := Nat.pos_of_ne_zero fun h => by simp [units_eq_zero_iff.mp h] at hzero
    have hunits : units lin ≤ units es := magUnits_strictMono.monotone hle
    have hes0 : isZero es = false := by
      rw [← Bool.not_eq_true, ← units_eq_zero_iff]
      omega
    have habs (x : F64) : |(value one : ℝ) / value x| = 2 ^ 1074 / units x := by
      rw [abs_div, abs_value_cast, abs_value_cast, units_one, oneUnits_cast]
    have hround := roundsTo_div (a := one) (by decide) hes hes0
    have hpos : 1 ≤ mag (div one es) := by
      refine hround.le_mag (by decide) ?_
      have hbound : ((units es : ℕ) : ℝ) ≤ 2 ^ 1074 * 2 ^ 1074 := by
        have := units_lt_of_isFinite hes
        calc ((units es : ℕ) : ℝ) ≤ (2 ^ 53 * 2 ^ 2045 : ℕ) := by exact_mod_cast this.le
          _ = 2 ^ (53 + 2045) := by rw [← pow_add, Nat.cast_pow, Nat.cast_ofNat]
          _ ≤ 2 ^ (1074 + 1074) := pow_le_pow_right₀ one_le_two (by norm_num)
          _ = _ := pow_add 2 1074 1074
      rw [habs, show magUnits 1 = 1 by decide, Nat.cast_one, div_mul_eq_mul_div, le_div_iff₀ (by exact_mod_cast hlin0.trans_le hunits), one_mul]
      exact hbound
    refine ⟨?_, ?_, iff_of_false (fun h => ?_) fun h => ?_⟩
    · have hlin' := (roundsTo_div (a := one) (by decide) hlin hzero).finite.mp hfin
      refine hround.finite.mpr (lt_of_le_of_lt (mul_le_mul_of_nonneg_right ?_ hunit.le) hlin')
      rw [habs, habs]
      exact div_le_div_of_nonneg_left hunit.le (by exact_mod_cast hlin0) (by exact_mod_cast hunits)
    · rw [div_of_isFinite (by decide) hes hes0, sign_ofSignMag _ _ (roundUnits_lt _ _), hsign]
      decide
    · rw [h] at hpos
      exact absurd hpos (by decide)
    · rw [h] at hes
      exact absurd hes (by decide)
  · rw [eq_posInf_of_isInf hes hsign]
    decide

/-- Settles O50: Es/N0 is Eb/N0 times a width of at least 1, so its reciprocal is as finite as that of Eb/N0
(`nvar_of_es`), and the deviation follows (`nsd_isFinite`). -/
theorem noiseVarianceIsAlwaysFinite : Obligations.NoiseVarianceIsAlwaysFinite := by
  unfold Obligations.NoiseVarianceIsAlwaysFinite
  intro m x sch hexp hacc
  simp only [snrAccepted, Bool.and_eq_true, Bool.not_eq_true', dbToLinear] at hacc
  obtain ⟨hx, hfin⟩ := hacc
  obtain ⟨hnan, hle⟩ := hexp _ (isNaN_div_ten hx)
  obtain ⟨hsign, hzero⟩ := sign_isZero_of_accepted hnan hle hfin
  obtain ⟨hk, hksign, hk1, hkinf⟩ := ofNat_bpsRead sch
  simp only [derive, dbToLinear]
  set lin := m.exp10 (div x ten)
  set k := F64.ofNat (bpsRead sch).toNat
  have hnvar : isFinite (div one (mul lin k)) = true ∧ sign (div one (mul lin k)) = false ∧
      (div one (mul lin k) = 0#64 ↔ mul lin k = posInf) := by
    obtain hlin | hinf := isFinite_or_isInf hnan
    · have hround := roundsTo_mul hlin hk
      refine nvar_of_es hround.notNaN ?_ hlin hzero ?_ hfin
      · rw [mul_of_isFinite hlin hk, sign_ofSignMag _ _ (roundUnits_lt _ _), hsign, hksign]
        rfl
      · refine hround.le_mag (of_decide_eq_true hlin) ?_
        rw [abs_mul_value, le_div_iff₀ (by exact_mod_cast oneUnits_pos), ← units_eq_magUnits]
        exact_mod_cast Nat.mul_le_mul_left _ hk1
    · rw [eq_posInf_of_isInf hinf hsign, hkinf]
      decide
  obtain ⟨hnfin, hnsign, hiff⟩ := hnvar
  obtain ⟨hsfin, hssign⟩ := nsd_isFinite hnfin hnsign
  exact ⟨hnfin, hnsign, hsfin, hssign, hiff⟩

end Sys2Proof.Machine
end

section
/-! PROOFS. The bounds of the noisy sample (rules R94, R96): a radius of at most 39, so noise far below the overflow
threshold. -/

-- In turn, not side by side: each kernel evaluation waits in a thread of its own for all before it to be checked.
set_option Elab.async false

namespace Sys2Proof.Machine

open Sys2Proof.F64 Sys2Proof.Safety

/-! ### The Box-Muller values -/

/-- The floored uniform lies in (0, 1) (rule R94). -/
theorem flooredU1_mem {u1Floor u1 : F64} (hpos : lt 0#64 u1Floor = true) (hlt : lt u1Floor one = true)
    (hu : uniformOk u1 = true) :
    lt 0#64 (flooredU1 u1Floor u1) = true ∧ lt (flooredU1 u1Floor u1) one = true := by
  obtain ⟨_, hu1⟩ : le 0#64 u1 = true ∧ lt u1 one = true := by simpa [uniformOk] using hu
  rw [flooredU1]
  split
  · exact ⟨hpos, hlt⟩
  · next hnot =>
    obtain ⟨hzero, hfloor, hkey⟩ := (lt_eq_true_iff _ _).mp hpos
    obtain ⟨hnan, _, _⟩ := (lt_eq_true_iff _ _).mp hu1
    have hle : key u1Floor ≤ key u1 := not_lt.mp fun h => hnot ((lt_eq_true_iff _ _).mpr ⟨hnan, hfloor, h⟩)
    exact ⟨(lt_eq_true_iff _ _).mpr ⟨hzero, hnan, hkey.trans_le hle⟩, hu1⟩

/-- The magnitude bits of 39.0, the bound of the radius: 39² = 1521 is above −2 · −745. -/
def magThirtyNine : ℕ := 0x4043800000000000

theorem magUnits_magThirtyNine :
    magUnits magThirtyNine = 39 * oneUnits ∧ magUnits 0x4087480000000000 = 745 * oneUnits ∧
      magUnits 0x4097480000000000 = 1490 * oneUnits := by
  decide +kernel

/-- The radius is at most 39 (rules R14, R94). -/
theorem mag_radius_le {m : Config.MathLib} (hm : LnBounded m) {v1 : F64} (hpos : lt 0#64 v1 = true)
    (hlt : lt v1 one = true) : mag (radius m v1) ≤ magThirtyNine := by
  obtain ⟨h39, h745, h1490⟩ := magUnits_magThirtyNine
  obtain ⟨hle, hge⟩ := hm v1 hpos hlt
  obtain ⟨_, _, hkey⟩ := (le_eq_true_iff _ _).mp hle
  obtain ⟨_, _, hkey'⟩ := (le_eq_true_iff _ _).mp hge
  rw [show key 0#64 = 0 by decide] at hkey
  rw [show key 0xC087480000000000#64 = -(0x4087480000000000 : ℕ) by decide] at hkey'
  have hmag : mag (m.ln v1) ≤ 0x4087480000000000 := by
    have := abs_key (m.ln v1)
    rw [abs_of_nonpos hkey] at this
    omega
  have hln : isFinite (m.ln v1) = true := isFinite_of_mag_le (by decide) hmag
  have hneg : isFinite negTwo = true ∧ sign negTwo = true ∧ units negTwo = 2 * oneUnits := by decide +kernel
  obtain ⟨hnfin, hnsign, hnunits⟩ := hneg
  have hprod : mag (mul negTwo (m.ln v1)) ≤ 0x4097480000000000 := by
    refine mag_mul_le hnfin hln (by decide) ?_
    have hunits := units_le_of_mag_le hmag
    rw [h745] at hunits
    rw [h1490, hnunits]
    calc 2 * oneUnits * units (m.ln v1) ≤ 2 * oneUnits * (745 * oneUnits) := Nat.mul_le_mul_left _ hunits
      _ = 1490 * oneUnits * oneUnits := by ring
  have hpfin : isFinite (mul negTwo (m.ln v1)) = true := isFinite_of_mag_le (by decide) hprod
  rw [radius]
  cases hzero : isZero (mul negTwo (m.ln v1)) with
  | true =>
    rw [sqrt_of_isZero hzero, of_decide_eq_true hzero]
    exact Nat.zero_le _
  | false =>
    have hlsign : sign (m.ln v1) = true := by
      by_contra h
      have hlzero : isZero (m.ln v1) = true := by
        rw [key, if_neg h] at hkey
        exact decide_eq_true (by omega)
      rw [mul_of_isZero hnfin hln (.inr hlzero)] at hzero
      have hz : ∀ s, isZero (ofSignMag s 0) = true := by decide
      rw [hz] at hzero
      cases hzero
    have hsign : sign (mul negTwo (m.ln v1)) = false := by
      rw [mul_of_isFinite hnfin hln, sign_ofSignMag _ _ (roundUnits_lt _ _), hnsign, hlsign]
      rfl
    refine mag_sqrt_le hpfin hsign (by decide) ?_
    have hunits := units_le_of_mag_le hprod
    rw [h1490] at hunits
    have hnext := magUnits_strictMono (Nat.lt_add_one magThirtyNine)
    have hone := oneUnits_pos
    rw [h39] at hnext ⊢
    generalize oneUnits = u, magUnits (magThirtyNine + 1) = next, units (mul negTwo (m.ln v1)) = prod
      at hunits hnext hone ⊢
    nlinarith

/-- The angle of a uniform is finite (rule R94). -/
theorem isFinite_angle {u : F64} (h : uniformOk u = true) : isFinite (mul twoPi u) = true := by
  obtain ⟨hle, hlt⟩ : le 0#64 u = true ∧ lt u one = true := by simpa [uniformOk] using h
  obtain ⟨_, _, hlo⟩ := (le_eq_true_iff _ _).mp hle
  obtain ⟨_, _, hhi⟩ := (lt_eq_true_iff _ _).mp hlt
  rw [show key 0#64 = 0 by decide] at hlo
  have hmag : mag u ≤ mag one := by
    have := abs_key u
    rw [abs_of_nonneg hlo] at this
    rw [show key one = mag one by decide] at hhi
    omega
  have hunits := units_le_of_mag_le hmag
  rw [← units_eq_magUnits, units_one] at hunits
  refine isFinite_of_mag_le (m := mag twoPi) (by decide)
    (mag_mul_le (by decide) (isFinite_of_mag_le (by decide) hmag) (by decide) ?_)
  rw [← units_eq_magUnits]
  exact Nat.mul_le_mul_left _ hunits

/-- A value between −1 and 1. -/
theorem mag_le_one {x : F64} (h : le 0xBFF0000000000000#64 x = true) (h' : le x one = true) : mag x ≤ mag one :=
  mag_le_of_le_of_le (by decide) (by decide) h h'

/-- A normal value of the Box-Muller pair is at most 39: the radius times a cosine or sine. -/
theorem mag_radius_mul_le {rad c : F64} (hrad : mag rad ≤ magThirtyNine) (hc : mag c ≤ mag one) :
    mag (mul rad c) ≤ magThirtyNine := by
  have hunits := units_le_of_mag_le hc
  rw [← units_eq_magUnits, units_one] at hunits
  exact mag_mul_le (isFinite_of_mag_le (by decide) hrad) (isFinite_of_mag_le (by decide) hc) (by decide)
    (Nat.mul_le_mul (units_le_of_mag_le hrad) hunits)

/-- Both normal values are at most 39 (rules R14, R94). -/
theorem mag_boxMuller_le {m : Config.MathLib} (hln : LnBounded m) (htrig : TrigBounded m) {u1Floor : F64}
    (hpos : lt 0#64 u1Floor = true) (hlt : lt u1Floor one = true) {d : Draw} (hd : d.ok = true) :
    mag (boxMuller m u1Floor d).i ≤ magThirtyNine ∧ mag (boxMuller m u1Floor d).q ≤ magThirtyNine := by
  obtain ⟨hu1, hu2⟩ : uniformOk d.u1 = true ∧ uniformOk d.u2 = true := by simpa [Draw.ok] using hd
  obtain ⟨hv1, hv1'⟩ := flooredU1_mem hpos hlt hu1
  have hrad := mag_radius_le hln hv1 hv1'
  obtain ⟨hclo, hchi, hslo, hshi⟩ := htrig.1 _ (isFinite_angle hu2)
  exact ⟨mag_radius_mul_le hrad (mag_le_one hclo hchi), mag_radius_mul_le hrad (mag_le_one hslo hshi)⟩

/-! ### The noisy sample -/

/-- SQRT(MAX ⊘ 2) (rule R96). -/
theorem sqrt_half_max : sqrt (div 0x7FEFFFFFFFFFFFFF#64 two) = 0x5FE6A09E667F3BCC#64 := by decide +kernel

/-- Noise from a deviation of at most SQRT(MAX ⊘ 2) is below 2^2044 units, half the step that takes MAX to an infinity. -/
theorem units_noise_lt {nsd z : F64} (hnsd : mag nsd ≤ 0x5FE6A09E667F3BCC) (hz : mag z ≤ magThirtyNine) :
    isFinite (mul nsd z) = true ∧ units (mul nsd z) < 2 ^ 2044 := by
  have hbounds : magUnits 0x5FE6A09E667F3BCC ≤ 2 ^ 512 * oneUnits ∧ magUnits 0x6050000000000000 = 2 ^ 518 * oneUnits ∧
      2 ^ 518 * oneUnits < 2 ^ 2044 := by decide +kernel
  obtain ⟨hS, hN, hlt⟩ := hbounds
  obtain ⟨h39, _, _⟩ := magUnits_magThirtyNine
  have hprod : mag (mul nsd z) ≤ 0x6050000000000000 := by
    refine mag_mul_le (isFinite_of_mag_le (by decide) hnsd) (isFinite_of_mag_le (by decide) hz) (by decide) ?_
    have hun := (units_le_of_mag_le hnsd).trans hS
    have huz := units_le_of_mag_le hz
    rw [h39] at huz
    rw [hN]
    calc units nsd * units z ≤ 2 ^ 512 * oneUnits * (39 * oneUnits) := Nat.mul_le_mul hun huz
      _ = 39 * 2 ^ 512 * oneUnits * oneUnits := by
        generalize 2 ^ 512 = t
        ring
      _ ≤ 2 ^ 518 * oneUnits * oneUnits := by
        rw [show 518 = 6 + 512 from rfl, pow_add]
        exact Nat.mul_le_mul_right _ (Nat.mul_le_mul_right _ (Nat.mul_le_mul_right _ (by decide)))
  refine ⟨isFinite_of_mag_le (by decide) hprod, ?_⟩
  exact (units_le_of_mag_le hprod).trans_lt (hN ▸ hlt)

/-- Adding that little to a finite value gives a finite value (rules R12, R96). -/
theorem isFinite_add_of_units_lt {x n : F64} (hx : isFinite x = true) (hn : isFinite n = true) (h : units n < 2 ^ 2044) :
    isFinite (add x n) = true := by
  have hunit : (0 : ℝ) < 2 ^ 1074 := by positivity
  refine (roundsTo_add hx hn).finite.mpr ?_
  have hsum : units x + units n < overflowUnits := by
    have hux : units x ≤ magUnits (infBits - 1) := units_le_of_mag_le (Nat.le_sub_one_of_lt (of_decide_eq_true hx))
    rw [magUnits_infBits_sub_one] at hux
    rw [overflowUnits]
    rw [show 2045 = 2044 + 1 from rfl, pow_succ' 2 2044] at hux
    generalize 2 ^ 2044 = t at h hux ⊢
    omega
  rw [← add_div, abs_div, abs_of_pos hunit, div_mul_cancel₀ _ hunit.ne']
  calc |(value x : ℝ) + value n| ≤ |(value x : ℝ)| + |(value n : ℝ)| := abs_add_le _ _
    _ = ((units x + units n : ℕ) : ℝ) := by rw [abs_value_cast, abs_value_cast, Nat.cast_add]
    _ < overflowUnits := by exact_mod_cast hsum

theorem noisySample_isFinite {m : Config.MathLib} {u1Floor nsd : F64} {d : Draw} {r : Sample} (hln : LnBounded m)
    (htrig : TrigBounded m) (hpos : lt 0#64 u1Floor = true) (hlt : lt u1Floor one = true) (hd : d.ok = true)
    (hnsd : mag nsd ≤ 0x5FE6A09E667F3BCC) (hr : r.isFinite = true) : (noisySample m u1Floor nsd d r).isFinite = true := by
  cases hzero : isZero nsd with
  | true => rwa [noisySample_of_isZero m u1Floor d r hzero]
  | false =>
    obtain ⟨hri, hrq⟩ : isFinite r.i = true ∧ isFinite r.q = true := by simpa [Sample.isFinite] using hr
    obtain ⟨hzi, hzq⟩ := mag_boxMuller_le hln htrig hpos hlt hd
    obtain ⟨hni, hui⟩ := units_noise_lt hnsd hzi
    obtain ⟨hnq, huq⟩ := units_noise_lt hnsd hzq
    rw [noisySample_of_not_isZero m u1Floor d r hzero]
    exact Sample.isFinite_mk (isFinite_add_of_units_lt hri hni hui) (isFinite_add_of_units_lt hrq hnq huq)

/-! ### The bound of NSD -/

/-- A finite variance has a deviation of at most SQRT(MAX ⊘ 2), which is where MAX/2 itself rounds (rule R96). -/
theorem mag_nsd_le {nvar : F64} (hfin : isFinite nvar = true) (hsign : sign nvar = false) :
    mag (sqrt (div nvar two)) ≤ 0x5FE6A09E667F3BCC := by
  obtain ⟨hround, hhalf, hsign'⟩ := div_two hfin hsign
  have hmax : magUnits (infBits - 1) = 2 * magUnits 0x7FDFFFFFFFFFFFFF ∧
      4 * (magUnits 0x7FDFFFFFFFFFFFFF * oneUnits) < (magUnits 0x5FE6A09E667F3BCC + magUnits (0x5FE6A09E667F3BCC + 1)) ^ 2 := by
    decide +kernel
  obtain ⟨hmax, hroot⟩ := hmax
  have hdiv : mag (div nvar two) ≤ 0x7FDFFFFFFFFFFFFF := by
    refine hround.mag_le (by decide) ?_
    have hunits : units nvar ≤ 2 * magUnits 0x7FDFFFFFFFFFFFFF :=
      hmax ▸ units_le_of_mag_le (Nat.le_sub_one_of_lt (of_decide_eq_true hfin))
    rw [hhalf, div_le_iff₀' zero_lt_two]
    exact_mod_cast hunits
  refine mag_sqrt_le (isFinite_of_mag_le (by decide) hdiv) hsign' (by decide) (lt_of_le_of_lt ?_ hroot)
  exact Nat.mul_le_mul_left _ (Nat.mul_le_mul_right _ (units_le_of_mag_le hdiv))

/-- Settles O51: the noise of a bounded NSD is far below the step to an infinity (`noisySample_isFinite`), and the
invariant's NSD comes from a finite variance (`noiseVarianceIsAlwaysFinite`, `mag_nsd_le`). -/
theorem noisySampleIsAlwaysFinite : Obligations.NoisySampleIsAlwaysFinite := by
  unfold Obligations.NoisySampleIsAlwaysFinite
  rw [sqrt_half_max]
  refine ⟨fun m u1Floor nsd d r hln htrig hpos hlt hd hnonneg hle hr => ?_, fun s hs => ?_⟩
  · refine noisySample_isFinite hln htrig hpos hlt hd ?_ hr
    obtain ⟨_, _, hlo⟩ := (le_eq_true_iff _ _).mp hnonneg
    obtain ⟨_, _, hhi⟩ := (le_eq_true_iff _ _).mp hle
    rw [show key 0#64 = 0 by decide] at hlo
    rw [show key 0x5FE6A09E667F3BCC#64 = (0x5FE6A09E667F3BCC : ℕ) by decide] at hhi
    have habs := abs_key nsd
    rw [abs_of_nonneg hlo] at habs
    omega
  · obtain ⟨_, _, hnvar, hnsd⟩ := hs.derived
    obtain ⟨hnan, _, hvar⟩ := hs.ebn0
    obtain ⟨hfin, hsign, hsfin, hssign, _⟩ := noiseVarianceIsAlwaysFinite referenceMath s.ebn0 s.scheme
      exp10NonNegative_referenceMath ((snrAccepted_eq_true_iff _).mpr ⟨hnan, hvar⟩)
    have hderive : (derive referenceMath s.ebn0 s.scheme).nvar = s.nvar := hnvar.symm
    have hderive' : (derive referenceMath s.ebn0 s.scheme).nsd = s.nsd := by rw [hnsd, ← hderive]; rfl
    rw [hderive] at hfin hsign
    rw [hderive'] at hsfin hssign
    have hmag : mag s.nsd ≤ 0x5FE6A09E667F3BCC := hnsd ▸ mag_nsd_le hfin hsign
    exact ⟨le_zero_of_sign (isNaN_eq_false_of_isFinite hsfin) hssign, (le_and_le_of_mag_le (by decide) hmag).2⟩

end Sys2Proof.Machine
end

section
/-! PROOFS. The interval arithmetic of the reference functions (assumption log 3): what each operation on intervals holds,
and the two power series. -/

namespace Sys2Proof.Machine

/-! ### What an interval holds -/

/-- The interval holds the real v at p bits. -/
structure Ivl.Holds (p : ℕ) (a : Ivl) (v : ℝ) : Prop where
  lo : (a.lo : ℝ) ≤ v * 2 ^ p
  hi : v * 2 ^ p ≤ a.hi

theorem cast_div_le_of_le_mul {a d : ℕ} {y : ℝ} (hd : 0 < d) (h : (a : ℝ) ≤ y * d) : ((a / d : ℕ) : ℝ) ≤ y :=
  Nat.cast_div_le.trans ((div_le_iff₀ (by exact_mod_cast hd)).mpr h)

theorem le_cast_div_add_one_of_mul_le {a d : ℕ} {y : ℝ} (hd : 0 < d) (h : y * d ≤ a) : y ≤ ((a / d + 1 : ℕ) : ℝ) := by
  have hfloor := (Nat.lt_floor_add_one ((a : ℝ) / d)).le
  rw [Nat.floor_div_eq_div] at hfloor
  rw [Nat.cast_succ]
  exact ((le_div_iff₀ (by exact_mod_cast hd)).mpr h).trans hfloor

theorem sub_le_cast_sub (a b : ℕ) : (a : ℝ) - b ≤ (a - b : ℕ) :=
  sub_le_iff_le_add.mpr (by exact_mod_cast le_tsub_add)

theorem holds_ivlOne (p : ℕ) : (ivlOne p).Holds p 1 := by
  constructor <;> simp [ivlOne]

theorem holds_ivlRat (p n : ℕ) {d : ℕ} (hd : 0 < d) : (ivlRat p n d).Holds p (n / d) := by
  have hd' : (d : ℝ) ≠ 0 := by exact_mod_cast hd.ne'
  have hexact : (n : ℝ) / d * 2 ^ p * d = (n * 2 ^ p : ℕ) := by
    push_cast
    field_simp
  exact ⟨cast_div_le_of_le_mul hd hexact.ge, le_cast_div_add_one_of_mul_le hd hexact.le⟩

section

variable {p : ℕ} {a b : Ivl} {v w : ℝ} (ha : a.Holds p v)

include ha

theorem Ivl.Holds.add (hb : b.Holds p w) : (ivlAdd a b).Holds p (v + w) := by
  constructor
  · rw [ivlAdd, add_mul, Nat.cast_add]
    exact add_le_add ha.lo hb.lo
  · rw [ivlAdd, add_mul, Nat.cast_add]
    exact add_le_add ha.hi hb.hi

theorem Ivl.Holds.sub (hb : b.Holds p w) (hle : w ≤ v) : (ivlSub a b).Holds p (v - w) := by
  constructor
  · rw [ivlSub, sub_mul]
    obtain hlt | hge := le_total a.lo b.hi
    · rw [Nat.sub_eq_zero_of_le hlt, Nat.cast_zero, sub_nonneg]
      gcongr
    · rw [Nat.cast_sub hge]
      exact sub_le_sub ha.lo hb.hi
  · rw [ivlSub, sub_mul]
    exact (sub_le_sub ha.hi hb.lo).trans (sub_le_cast_sub a.hi b.lo)

theorem Ivl.Holds.mul (hb : b.Holds p w) (hv : 0 ≤ v) (hw : 0 ≤ w) : (ivlMul p a b).Holds p (v * w) := by
  have hexact : v * w * 2 ^ p * (2 ^ p : ℕ) = v * 2 ^ p * (w * 2 ^ p) := by
    push_cast
    ring
  constructor
  · refine cast_div_le_of_le_mul (Nat.two_pow_pos p) ?_
    rw [hexact, Nat.cast_mul]
    exact mul_le_mul ha.lo hb.lo (Nat.cast_nonneg _) (by positivity)
  · refine le_cast_div_add_one_of_mul_le (Nat.two_pow_pos p) ?_
    rw [hexact, Nat.cast_mul]
    exact mul_le_mul ha.hi hb.hi (by positivity) (Nat.cast_nonneg _)

theorem Ivl.Holds.scale (k : ℕ) : (ivlScale k a).Holds p (k * v) := by
  constructor
  · rw [ivlScale, mul_assoc, Nat.cast_mul]
    exact mul_le_mul_of_nonneg_left ha.lo (Nat.cast_nonneg k)
  · rw [ivlScale, mul_assoc, Nat.cast_mul]
    exact mul_le_mul_of_nonneg_left ha.hi (Nat.cast_nonneg k)

/-- The quotient of a multiple by a whole number, rounded outwards. -/
theorem Ivl.Holds.mul_div (n : ℕ) {d : ℕ} (hd : 0 < d) :
    Ivl.Holds p ⟨a.lo * n / d, a.hi * n / d + 1⟩ (v * n / d) := by
  have hd' : (d : ℝ) ≠ 0 := by exact_mod_cast hd.ne'
  have hexact : v * n / d * 2 ^ p * d = v * 2 ^ p * n := by field_simp
  constructor
  · refine cast_div_le_of_le_mul hd ?_
    rw [hexact, Nat.cast_mul]
    exact mul_le_mul_of_nonneg_right ha.lo (Nat.cast_nonneg n)
  · refine le_cast_div_add_one_of_mul_le hd ?_
    rw [hexact, Nat.cast_mul]
    exact mul_le_mul_of_nonneg_right ha.hi (Nat.cast_nonneg n)

theorem Ivl.Holds.divNat {k : ℕ} (hk : 0 < k) : (ivlDivNat a k).Holds p (v / k) := by
  simpa [ivlDivNat] using ha.mul_div 1 hk

theorem Ivl.Holds.tail (hw : 0 ≤ w) (hle : w ≤ 2 * v) : (ivlTail a).Holds p w := by
  constructor
  · simp only [ivlTail, Nat.cast_zero]
    positivity
  · calc w * 2 ^ p ≤ 2 * v * 2 ^ p := by gcongr
      _ = 2 * (v * 2 ^ p) := mul_assoc _ _ _
      _ ≤ (2 * a.hi : ℕ) := by
        push_cast
        exact mul_le_mul_of_nonneg_left ha.hi zero_le_two

end

/-! ### Every fourth term of a series -/

/-- The sum of every fourth term of a series, from the m-th on. -/
noncomputable def fourthTail (c : ℕ → ℝ) (m : ℕ) : ℝ := ∑' i, c (m + 4 * i)

section

variable {c : ℕ → ℝ} (hc : Summable c)

include hc

theorem hasSum_fourthTail (m : ℕ) : HasSum (fun i => c (m + 4 * i)) (fourthTail c m) :=
  (hc.comp_injective fun i j h => by simpa using h).hasSum

theorem fourthTail_eq_add (m : ℕ) : fourthTail c m = c m + fourthTail c (m + 4) := by
  rw [fourthTail, (hasSum_fourthTail hc m).summable.tsum_eq_zero_add]
  simp only [fourthTail, mul_zero, add_zero, mul_add, mul_one, add_assoc, add_comm]

/-- The terms of one parity. -/
theorem hasSum_every_second (j : ℕ) :
    HasSum (fun i => c (2 * i + j)) (fourthTail c j + fourthTail c (j + 2)) := by
  refine HasSum.even_add_odd ?_ ?_
  · refine (hasSum_fourthTail hc j).congr_fun fun i => ?_
    rw [show 2 * (2 * i) + j = j + 4 * i by ring]
  · refine (hasSum_fourthTail hc (j + 2)).congr_fun fun i => ?_
    rw [show 2 * (2 * i + 1) + j = j + 2 + 4 * i by ring]

/-- The terms of one parity with alternating signs. -/
theorem hasSum_every_second_alternating (j : ℕ) :
    HasSum (fun i => (-1) ^ i * c (2 * i + j)) (fourthTail c j - fourthTail c (j + 2)) := by
  rw [sub_eq_add_neg]
  refine HasSum.even_add_odd ?_ ?_
  · refine (hasSum_fourthTail hc j).congr_fun fun i => ?_
    rw [pow_mul, neg_one_sq, one_pow, one_mul, show 2 * (2 * i) + j = j + 4 * i by ring]
  · refine (hasSum_fourthTail hc (j + 2)).neg.congr_fun fun i => ?_
    rw [pow_succ, pow_mul, neg_one_sq, one_pow, one_mul, neg_one_mul, show 2 * (2 * i + 1) + j = j + 2 + 4 * i by ring]

/-- Where the terms at least halve, what follows one of them is at most twice it. -/
theorem fourthTail_le {x : ℝ} {m : ℕ} (h0 : ∀ i, 0 ≤ c i) (hle : ∀ i, c (m + i) ≤ x * (1 / 2) ^ i) (j : ℕ) :
    fourthTail c (m + j) ≤ 2 * x := by
  have hx : 0 ≤ x := (h0 m).trans (by simpa using hle 0)
  have hgeom : HasSum (fun i : ℕ => x * (1 / 2) ^ i) (2 * x) := by
    rw [mul_comm]
    exact hasSum_geometric_two.mul_left x
  refine hasSum_le (fun i => ?_) (hasSum_fourthTail hc (m + j)) hgeom
  refine (add_assoc m j (4 * i) ▸ hle (j + 4 * i)).trans ?_
  exact mul_le_mul_of_nonneg_left (pow_le_pow_of_le_one (by norm_num) (by norm_num) (by omega)) hx

omit hc in
theorem fourthTail_nonneg (h0 : ∀ i, 0 ≤ c i) (m : ℕ) : 0 ≤ fourthTail c m := tsum_nonneg fun _ => h0 _

end

/-! ### The exponential series -/

/-- The terms of the exponential series. -/
noncomputable def expTerm (t : ℝ) (m : ℕ) : ℝ := t ^ m / m.factorial

theorem expTerm_succ (t : ℝ) (m : ℕ) : expTerm t (m + 1) = expTerm t m * t / (m + 1 : ℕ) := by
  rw [expTerm, expTerm, Nat.factorial_succ, pow_succ, Nat.cast_mul]
  field_simp

theorem expTerm_nonneg {t : ℝ} (ht : 0 ≤ t) (m : ℕ) : 0 ≤ expTerm t m := by
  rw [expTerm]
  positivity

theorem summable_expTerm (t : ℝ) : Summable (expTerm t) := NormedSpace.expSeries_div_summable t

/-- From the 2t-th on, the terms at least halve. -/
theorem expTerm_add_le {t : ℝ} (ht : 0 ≤ t) {m : ℕ} (hm : 2 * t ≤ m + 1) (i : ℕ) :
    expTerm t (m + i) ≤ expTerm t m * (1 / 2) ^ i := by
  induction i with
  | zero => simp
  | succ i ih =>
    have hpos : (0 : ℝ) < (m + i + 1 : ℕ) := by positivity
    have hhalf : t / (m + i + 1 : ℕ) ≤ 1 / 2 := by
      rw [div_le_iff₀ hpos]
      push_cast
      linarith [(Nat.cast_nonneg i : (0 : ℝ) ≤ i)]
    rw [← add_assoc, expTerm_succ, mul_div_assoc, pow_succ, ← mul_assoc]
    exact mul_le_mul ih hhalf (by positivity) ((expTerm_nonneg ht _).trans ih)

/-- The four sums of the exponential series from its m-th term on. -/
theorem holds_expSeries {p : ℕ} {ti : Ivl} {t : ℝ} (ht : 0 ≤ t) (hti : ti.Holds p t) (n : ℕ) {m : ℕ} {q : Ivl}
    (hq : q.Holds p (expTerm t m)) (hn : 2 * t ≤ m + n + 1) :
    (expSeries p ti n (m + 1) q).s0.Holds p (fourthTail (expTerm t) m) ∧
      (expSeries p ti n (m + 1) q).s1.Holds p (fourthTail (expTerm t) (m + 1)) ∧
      (expSeries p ti n (m + 1) q).s2.Holds p (fourthTail (expTerm t) (m + 2)) ∧
      (expSeries p ti n (m + 1) q).s3.Holds p (fourthTail (expTerm t) (m + 3)) := by
  induction n generalizing m q with
  | zero =>
    have htail (j : ℕ) : (ivlTail q).Holds p (fourthTail (expTerm t) (m + j)) :=
      hq.tail (fourthTail_nonneg (expTerm_nonneg ht) _)
        (fourthTail_le (summable_expTerm t) (expTerm_nonneg ht) (expTerm_add_le ht (by simpa using hn)) j)
    exact ⟨htail 0, htail 1, htail 2, htail 3⟩
  | succ n ih =>
    have hnext : (ivlDivNat (ivlMul p q ti) (m + 1)).Holds p (expTerm t (m + 1)) := by
      rw [expTerm_succ]
      exact (hq.mul hti (expTerm_nonneg ht m) ht).divNat m.succ_pos
    obtain ⟨h0, h1, h2, h3⟩ := ih hnext (by push_cast at hn ⊢; linarith)
    refine ⟨?_, h0, h1, h2⟩
    rw [fourthTail_eq_add (summable_expTerm t)]
    exact hq.add h3

/-- The quadruple of the exponential series of an angle or exponent of at most 16. -/
theorem holds_expQuad {p : ℕ} {ti : Ivl} {t : ℝ} (hp : 64 ≤ p) (ht : 0 ≤ t) (ht' : t ≤ 16) (hti : ti.Holds p t) :
    (expQuad p ti).s0.Holds p (fourthTail (expTerm t) 0) ∧ (expQuad p ti).s1.Holds p (fourthTail (expTerm t) 1) ∧
      (expQuad p ti).s2.Holds p (fourthTail (expTerm t) 2) ∧ (expQuad p ti).s3.Holds p (fourthTail (expTerm t) 3) := by
  have hterms : (32 : ℝ) ≤ (p / 2 : ℕ) := by exact_mod_cast (Nat.le_div_iff_mul_le two_pos).mpr hp
  refine holds_expSeries ht hti (p / 2) (m := 0) ?_ (by push_cast; linarith)
  simpa [expTerm] using holds_ivlOne p

theorem exp_eq_fourthTail (t : ℝ) : Real.exp t = fourthTail (expTerm t) 0 + fourthTail (expTerm t) 1 +
    (fourthTail (expTerm t) 2 + fourthTail (expTerm t) 3) := by
  have heven := hasSum_every_second (summable_expTerm t) 0
  have hodd := hasSum_every_second (summable_expTerm t) 1
  rw [Real.exp_eq_exp_ℝ, add_add_add_comm]
  exact (NormedSpace.expSeries_div_hasSum_exp t).unique (heven.even_add_odd hodd)

theorem cos_eq_fourthTail (t : ℝ) : Real.cos t = fourthTail (expTerm t) 0 - fourthTail (expTerm t) 2 := by
  refine (Real.hasSum_cos t).unique ((hasSum_every_second_alternating (summable_expTerm t) 0).congr_fun fun i => ?_)
  exact mul_div_assoc _ _ _

theorem sin_eq_fourthTail (t : ℝ) : Real.sin t = fourthTail (expTerm t) 1 - fourthTail (expTerm t) 3 := by
  refine (Real.hasSum_sin t).unique ((hasSum_every_second_alternating (summable_expTerm t) 1).congr_fun fun i => ?_)
  exact mul_div_assoc _ _ _

/-! ### The series of artanh and arctan -/

/-- The terms of the series of artanh, at the odd positions. -/
noncomputable def oddTerm (t : ℝ) (m : ℕ) : ℝ := t ^ m / m

theorem oddTerm_nonneg {t : ℝ} (ht : 0 ≤ t) (m : ℕ) : 0 ≤ oddTerm t m := by
  rw [oddTerm]
  positivity

theorem oddTerm_le_pow {t : ℝ} (ht : 0 ≤ t) (m : ℕ) : oddTerm t m ≤ t ^ m := by
  obtain rfl | hm := m.eq_zero_or_pos
  · simp [oddTerm]
  · exact div_le_self (by positivity) (by exact_mod_cast hm)

theorem summable_oddTerm {t : ℝ} (ht : 0 ≤ t) (ht' : t < 1) : Summable (oddTerm t) :=
  (summable_geometric_of_lt_one ht ht').of_nonneg_of_le (oddTerm_nonneg ht) (oddTerm_le_pow ht)

/-- The two sums of the series from its k-th term on. -/
theorem holds_oddSeries {p : ℕ} {t2 : Ivl} {t : ℝ} (ht : 0 ≤ t) (ht' : t ≤ 1 / 2) (ht2 : t2.Holds p (t * t)) (n : ℕ)
    {k : ℕ} {q : Ivl} (hk : 0 < k) (hq : q.Holds p (t ^ k)) :
    (oddSeries p t2 n k q).s0.Holds p (fourthTail (oddTerm t) k) ∧
      (oddSeries p t2 n k q).s1.Holds p (fourthTail (oddTerm t) (k + 2)) := by
  have hsum : Summable (oddTerm t) := summable_oddTerm ht (ht'.trans_lt (by norm_num))
  induction n generalizing k q with
  | zero =>
    have hle (i : ℕ) : oddTerm t (k + i) ≤ t ^ k * (1 / 2) ^ i := by
      refine (oddTerm_le_pow ht _).trans ?_
      rw [pow_add]
      gcongr
    have htail (j : ℕ) : (ivlTail q).Holds p (fourthTail (oddTerm t) (k + j)) :=
      hq.tail (fourthTail_nonneg (oddTerm_nonneg ht) _) (fourthTail_le hsum (oddTerm_nonneg ht) hle j)
    exact ⟨htail 0, htail 2⟩
  | succ n ih =>
    have hnext : (ivlMul p q t2).Holds p (t ^ (k + 2)) := by
      rw [pow_add, pow_two]
      exact hq.mul ht2 (by positivity) (by positivity)
    obtain ⟨h0, h1⟩ := ih (Nat.add_pos_left hk 2) hnext
    refine ⟨?_, h0⟩
    rw [fourthTail_eq_add hsum]
    exact (hq.divNat hk).add h1

theorem holds_oddQuad (p : ℕ) {n d : ℕ} (hd : 0 < d) (hnd : 2 * n ≤ d) :
    (oddQuad p n d).s0.Holds p (fourthTail (oddTerm (n / d)) 1) ∧
      (oddQuad p n d).s1.Holds p (fourthTail (oddTerm (n / d)) 3) := by
  have ht : (0 : ℝ) ≤ n / d := by positivity
  have ht' : (n : ℝ) / d ≤ 1 / 2 := by
    rw [div_le_div_iff₀ (by exact_mod_cast hd) two_pos, one_mul, mul_comm]
    exact_mod_cast hnd
  have hrat := holds_ivlRat p n hd
  exact holds_oddSeries ht ht' (hrat.mul hrat ht ht) _ one_pos (by rwa [pow_one])

theorem artanh_eq_fourthTail {t : ℝ} (ht : 0 ≤ t) (ht' : t < 1) :
    Real.artanh t = fourthTail (oddTerm t) 1 + fourthTail (oddTerm t) 3 := by
  have hlog := Real.hasSum_log_sub_log_of_abs_lt_one (abs_lt.mpr ⟨by linarith, ht'⟩)
  have hsum := (hasSum_every_second (summable_oddTerm ht ht') 1).mul_left 2
  rw [Real.artanh_eq_half_log ⟨by linarith, ht'.le⟩, Real.log_div (by linarith) (by linarith)]
  have := hlog.unique (hsum.congr_fun fun i => by rw [oddTerm]; push_cast; ring)
  linarith

theorem arctan_eq_fourthTail {t : ℝ} (ht : 0 ≤ t) (ht' : t < 1) :
    Real.arctan t = fourthTail (oddTerm t) 1 - fourthTail (oddTerm t) 3 := by
  refine (Real.hasSum_arctan (abs_lt.mpr ⟨by linarith, ht'⟩)).unique
    ((hasSum_every_second_alternating (summable_oddTerm ht ht') 1).congr_fun fun i => ?_)
  exact mul_div_assoc _ _ _

theorem holds_artanhIvl (p : ℕ) {n d : ℕ} (hd : 0 < d) (hnd : 2 * n ≤ d) :
    (artanhIvl p n d).Holds p (Real.artanh (n / d)) := by
  have ht : (n : ℝ) / d < 1 := by
    rw [div_lt_one (by exact_mod_cast hd)]
    exact_mod_cast (show n < d by omega)
  obtain ⟨h0, h1⟩ := holds_oddQuad p hd hnd
  rw [artanh_eq_fourthTail (by positivity) ht]
  exact h0.add h1

theorem holds_arctanIvl (p : ℕ) {n d : ℕ} (hd : 0 < d) (hnd : 2 * n ≤ d) :
    (arctanIvl p n d).Holds p (Real.arctan (n / d)) := by
  have ht : (n : ℝ) / d < 1 := by
    rw [div_lt_one (by exact_mod_cast hd)]
    exact_mod_cast (show n < d by omega)
  have heq := arctan_eq_fourthTail (t := (n : ℝ) / d) (by positivity) ht
  have hpos : 0 ≤ Real.arctan ((n : ℝ) / d) := Real.arctan_nonneg.mpr (by positivity)
  obtain ⟨h0, h1⟩ := holds_oddQuad p hd hnd
  rw [heq] at hpos ⊢
  exact h0.sub h1 (sub_nonneg.mp hpos)

/-! ### ln 2, ln 10 and 2π -/

theorem two_mul_artanh_third : 2 * Real.artanh (1 / 3) = Real.log 2 := by
  rw [Real.artanh_eq_half_log ⟨by norm_num, by norm_num⟩, ← mul_assoc]
  norm_num

theorem holds_ln2Ivl (p : ℕ) : (ln2Ivl p).Holds p (Real.log 2) := by
  have h := (holds_artanhIvl p (n := 1) (d := 3) (by decide) (by decide)).scale 2
  rw [← two_mul_artanh_third]
  exact_mod_cast h

theorem log_ten_eq : Real.log 10 = 6 * Real.artanh (1 / 3) + 2 * Real.artanh (1 / 9) := by
  have h9 : 2 * Real.artanh (1 / 9) = Real.log (5 / 4) := by
    rw [Real.artanh_eq_half_log ⟨by norm_num, by norm_num⟩, ← mul_assoc]
    norm_num
  have h8 : Real.log 8 = 3 * Real.log 2 := by
    rw [show (8 : ℝ) = 2 ^ 3 by norm_num, Real.log_pow]
    norm_num
  rw [h9, show (10 : ℝ) = 8 * (5 / 4) by norm_num, Real.log_mul (by norm_num) (by norm_num), h8, ← two_mul_artanh_third]
  ring

theorem holds_ln10Ivl (p : ℕ) : (ln10Ivl p).Holds p (Real.log 10) := by
  have h3 := (holds_artanhIvl p (n := 1) (d := 3) (by decide) (by decide)).scale 6
  have h9 := (holds_artanhIvl p (n := 1) (d := 9) (by decide) (by decide)).scale 2
  rw [log_ten_eq]
  exact_mod_cast h3.add h9

theorem two_pi_eq : 2 * Real.pi = 32 * Real.arctan (1 / 5) - 8 * Real.arctan (1 / 239) := by
  have h := Real.four_mul_arctan_inv_5_sub_arctan_inv_239
  rw [inv_eq_one_div, inv_eq_one_div] at h
  linarith

theorem holds_twoPiIvl (p : ℕ) : (twoPiIvl p).Holds p (2 * Real.pi) := by
  have h5 := (holds_arctanIvl p (n := 1) (d := 5) (by decide) (by decide)).scale 32
  have h239 := (holds_arctanIvl p (n := 1) (d := 239) (by decide) (by decide)).scale 8
  have hpos := Real.two_pi_pos.le
  rw [two_pi_eq] at hpos ⊢
  exact_mod_cast h5.sub h239 (by exact_mod_cast sub_nonneg.mp hpos)

end Sys2Proof.Machine
end

section
/-! PROOFS. The enclosures of EXP10, LN, COS and SIN hold the exact values (rule R14, assumption log 3). -/

namespace Sys2Proof.Machine

open Sys2Proof.F64 Sys2Proof.Safety

/-! ### EXP10 -/

theorem holds_pow10FracIvl {p frac : ℕ} (hp : 64 ≤ p) (hfrac : frac < oneUnits) :
    (pow10FracIvl p frac).Holds p ((10 : ℝ) ^ ((frac : ℝ) / oneUnits)) := by
  have hunit := oneUnits_pos
  rw [pow10FracIvl]
  generalize oneUnits = d at hfrac hunit ⊢
  split
  · next h =>
    rw [h, Nat.cast_zero, zero_div, Real.rpow_zero]
    exact holds_ivlOne p
  · have hlog0 : 0 < Real.log 10 := Real.log_pos (by norm_num)
    have hlog : Real.log 10 ≤ 16 := (Real.log_le_sub_one_of_pos (by norm_num)).trans (by norm_num)
    have hfrac' : (frac : ℝ) / d ≤ 1 := (div_le_one (by exact_mod_cast hunit)).mpr (by exact_mod_cast hfrac.le)
    have harg : Real.log 10 * frac / d ≤ 16 := by
      rw [mul_div_assoc]
      exact (mul_le_of_le_one_right hlog0.le hfrac').trans hlog
    obtain ⟨h0, h1, h2, h3⟩ := holds_expQuad hp (by positivity) harg ((holds_ln10Ivl p).mul_div frac hunit)
    rw [Real.rpow_def_of_pos (by norm_num), ← mul_div_assoc, exp_eq_fourthTail]
    exact (h0.add h1).add (h2.add h3)

/-- The power of ten with a whole exponent n is a factor of both ends. -/
theorem encloses_zpow_mul {p : ℕ} {e : Ivl} {y : ℝ} (h : e.Holds p y) (n : ℤ) :
    Encloses (if 0 ≤ n then ⟨(e.lo * 10 ^ n.toNat : ℕ), (e.hi * 10 ^ n.toNat : ℕ), 2 ^ p⟩
      else ⟨e.lo, e.hi, 2 ^ p * 10 ^ (-n).toNat⟩) ((10 : ℝ) ^ n * y) := by
  obtain ⟨hlo, hhi⟩ := h
  obtain ⟨n, rfl | rfl⟩ := n.eq_nat_or_neg
  · have hexact : (10 : ℝ) ^ (n : ℤ) * y * 2 ^ p = y * 2 ^ p * 10 ^ n := by
      rw [zpow_natCast]
      ring
    rw [if_pos (Int.natCast_nonneg n), Int.toNat_natCast]
    refine ⟨by positivity, ?_, ?_⟩ <;> push_cast <;> rw [hexact] <;> gcongr
  · obtain rfl | hn := n.eq_zero_or_pos
    · refine ⟨by simp, ?_, ?_⟩ <;> simpa
    · have hexact : (10 : ℝ) ^ (-(n : ℤ)) * y * (2 ^ p * 10 ^ n) = y * 2 ^ p := by
        rw [zpow_neg, zpow_natCast]
        field_simp
      rw [if_neg (by omega), neg_neg, Int.toNat_natCast]
      refine ⟨by positivity, ?_, ?_⟩ <;> push_cast <;> rwa [hexact]

theorem encloses_exp10Enclosure (v : ℤ) {p : ℕ} (hp : 64 ≤ p) :
    Encloses (exp10Enclosure v p) ((10 : ℝ) ^ ((v : ℝ) / 2 ^ 1074)) := by
  have hunit : (0 : ℤ) < oneUnits := by exact_mod_cast oneUnits_pos
  have hfrac0 := Int.emod_nonneg v hunit.ne'
  have hfrac := holds_pow10FracIvl hp (frac := (v % (oneUnits : ℤ)).toNat)
    ((Int.toNat_lt hfrac0).mpr (Int.emod_lt_of_pos v hunit))
  have hsplit : (v : ℝ) / oneUnits = (v / (oneUnits : ℤ) : ℤ) + ((v % (oneUnits : ℤ)).toNat : ℝ) / oneUnits := by
    have hcast : ((v % (oneUnits : ℤ)).toNat : ℝ) = (v % (oneUnits : ℤ) : ℤ) := by
      exact_mod_cast Int.toNat_of_nonneg hfrac0
    have hdiv : (v : ℝ) = oneUnits * (v / (oneUnits : ℤ) : ℤ) + (v % (oneUnits : ℤ) : ℤ) := by
      exact_mod_cast (Int.mul_ediv_add_emod v oneUnits).symm
    have hne : (oneUnits : ℝ) ≠ 0 := by exact_mod_cast oneUnits_pos.ne'
    rw [hcast]
    field_simp
    exact hdiv
  rw [← oneUnits_cast, hsplit, Real.rpow_add (by norm_num), Real.rpow_intCast]
  exact encloses_zpow_mul hfrac _

/-- Settles O56: the whole part of x gives a power of ten, the fraction the exponential series. -/
theorem exp10EnclosureHoldsTheExactPower : Obligations.Exp10EnclosureHoldsTheExactPower := by
  unfold Obligations.Exp10EnclosureHoldsTheExactPower
  exact fun x p _ hp => encloses_exp10Enclosure (value x) hp

/-! ### LN -/

/-- A value in (0, 1) in units of 2^-1074. -/
theorem units_of_lt_one {x : F64} (hpos : lt 0#64 x = true) (hlt : lt x one = true) :
    value x = units x ∧ 0 < units x ∧ units x < oneUnits := by
  have hkpos := value_lt_value_iff.mpr ((lt_eq_true_iff _ _).mp hpos).2.2
  have hklt := value_lt_value_iff.mpr ((lt_eq_true_iff _ _).mp hlt).2.2
  have hone : value one = oneUnits := by rw [value, if_neg (by decide), units_one]
  have habs : |value x| = units x := abs_value x
  rw [show value 0#64 = 0 by decide] at hkpos
  rw [hone] at hklt
  rw [abs_of_pos hkpos] at habs
  rw [habs] at hkpos hklt
  exact ⟨habs, by exact_mod_cast hkpos, by exact_mod_cast hklt⟩

/-- ln m of a significand m = w / d in [1, 2). -/
theorem two_mul_artanh_eq_log {w d : ℕ} (hd : 0 < d) (hdw : d ≤ w) :
    2 * Real.artanh ((w - d : ℕ) / (w + d : ℕ)) = Real.log ((w : ℝ) / d) := by
  have hd' : (0 : ℝ) < d := by exact_mod_cast hd
  have hdw' : (d : ℝ) ≤ w := by exact_mod_cast hdw
  have hsum : (0 : ℝ) < w + d := by linarith
  have hq : (1 + ((w : ℝ) - d) / (w + d)) / (1 - (w - d) / (w + d)) = w / d := by
    rw [one_add_div hsum.ne', one_sub_div hsum.ne', div_div_div_cancel_right₀ hsum.ne']
    calc ((w : ℝ) + d + (w - d)) / (w + d - (w - d)) = 2 * w / (2 * d) := by ring_nf
      _ = w / d := mul_div_mul_left _ _ two_ne_zero
  rw [Nat.cast_sub hdw, Nat.cast_add, Real.artanh_eq_half_log, hq, ← mul_assoc]
  · norm_num
  · rw [Set.mem_Icc, le_div_iff₀ hsum, div_le_one hsum]
    constructor <;> linarith

/-- The interval LN is read from holds −ln x, of x = u / d with its significand u·2^j / d in [1, 2). -/
theorem holds_neg_log {u j d : ℕ} (p : ℕ) (hpos : 0 < u) (hlt : u < d) (hlo : d ≤ u * 2 ^ j) (hhi : u * 2 ^ j ≤ 2 * d) :
    (ivlSub (ivlScale j (ln2Ivl p)) (ivlScale 2 (artanhIvl p (u * 2 ^ j - d) (u * 2 ^ j + d)))).Holds p
      (-Real.log ((u : ℝ) / d)) := by
  have hd : 0 < d := hpos.trans hlt
  have hd' : (0 : ℝ) < d := by exact_mod_cast hd
  have hu' : (0 : ℝ) < u := by exact_mod_cast hpos
  have hm := (holds_artanhIvl p (n := u * 2 ^ j - d) (d := u * 2 ^ j + d) (by omega) (by omega)).scale 2
  rw [Nat.cast_two, two_mul_artanh_eq_log hd hlo] at hm
  have heq : -Real.log ((u : ℝ) / d) = j * Real.log 2 - Real.log ((u * 2 ^ j : ℕ) / d) := by
    rw [Nat.cast_mul, Nat.cast_pow, Nat.cast_two, mul_div_right_comm, Real.log_mul (by positivity) (by positivity),
      Real.log_pow]
    ring
  have hneg : 0 ≤ -Real.log ((u : ℝ) / d) := by
    rw [neg_nonneg]
    exact Real.log_nonpos (by positivity) ((div_le_one hd').mpr (by exact_mod_cast hlt.le))
  rw [heq] at hneg ⊢
  exact ((holds_ln2Ivl p).scale j).sub hm (sub_nonneg.mp hneg)

/-- Shifting to the exponent of the highest bit gives a significand in [1, 2). -/
theorem significand_bounds {u k d : ℕ} (hd : d = 2 ^ k) (hpos : 0 < u) (hlt : u < d) :
    d ≤ u * 2 ^ (k - u.log2) ∧ u * 2 ^ (k - u.log2) ≤ 2 * d := by
  subst hd
  have hlog : u.log2 ≤ k := ((Nat.log2_lt hpos.ne').mpr hlt).le
  have hpow : 2 ^ k = 2 ^ u.log2 * 2 ^ (k - u.log2) := by rw [← pow_add, Nat.add_sub_cancel' hlog]
  refine ⟨hpow ▸ Nat.mul_le_mul_right _ (Nat.log2_self_le hpos.ne'), ?_⟩
  rw [hpow, ← mul_assoc, ← pow_succ']
  exact Nat.mul_le_mul_right _ Nat.lt_log2_self.le

/-- "LN(x) ≥ −745" (rule R14), of the exact logarithm: no value is below 2^-1074. -/
theorem neg_log_le {u : ℕ} (hpos : 0 < u) : -Real.log ((u : ℝ) / oneUnits) ≤ 745 := by
  have hu : (1 : ℝ) ≤ u := by exact_mod_cast hpos
  have hunit : (0 : ℝ) < oneUnits := by exact_mod_cast oneUnits_pos
  calc -Real.log ((u : ℝ) / oneUnits) = Real.log oneUnits - Real.log u := by
        rw [Real.log_div (by positivity) hunit.ne', neg_sub]
    _ ≤ Real.log oneUnits := sub_le_self _ (Real.log_nonneg hu)
    _ = 1074 * Real.log 2 := by rw [oneUnits_cast, Real.log_pow]; norm_num
    _ ≤ 745 := by linarith [Real.log_two_lt_d9]

theorem encloses_lnEnclosure {u : ℕ} (p : ℕ) (hpos : 0 < u) (hlt : u < oneUnits) :
    Encloses (lnEnclosure u p) (Real.log ((u : ℝ) / 2 ^ 1074)) := by
  have hle := neg_log_le hpos
  obtain ⟨hsiglo, hsighi⟩ := significand_bounds (k := 1074) oneUnits.eq_1 hpos hlt
  obtain ⟨hlo, hhi⟩ := holds_neg_log p hpos hlt hsiglo hsighi
  rw [← oneUnits_cast]
  generalize Real.log ((u : ℝ) / oneUnits) = y at *
  simp only [lnEnclosure]
  refine ⟨by simp, ?_, ?_⟩
  · push_cast
    rw [neg_le, ← neg_mul]
    exact le_min hhi (by gcongr)
  · push_cast
    rw [le_neg, ← neg_mul]
    exact (min_le_left _ _).trans hlo

/-- Settles O57: x is a significand in [1, 2) times a power of two, and −ln x at most 745. -/
theorem lnEnclosureHoldsTheExactLogarithm : Obligations.LnEnclosureHoldsTheExactLogarithm := by
  unfold Obligations.LnEnclosureHoldsTheExactLogarithm
  intro x p hpos hlt _
  obtain ⟨hvalue, hupos, hult⟩ := units_of_lt_one hpos hlt
  rw [hvalue, Int.cast_natCast]
  exact encloses_lnEnclosure p hupos hult

/-! ### COS and SIN -/

/-- The angle differs from x by a whole number of turns. -/
theorem exists_holds_angleIvl (u p : ℕ) :
    ∃ t : ℝ, ∃ q : ℕ, 0 ≤ t ∧ (u : ℝ) / oneUnits = t + q * (2 * Real.pi) ∧ (angleIvl u p).Holds p t := by
  have hunit := oneUnits_pos
  simp only [angleIvl]
  generalize oneUnits = d at hunit ⊢
  split
  · exact ⟨u / d, 0, by positivity, by simp, holds_ivlRat p u hunit⟩
  · generalize u.log2 - 1066 = g
    obtain ⟨hturnlo, hturnhi⟩ := holds_twoPiIvl (p + g)
    have hrat := holds_ivlRat (p + g) u hunit
    simp only [ivlRat] at hrat
    obtain ⟨hxlo, hxhi⟩ := hrat
    generalize u * 2 ^ (p + g) / d = x at *
    generalize twoPiIvl (p + g) = turn at *
    have hq : x / turn.hi * turn.hi ≤ x := Nat.div_mul_le_self _ _
    generalize x / turn.hi = q at *
    have hscale : ((u : ℝ) / d - q * (2 * Real.pi)) * 2 ^ (p + g) =
        u / d * 2 ^ (p + g) - q * (2 * Real.pi * 2 ^ (p + g)) := by ring
    have hlo : ((x - q * turn.hi : ℕ) : ℝ) ≤ ((u : ℝ) / d - q * (2 * Real.pi)) * 2 ^ (p + g) := by
      rw [hscale, Nat.cast_sub hq, Nat.cast_mul]
      exact sub_le_sub hxlo (by gcongr)
    have hhi : ((u : ℝ) / d - q * (2 * Real.pi)) * 2 ^ (p + g) ≤ (x + 1 - q * turn.lo : ℕ) := by
      rw [hscale]
      refine (sub_le_sub hxhi ?_).trans (sub_le_cast_sub _ _)
      rw [Nat.cast_mul]
      gcongr
    refine ⟨u / d - q * (2 * Real.pi), q, ?_, by ring, ?_, ?_⟩
    · exact nonneg_of_mul_nonneg_left ((Nat.cast_nonneg _).trans hlo) (by positivity)
    · rw [pow_add, ← mul_assoc] at hlo
      exact cast_div_le_of_le_mul (Nat.two_pow_pos g) (by exact_mod_cast hlo)
    · rw [pow_add, ← mul_assoc] at hhi
      exact le_cast_div_add_one_of_mul_le (Nat.two_pow_pos g) (by exact_mod_cast hhi)

theorem encloses_unitEnclosure {p : ℕ} {a b : Ivl} {v w : ℝ} (ha : a.Holds p v) (hb : b.Holds p w) (h : |v - w| ≤ 1) :
    Encloses (unitEnclosure p a b) (v - w) := by
  obtain ⟨hlo, hhi⟩ := abs_le.mp h
  have hpow : (0 : ℝ) < 2 ^ p := by positivity
  simp only [unitEnclosure]
  refine ⟨by simp, ?_, ?_⟩
  · push_cast
    refine max_le ?_ ((min_le_right _ _).trans ?_)
    · nlinarith
    · rw [sub_mul]
      exact sub_le_sub ha.lo hb.hi
  · push_cast
    refine le_max_of_le_right (le_min ?_ ?_)
    · nlinarith
    · rw [sub_mul]
      exact sub_le_sub ha.hi hb.lo

theorem encloses_anyUnitEnclosure (p : ℕ) {v : ℝ} (h : |v| ≤ 1) : Encloses (anyUnitEnclosure p) v := by
  obtain ⟨hlo, hhi⟩ := abs_le.mp h
  have hpow : (0 : ℝ) < 2 ^ p := by positivity
  simp only [anyUnitEnclosure]
  refine ⟨by simp, ?_, ?_⟩ <;> push_cast <;> nlinarith

theorem Ivl.Holds.le_of_hi_le {p k : ℕ} {a : Ivl} {v : ℝ} (h : a.Holds p v) (hhi : a.hi ≤ k * 2 ^ p) : v ≤ k := by
  have hhi' : (a.hi : ℝ) ≤ k * 2 ^ p := by exact_mod_cast hhi
  exact le_of_mul_le_mul_right (h.hi.trans hhi') (by positivity)

theorem encloses_cosEnclosure (u : ℕ) {p : ℕ} (hp : 64 ≤ p) :
    Encloses (cosEnclosure u p) (Real.cos ((u : ℝ) / 2 ^ 1074)) := by
  obtain ⟨t, q, ht, hturns, hangle⟩ := exists_holds_angleIvl u p
  rw [← oneUnits_cast, hturns, Real.cos_add_nat_mul_two_pi, cosEnclosure]
  split
  · next hhi =>
    obtain ⟨h0, -, h2, -⟩ := holds_expQuad hp ht ((hangle.le_of_hi_le hhi).trans (by norm_num)) hangle
    have hcos := Real.abs_cos_le_one t
    rw [cos_eq_fourthTail] at hcos ⊢
    exact encloses_unitEnclosure h0 h2 hcos
  · exact encloses_anyUnitEnclosure p (Real.abs_cos_le_one t)

theorem encloses_sinEnclosure (u : ℕ) {p : ℕ} (hp : 64 ≤ p) :
    Encloses (sinEnclosure u p) (Real.sin ((u : ℝ) / 2 ^ 1074)) := by
  obtain ⟨t, q, ht, hturns, hangle⟩ := exists_holds_angleIvl u p
  rw [← oneUnits_cast, hturns, Real.sin_add_nat_mul_two_pi, sinEnclosure]
  split
  · next hhi =>
    obtain ⟨-, h1, -, h3⟩ := holds_expQuad hp ht ((hangle.le_of_hi_le hhi).trans (by norm_num)) hangle
    have hsin := Real.abs_sin_le_one t
    rw [sin_eq_fourthTail] at hsin ⊢
    exact encloses_unitEnclosure h1 h3 hsin
  · exact encloses_anyUnitEnclosure p (Real.abs_sin_le_one t)

/-- Settles O58: the angle less whole turns, and the terms of the exponential series by their position modulo 4. -/
theorem trigEnclosuresHoldTheExactValues : Obligations.TrigEnclosuresHoldTheExactValues := by
  unfold Obligations.TrigEnclosuresHoldTheExactValues
  exact fun x p _ hp => ⟨encloses_cosEnclosure (units x) hp, encloses_sinEnclosure (units x) hp⟩

end Sys2Proof.Machine
end

section
/-! PROOFS. EXP10, LN, COS and SIN as the exact values rounded once, where a working precision settles (rules R13, R14,
assumption log 3). -/

-- In turn, not side by side: each kernel evaluation waits in a thread of its own for all before it to be checked.
set_option Elab.async false

namespace Sys2Proof.Safety

open Sys2Proof.F64

/-! ### Reals rounded without an enclosure -/

/-- A positive real past the halfway point after the largest finite value rounds to +∞. -/
theorem roundsTo_posInf {v : ℝ} (hpos : 0 < v) (h : (overflowUnits : ℝ) ≤ v * 2 ^ 1074) : RoundsTo v posInf := by
  have hfin : isFinite posInf ≠ true := by decide
  refine ⟨by decide, ?_, fun _ => ?_, fun hw => absurd hw hfin, fun hw => absurd hw hfin,
    fun hneg => absurd hneg hpos.not_gt, fun _ => by decide⟩
  · rw [abs_of_pos hpos]
    exact iff_of_false hfin h.not_gt
  · rw [if_neg hpos.not_gt]
    rfl

/-- A positive real below half of 2^-1074 rounds to +0. -/
theorem roundsTo_zero_of_lt_half {v : ℝ} (hpos : 0 < v) (h : 2 * (v * 2 ^ 1074) < 1) : RoundsTo v 0#64 := by
  have hone : magUnits (0 + 1) = 1 := by decide
  have hmag : RoundsMag (|v| * 2 ^ 1074) 0 := by
    have hscaled : 0 ≤ v * 2 ^ 1074 := by positivity
    rw [abs_of_pos hpos]
    generalize v * 2 ^ 1074 = u at h hscaled
    refine ⟨0, by simpa, ?_, .inl ⟨rfl, .inl ?_⟩⟩
    · rw [hone, Nat.cast_one]
      linarith
    · rwa [hone, magUnits_zero, Nat.cast_zero, Nat.cast_one, zero_add]
  exact roundsTo_of_roundsMag (s := false) hmag (fun hneg => absurd hneg hpos.not_gt) fun _ => rfl

theorem getLsbD_zero_neg (x : F64) : (neg x).getLsbD 0 = x.getLsbD 0 := by
  conv_rhs => rw [← ofSignMag_sign_mag x, getLsbD_zero_ofSignMag]
  exact getLsbD_zero_ofSignMag _ _

/-- Rounding commutes with the sign (rule R13: to nearest, ties to even). -/
theorem RoundsTo.neg {v : ℝ} {x : F64} (h : RoundsTo v x) : RoundsTo (-v) (F64.neg x) := by
  refine ⟨?_, ?_, fun hover => ?_, fun hx => ?_, fun hx y hy hne htie => ?_, fun hneg => ?_, fun hpos => ?_⟩
  · rw [isNaN, mag_neg]
    exact h.notNaN
  · rw [isFinite_neg, abs_neg]
    exact h.finite
  · rw [abs_neg] at hover
    rw [h.overflow hover]
    obtain hlt | rfl | hgt := lt_trichotomy v 0
    · rw [if_pos hlt, if_neg (by linarith)]
      decide
    · rw [abs_zero, zero_mul] at hover
      exact absurd hover overflowUnits_pos.not_ge
    · rw [if_neg hgt.not_gt, if_pos (by linarith)]
      decide
  · exact NearestTo.neg (h.nearest (isFinite_neg.symm.trans hx))
  · rw [getLsbD_zero_neg]
    have hdist (z : F64) : |(value z : ℝ) - -v * 2 ^ 1074| = |(value (F64.neg z) : ℝ) - v * 2 ^ 1074| := by
      rw [value_neg, Int.cast_neg, ← neg_add', abs_neg, neg_mul, sub_neg_eq_add]
    refine h.even (isFinite_neg.symm.trans hx) (F64.neg y) (isFinite_neg.trans hy) ?_ ?_
    · rw [value_neg] at hne ⊢
      exact fun heq => hne (neg_eq_iff_eq_neg.mp heq)
    · rw [hdist, hdist, value_neg (F64.neg x), value_neg x, neg_neg] at htie
      exact htie
  · rw [sign_neg, h.positive (neg_lt_zero.mp hneg)]
    rfl
  · rw [sign_neg, h.negative (neg_pos.mp hpos)]
    rfl

end Sys2Proof.Safety

namespace Sys2Proof.Machine

open Sys2Proof.F64 Sys2Proof.Safety

theorem roundsTo_correctlyRounded {f : ℕ → Enclosure} {v : ℝ} (hf : ∀ p, 64 ≤ p → Encloses (f p) v) (hs : Settles f) :
    RoundsTo v (correctlyRounded f) := by
  refine roundsTo_settle (fun p hp => hf p ?_) hs
  simp only [List.mem_cons, List.not_mem_nil, or_false] at hp
  omega

/-! ### EXP10 -/

theorem two_pow_le_ten_pow : (2 : ℝ) ^ 1320 ≤ 10 ^ 400 := by
  calc (2 : ℝ) ^ 1320 = (2 ^ 33) ^ 40 := by rw [← pow_mul]
    _ ≤ (10 ^ 10) ^ 40 := by gcongr; norm_num
    _ = 10 ^ 400 := by rw [← pow_mul]

/-- From 400 on, 10^x is past the largest finite value. -/
theorem roundsTo_rpow_of_large {y : ℝ} (h : 400 ≤ y) : RoundsTo ((10 : ℝ) ^ y) posInf := by
  refine roundsTo_posInf (by positivity) ?_
  have hle : (2 : ℝ) ^ 1320 ≤ 10 ^ y := by
    refine two_pow_le_ten_pow.trans ?_
    rw [← Real.rpow_natCast]
    exact Real.rpow_le_rpow_of_exponent_le (by norm_num) (by exact_mod_cast h)
  calc (overflowUnits : ℝ) ≤ 2 ^ 54 * 2 ^ 2044 := by
        rw [overflowUnits, Nat.cast_mul, Nat.cast_pow 2 2044, Nat.cast_two]
        exact mul_le_mul_of_nonneg_right (by norm_num) (by positivity)
    _ ≤ 2 ^ 1320 * 2 ^ 1074 := by
        rw [← pow_add, ← pow_add]
        exact pow_le_pow_right₀ one_le_two (by norm_num)
    _ ≤ 10 ^ y * 2 ^ 1074 := by gcongr

/-- To −400, 10^x is below half of the least positive value. -/
theorem roundsTo_rpow_of_small {y : ℝ} (h : y ≤ -400) : RoundsTo ((10 : ℝ) ^ y) 0#64 := by
  refine roundsTo_zero_of_lt_half (by positivity) ?_
  have hle : (10 : ℝ) ^ y ≤ (2 ^ 1320)⁻¹ := by
    refine le_trans ?_ (inv_anti₀ (by positivity) two_pow_le_ten_pow)
    rw [← Real.rpow_natCast, ← Real.rpow_neg (by norm_num)]
    exact Real.rpow_le_rpow_of_exponent_le (by norm_num) (by exact_mod_cast h)
  calc 2 * ((10 : ℝ) ^ y * 2 ^ 1074) ≤ 2 * ((2 ^ 1320)⁻¹ * 2 ^ 1074) := by gcongr
    _ = 2 ^ 1075 * (2 ^ 1320)⁻¹ := by rw [mul_left_comm, ← pow_succ', mul_comm]
    _ < 1 := by
      rw [← div_eq_mul_inv, div_lt_one (by positivity)]
      exact pow_lt_pow_right₀ one_lt_two (by norm_num)

theorem roundsTo_exp10 {x : F64} (hx : isFinite x = true)
    (h : 400 * (oneUnits : ℤ) ≤ |value x| ∨ Settles (exp10Enclosure (value x))) :
    RoundsTo ((10 : ℝ) ^ ((value x : ℝ) / 2 ^ 1074)) (exp10 x) := by
  have hunit : (0 : ℝ) < oneUnits := by exact_mod_cast oneUnits_pos
  obtain ⟨hnan, hinf⟩ := (isFinite_iff x).mp hx
  simp only [exp10, hnan, hinf, Bool.false_eq_true, if_false]
  split
  · next hlarge =>
    rw [← oneUnits_cast]
    exact roundsTo_rpow_of_large ((le_div_iff₀ hunit).mpr (by exact_mod_cast hlarge))
  · next hlarge =>
    split
    · next hsmall =>
      rw [← oneUnits_cast]
      refine roundsTo_rpow_of_small ((div_le_iff₀ hunit).mpr ?_)
      rw [neg_mul]
      exact_mod_cast hsmall
    · next hsmall =>
      have hnot : ¬ 400 * (oneUnits : ℤ) ≤ |value x| := by
        rw [le_abs', not_or]
        exact ⟨hsmall, hlarge⟩
      exact roundsTo_correctlyRounded (fun p hp => encloses_exp10Enclosure (value x) hp) (h.resolve_left hnot)

/-! ### LN, COS and SIN -/

theorem roundsTo_ln {x : F64} (hpos : lt 0#64 x = true) (hlt : lt x one = true) (h : Settles (lnEnclosure (units x))) :
    RoundsTo (Real.log ((value x : ℝ) / 2 ^ 1074)) (ln x) := by
  obtain ⟨hvalue, hupos, hult⟩ := units_of_lt_one hpos hlt
  rw [ln_of_lt_one hpos hlt, hvalue, Int.cast_natCast]
  exact roundsTo_correctlyRounded (fun p _ => encloses_lnEnclosure p hupos hult) h

/-- The value is the magnitude with its sign. -/
theorem value_div_eq (x : F64) :
    (value x : ℝ) / 2 ^ 1074 = if sign x then -((units x : ℝ) / 2 ^ 1074) else (units x : ℝ) / 2 ^ 1074 := by
  rw [value]
  split
  · rw [Int.cast_neg, Int.cast_natCast, neg_div]
  · rw [Int.cast_natCast]

theorem roundsTo_cos {x : F64} (hx : isFinite x = true) (h : isZero x = true ∨ Settles (cosEnclosure (units x))) :
    RoundsTo (Real.cos ((value x : ℝ) / 2 ^ 1074)) (cos x) := by
  simp only [cos, hx, Bool.not_true, Bool.false_eq_true, if_false]
  split
  · next hzero =>
    have hone := roundsTo_rne 1 one_pos
    rw [show rne 1 1 = one by decide +kernel, Nat.cast_one, Int.cast_one, div_one] at hone
    rwa [value_eq_zero_iff.mpr hzero, Int.cast_zero, zero_div, Real.cos_zero]
  · next hzero =>
    have hcos : Real.cos ((value x : ℝ) / 2 ^ 1074) = Real.cos ((units x : ℝ) / 2 ^ 1074) := by
      rw [value_div_eq]
      split
      · exact Real.cos_neg _
      · rfl
    rw [hcos]
    exact roundsTo_correctlyRounded (fun p hp => encloses_cosEnclosure (units x) hp) (h.resolve_left hzero)

theorem roundsTo_sin {x : F64} (hx : isFinite x = true) (h : isZero x = true ∨ Settles (sinEnclosure (units x))) :
    RoundsTo (Real.sin ((value x : ℝ) / 2 ^ 1074)) (sin x) := by
  simp only [sin, hx, Bool.not_true, Bool.false_eq_true, if_false]
  split
  · next hzero =>
    rw [value_eq_zero_iff.mpr hzero, Int.cast_zero, zero_div, Real.sin_zero]
    exact roundsTo_zero false
  · next hzero =>
    have hmag := roundsTo_correctlyRounded (fun p hp => encloses_sinEnclosure (units x) hp) (h.resolve_left hzero)
    rw [value_div_eq]
    split
    · rw [Real.sin_neg]
      exact hmag.neg
    · exact hmag

/-- Settles O59: between the ends of a settled enclosure every real rounds to its word, and the enclosures hold the exact
values; the arguments without an enclosure round directly. -/
theorem settledEnclosureGivesANearestValue : Obligations.SettledEnclosureGivesANearestValue := by
  unfold Obligations.SettledEnclosureGivesANearestValue
  exact ⟨fun _ _ _ => roundsTo_of_settled, fun _ => roundsTo_exp10, fun _ => roundsTo_ln, fun _ => roundsTo_cos,
    fun _ => roundsTo_sin⟩

end Sys2Proof.Machine
end
